-- ==== Sys2Proof/Word.lean ====
section
/-! DEFINITION. The word types of the Saber CORE (spec/00_scope.md R5, R9; spec/10_state.md R21, R35; spec/30_encoding.md R70). -/

namespace Sys2Proof

/-- The carrier of a ring element, a scalar register, a coefficient or a control register: 16 bits (R5, R21, R24, R100). -/
abbrev Word := BitVec 16

/-- One byte of DMEM or of a byte string (R9, R38). -/
abbrev Byte := BitVec 8

/-- The 32-bit command word the host issues: a number, not bytes of DMEM (R70). -/
abbrev CmdWord := BitVec 32

/-- A byte string, byte 0 first, that is at the lowest address (R9, R50). -/
abbrev Bytes := List Byte

/-- A polynomial: 256 coefficients of 16 bits, entry j the coefficient of X^j (R35, R130). -/
abbrev Poly := Vector Word 256

/-- The index of a scalar register `e0`..`e15` (R21, R71). -/
abbrev SReg := Fin 16

/-- The index of a polynomial register `P0`..`P31` (R35, R71). -/
abbrev PReg := Fin 32

end Sys2Proof
end

