-- ==== Sys2Proof/Config.lean ====
section
/-! DEFINITION. What is fixed for the machine and is not state (spec/10_state.md R41): the six parameter sets as names and
the shape of a tuple (spec/00_scope.md R7), and the four OPEN parameters of spec/92_eei_decisions.md (`DMEM_RESET`,
`SHA3_256`, `SHA3_512`, `SHAKE128`) as free values without a body: no proof can learn a value of them. -/

namespace Sys2Proof

/-- The six profiles, in the order of the table of R7 (`id` 1 to 6). -/
inductive Profile where
  | lightSaber
  | saber
  | fireSaber
  | uLightSaber
  | uSaber
  | uFireSaber
  deriving DecidableEq, Repr

/-- "An immutable tuple (L, εq, εp, εt, μ, uniform_sampling)" (R7): what SETPROF carries and PARAMS0, PARAMS1 hold. -/
structure ParamTuple where
  L : Nat
  epsQ : Nat
  epsP : Nat
  epsT : Nat
  mu : Nat
  uniform : Bool
  deriving DecidableEq, Repr

/-- FREE VALUE (R42, D15): the content of DMEM after reset, `DMEM_RESET`; address to byte. Log entry 2. -/
opaque Config.dmemReset : Nat → Byte

/-- FREE VALUE (R11, D17): SHA3-256, a function from a byte string to 32 bytes. Log entry 3. -/
opaque Config.sha3_256 : Bytes → Vector Byte 32

/-- FREE VALUE (R11, D17): SHA3-512, a function from a byte string to 64 bytes. Log entry 3. -/
opaque Config.sha3_512 : Bytes → Vector Byte 64

/-- FREE VALUE (R11, D17): SHAKE-128 as its one output stream: byte `k` of the output for an input. Giving the stream rather
than a function of the length is the prefix property of R11: a longer output continues a shorter one. Log entry 3. -/
opaque Config.shake128 : Bytes → Nat → Byte

end Sys2Proof
end

