-- ==== Sys2Proof/Machine/Profile.lean ====
section
/-! DEFINITION. The parameter table and the byte lengths (spec/00_scope.md R7, R8), and how a tuple is packed in PARAMS0 and
PARAMS1 (spec/10_state.md R25, R26). -/

namespace Sys2Proof

/-- The table of R7, one row a profile. -/
def Profile.tuple : Profile → ParamTuple
  | .lightSaber => ⟨2, 13, 10, 3, 10, false⟩
  | .saber => ⟨3, 13, 10, 4, 8, false⟩
  | .fireSaber => ⟨4, 13, 10, 6, 6, false⟩
  | .uLightSaber => ⟨2, 12, 10, 3, 2, true⟩
  | .uSaber => ⟨3, 12, 10, 4, 2, true⟩
  | .uFireSaber => ⟨4, 12, 10, 6, 2, true⟩

/-- The numbering of R7; PROFID reads it (R27). -/
def Profile.id : Profile → Nat
  | .lightSaber => 1
  | .saber => 2
  | .fireSaber => 3
  | .uLightSaber => 4
  | .uSaber => 5
  | .uFireSaber => 6

/-- The six profiles in the order of the table of R7. -/
def Profile.all : List Profile :=
  [.lightSaber, .saber, .fireSaber, .uLightSaber, .uSaber, .uFireSaber]

abbrev Profile.L (pr : Profile) : Nat := pr.tuple.L
abbrev Profile.epsQ (pr : Profile) : Nat := pr.tuple.epsQ
abbrev Profile.epsP (pr : Profile) : Nat := pr.tuple.epsP
abbrev Profile.epsT (pr : Profile) : Nat := pr.tuple.epsT
abbrev Profile.mu (pr : Profile) : Nat := pr.tuple.mu
abbrev Profile.uniform (pr : Profile) : Bool := pr.tuple.uniform

/-- PK_LEN = PKE_PK_LEN = 32 + L·εp·32 (R8). -/
def Profile.pkLen (pr : Profile) : Nat := 32 + pr.L * pr.epsP * 32

/-- PKE_SK_LEN = L·εq·32 (R8). -/
def Profile.pkeSkLen (pr : Profile) : Nat := pr.L * pr.epsQ * 32

/-- CT_LEN = PKE_CT_LEN = L·εp·32 + εt·32 (R8). -/
def Profile.ctLen (pr : Profile) : Nat := pr.L * pr.epsP * 32 + pr.epsT * 32

/-- SK_LEN = PKE_SK_LEN + PKE_PK_LEN + 32 + 32 (R8). -/
def Profile.skLen (pr : Profile) : Nat := pr.pkeSkLen + pr.pkLen + 32 + 32

/-- The profile whose six members all equal the tuple's; none for every other tuple (R270, R271). -/
def Profile.ofTuple? (t : ParamTuple) : Option Profile :=
  Profile.all.find? fun pr => decide (pr.tuple = t)

/-- PARAMS0: bits [3:0] = L, [7:4] = εq, [11:8] = εp, [15:12] = εt (R25). -/
def packParams0 (t : ParamTuple) : Word :=
  BitVec.ofNat 16 (t.L + t.epsQ * 2 ^ 4 + t.epsP * 2 ^ 8 + t.epsT * 2 ^ 12)

/-- PARAMS1: bits [3:0] = μ, bit [4] = uniform, bits [15:5] = 0 (R26). -/
def packParams1 (t : ParamTuple) : Word :=
  BitVec.ofNat 16 (t.mu + t.uniform.toNat * 2 ^ 4)

/-- The profile whose tuple PARAMS0 and PARAMS1 hold; none when they hold no profile (R27). -/
def Profile.ofParams? (p0 p1 : Word) : Option Profile :=
  Profile.all.find? fun pr => decide (packParams0 pr.tuple = p0 ∧ packParams1 pr.tuple = p1)

end Sys2Proof
end

