-- ==== Sys2Proof/Machine/Fields.lean ====
section
/-! DEFINITION. The legal values of the command fields that are checked when a command executes (spec/30_encoding.md R87;
spec/44_polymatrix.md R180, R181). Each is a Bool of the fields alone: no state is read. -/

namespace Sys2Proof.Machine

/-- A supported codec width, ε ∈ {1, 3, 4, 5, 6, 10, 12, 13} (R170, R87); 90_conflicts.md C1: eight widths. -/
def codecWidthOk (w : Nat) : Bool := [1, 3, 4, 5, 6, 10, 12, 13].contains w

/-- A CBD parameter of PCBD, μ ∈ {6, 8, 10} (R212, R87); 90_conflicts.md C6: μ = 2 is not one. -/
def cbdWidthOk (mu : Nat) : Bool := [6, 8, 10].contains mu

/-- A row or column count in 1..4 (R180). -/
def dimOk (n : Nat) : Bool := decide (1 ≤ n ∧ n ≤ 4)

/-- The shape rule of MADD, MSHL, MSHR, MMOD: r and c each in 1..4, no further condition (R180). -/
def shapeOk (r c : Nat) : Bool := dimOk r && dimOk c

/-- The shape rule of MTRN and MVMUL: also r = c (R180). -/
def squareOk (r c : Nat) : Bool := shapeOk r c && decide (r = c)

/-- The shape rule of MINNER, MENC and MDEC: also c = 1 (R180). -/
def columnOk (r c : Nat) : Bool := shapeOk r c && decide (c = 1)

/-- A run of n polynomial registers from base b lies inside the file: b + n <= 32 (R36, R181). -/
def runFits (b n : Nat) : Bool := decide (b + n ≤ 32)

/-- A control register number that exists, 0..9 (R24). -/
def csrOk (n : Nat) : Bool := decide (n ≤ 9)

/-- The tuple the fields of a SETPROF word carry (R271). -/
def setprofTuple (L : Fin 8) (eq ep : Fin 16) (et : Fin 8) (mu : Fin 16) (u : Fin 2) : ParamTuple :=
  ⟨L, eq, ep, et, mu, decide (u.val = 1)⟩

/-- A tuple that is one of the six rows of R7 (R270, R271). -/
def tupleOk (t : ParamTuple) : Bool := (Profile.ofTuple? t).isSome

end Sys2Proof.Machine
end

