-- ==== Sys2Proof/Syntax.lean ====
section
/-! DEFINITION. The fifty commands of the opcode map (spec/30_encoding.md R88, spec/opcode_table.json), one constructor a
row. Operands stand in the assembler's order of R92. A field's type has exactly the values its bits can hold (R71): `SReg`
a scalar register number, `PReg` a polynomial register number, `Fin 16` a shift amount, reduce width, codec width or
control register number, `Fin 8` a row or column count, `Fin 256` a coefficient index, `BitVec 16` the immediate. A field
value the spec calls illegal for the command (R87) is still encodable: WellFormed.lean says which are legal, and the
command faults on the others when it executes (R90 e). -/

namespace Sys2Proof

inductive Instr where
  /-- 0x01 SETPROF `L, eq, ep, et, mu, u` (R271). -/
  | setprof (L : Fin 8) (eq ep : Fin 16) (et : Fin 8) (mu : Fin 16) (u : Fin 2)
  /-- 0x02 RDCSR `ed, csr` (R272). -/
  | rdcsr (ed : SReg) (csr : Fin 16)
  /-- 0x10 ELI `ed, imm16` (R110). -/
  | eli (ed : SReg) (imm16 : Word)
  /-- 0x11 EADD `ed, ea, eb` (R102). -/
  | eadd (ed ea eb : SReg)
  /-- 0x12 ESUB `ed, ea, eb` (R103). -/
  | esub (ed ea eb : SReg)
  /-- 0x13 ENEG `ed, ea` (R104). -/
  | eneg (ed ea : SReg)
  /-- 0x14 EMUL `ed, ea, eb` (R105). -/
  | emul (ed ea eb : SReg)
  /-- 0x15 ESHL `ed, ea, sh` (R106). -/
  | eshl (ed ea : SReg) (sh : Fin 16)
  /-- 0x16 ESHR `ed, ea, sh` (R107). -/
  | eshr (ed ea : SReg) (sh : Fin 16)
  /-- 0x17 ERED `ed, ea, k` (R108). -/
  | ered (ed ea : SReg) (k : Fin 16)
  /-- 0x18 ELD `ed, (ea)` (R111). -/
  | eld (ed ea : SReg)
  /-- 0x19 EST `es, (ea)` (R112). -/
  | est (es ea : SReg)
  /-- 0x1A ELDB `ed, (ea)` (R113). -/
  | eldb (ed ea : SReg)
  /-- 0x1B ESTB `es, (ea)` (R114). -/
  | estb (es ea : SReg)
  /-- 0x20 PZERO `Pd` (R131). -/
  | pzero (pd : PReg)
  /-- 0x21 PMOV `Pd, Pa` (R132). -/
  | pmov (pd pa : PReg)
  /-- 0x22 PADD `Pd, Pa, Pb` (R133). -/
  | padd (pd pa pb : PReg)
  /-- 0x23 PACC `Pd, Pa` (R134). -/
  | pacc (pd pa : PReg)
  /-- 0x24 PSUB `Pd, Pa, Pb` (R135). -/
  | psub (pd pa pb : PReg)
  /-- 0x25 PMUL `Pd, Pa, Pb` (R160). -/
  | pmul (pd pa pb : PReg)
  /-- 0x26 PSHL `Pd, Pa, sh` (R136). -/
  | pshl (pd pa : PReg) (sh : Fin 16)
  /-- 0x27 PSHR `Pd, Pa, sh` (R137). -/
  | pshr (pd pa : PReg) (sh : Fin 16)
  /-- 0x28 PMOD `Pd, Pa, k` (R138). -/
  | pmod (pd pa : PReg) (k : Fin 16)
  /-- 0x29 PLDC `Pd, (ea)` (R139). -/
  | pldc (pd : PReg) (ea : SReg)
  /-- 0x2A PSTC `Ps, (ea)` (R140). -/
  | pstc (ps : PReg) (ea : SReg)
  /-- 0x2B PGETC `ed, Pa, idx` (R141). -/
  | pgetc (ed : SReg) (pa : PReg) (idx : Fin 256)
  /-- 0x2C PSETC `Pd, idx, es` (R142). -/
  | psetc (pd : PReg) (idx : Fin 256) (es : SReg)
  /-- 0x30 PENC `Ps, (ea), w` (R173). -/
  | penc (ps : PReg) (ea : SReg) (w : Fin 16)
  /-- 0x31 PDEC `Pd, (ea), w` (R174). -/
  | pdec (pd : PReg) (ea : SReg) (w : Fin 16)
  /-- 0x40 MADD `Pd, Pa, Pb, r, c` (R183). -/
  | madd (pd pa pb : PReg) (r c : Fin 8)
  /-- 0x41 MSHL `Pd, Pa, r, c, sh` (R184). -/
  | mshl (pd pa : PReg) (r c : Fin 8) (sh : Fin 16)
  /-- 0x42 MSHR `Pd, Pa, r, c, sh` (R185). -/
  | mshr (pd pa : PReg) (r c : Fin 8) (sh : Fin 16)
  /-- 0x43 MMOD `Pd, Pa, r, c, k` (R186). -/
  | mmod (pd pa : PReg) (r c : Fin 8) (k : Fin 16)
  /-- 0x44 MTRN `Pd, Pa, r, c` (R187). -/
  | mtrn (pd pa : PReg) (r c : Fin 8)
  /-- 0x45 MVMUL `Pd, Pa, Pb, r, c` (R188). -/
  | mvmul (pd pa pb : PReg) (r c : Fin 8)
  /-- 0x46 MINNER `Pd, Pa, Pb, r, c` (R189). -/
  | minner (pd pa pb : PReg) (r c : Fin 8)
  /-- 0x47 MENC `Ps, (ea), w, r, c` (R190). -/
  | menc (ps : PReg) (ea : SReg) (w : Fin 16) (r c : Fin 8)
  /-- 0x48 MDEC `Pd, (ea), w, r, c` (R191). -/
  | mdec (pd : PReg) (ea : SReg) (w : Fin 16) (r c : Fin 8)
  /-- 0x49 GENMAT `Pd, (ea)` (R193). -/
  | genmat (pd : PReg) (ea : SReg)
  /-- 0x4A GENSEC `Pd, (ea)` (R195). -/
  | gensec (pd : PReg) (ea : SReg)
  /-- 0x50 PCBD `Pd, (ea), mu` (R212). -/
  | pcbd (pd : PReg) (ea : SReg) (mu : Fin 16)
  /-- 0x51 PUNI `Pd, (ea)` (R214). -/
  | puni (pd : PReg) (ea : SReg)
  /-- 0x60 PKE.KEYGEN `(ed), (es)` (R225). -/
  | pkeKeygen (ed es : SReg)
  /-- 0x61 PKE.ENC `(ed), (es)` (R228). -/
  | pkeEnc (ed es : SReg)
  /-- 0x62 PKE.DEC `(ed), (es)` (R231). -/
  | pkeDec (ed es : SReg)
  /-- 0x70 KEM.KEYGEN `(ed), (es)` (R245). -/
  | kemKeygen (ed es : SReg)
  /-- 0x71 KEM.ENCAPS `(ed), (es)` (R247). -/
  | kemEncaps (ed es : SReg)
  /-- 0x72 KEM.DECAPS `(ed), (es)` (R249). -/
  | kemDecaps (ed es : SReg)
  /-- 0x80 CTEQ `ed, (ea), (eb), el` (R261). -/
  | cteq (ed ea eb el : SReg)
  /-- 0x81 CTSEL `(ed), ef, (ex), (ey), el` (R263). -/
  | ctsel (ed ef ex ey el : SReg)
  deriving DecidableEq, Repr

/-- Why a word is no command (R89, R90 a, b): the two ways a decoder rejects, each by name. Both raise `Fault(ILLEGAL)`. -/
inductive DecodeReject where
  /-- The opcode byte is not one of the fifty of R88. -/
  | unassignedOpcode
  /-- The opcode is assigned and a reserved bit of its format is 1. -/
  | reservedBitSet
  deriving DecidableEq, Repr

/-- What a command word reads as. -/
inductive Decoded where
  | instr (i : Instr)
  | rejected (r : DecodeReject)
  deriving DecidableEq, Repr

end Sys2Proof
end

