-- ==== Sys2Proof/Decode.lean ====
section
/-! DEFINITION. From a command word to a command and back (spec/30_encoding.md R70 to R90). A row of the table is written
from the opcode map of R88 with the format of R72 to R86; the encoder below it is written from the same formats. -/

namespace Sys2Proof

/-! ## Bit fields (R9, R87: every field is one contiguous bit range read as an unsigned number) -/

/-- The slice `w[lo+n-1 : lo]` as a number (R9). -/
def bitsAt (w : CmdWord) (lo n : Nat) : Nat := w.toNat / 2 ^ lo % 2 ^ n

/-- A 1-bit field at bit `lo`. -/
def fld1 (w : CmdWord) (lo : Nat) : Fin 2 := Fin.ofNat 2 (bitsAt w lo 1)

/-- A 3-bit field at bit `lo`. -/
def fld3 (w : CmdWord) (lo : Nat) : Fin 8 := Fin.ofNat 8 (bitsAt w lo 3)

/-- A 4-bit field at bit `lo`. -/
def fld4 (w : CmdWord) (lo : Nat) : Fin 16 := Fin.ofNat 16 (bitsAt w lo 4)

/-- A 5-bit field at bit `lo`. -/
def fld5 (w : CmdWord) (lo : Nat) : Fin 32 := Fin.ofNat 32 (bitsAt w lo 5)

/-- An 8-bit field at bit `lo`. -/
def fld8 (w : CmdWord) (lo : Nat) : Fin 256 := Fin.ofNat 256 (bitsAt w lo 8)

/-- The 16-bit immediate, bits [lo+15:lo] as they stand (R87). -/
def fldImm (w : CmdWord) (lo : Nat) : Word := BitVec.ofNat 16 (bitsAt w lo 16)

/-! ## The formats -/

/-- One row of the opcode map: the opcode byte, the one range of reserved bits [hi:lo] of the command's format, and the
command its fields make. -/
structure OpRow where
  op : Nat
  reservedHi : Nat
  reservedLo : Nat
  build : CmdWord → Instr

/-- Format SP (R72). Reserved: bits [4:0]. -/
def fmtSP (op : Nat) (mk : Fin 8 → Fin 16 → Fin 16 → Fin 8 → Fin 16 → Fin 2 → Instr) : OpRow :=
  ⟨op, 4, 0, fun w => mk (fld3 w 21) (fld4 w 17) (fld4 w 13) (fld3 w 10) (fld4 w 6) (fld1 w 5)⟩

/-- Format CR (R73). Reserved: bits [15:0]. -/
def fmtCR (op : Nat) (mk : Fin 16 → Fin 16 → Instr) : OpRow :=
  ⟨op, 15, 0, fun w => mk (fld4 w 20) (fld4 w 16)⟩

/-- Format SI (R74). Reserved: bits [19:16]. -/
def fmtSI (op : Nat) (mk : Fin 16 → Word → Instr) : OpRow :=
  ⟨op, 19, 16, fun w => mk (fld4 w 20) (fldImm w 0)⟩

/-- Format S3 (R75). Reserved: bits [11:0]. -/
def fmtS3 (op : Nat) (mk : Fin 16 → Fin 16 → Fin 16 → Instr) : OpRow :=
  ⟨op, 11, 0, fun w => mk (fld4 w 20) (fld4 w 16) (fld4 w 12)⟩

/-- Format S2 (R76, imm4 reserved). Reserved: bits [15:0]. -/
def fmtS2 (op : Nat) (mk : Fin 16 → Fin 16 → Instr) : OpRow :=
  ⟨op, 15, 0, fun w => mk (fld4 w 20) (fld4 w 16)⟩

/-- Format S2 (R76, with imm4). Reserved: bits [11:0]. -/
def fmtS2Imm (op : Nat) (mk : Fin 16 → Fin 16 → Fin 16 → Instr) : OpRow :=
  ⟨op, 11, 0, fun w => mk (fld4 w 20) (fld4 w 16) (fld4 w 12)⟩

/-- Format PX (R77, PGETC). Reserved: bits [14:8]. -/
def fmtPXGet (op : Nat) (mk : Fin 16 → Fin 32 → Fin 256 → Instr) : OpRow :=
  ⟨op, 14, 8, fun w => mk (fld4 w 20) (fld5 w 15) (fld8 w 0)⟩

/-- Format PX (R77, PSETC; the constructor takes pd, idx, es). Reserved: bits [14:8]. -/
def fmtPXSet (op : Nat) (mk : Fin 32 → Fin 256 → Fin 16 → Instr) : OpRow :=
  ⟨op, 14, 8, fun w => mk (fld5 w 15) (fld8 w 0) (fld4 w 20)⟩

/-- Format P3 (R78). Reserved: bits [8:0]. -/
def fmtP3 (op : Nat) (mk : Fin 32 → Fin 32 → Fin 32 → Instr) : OpRow :=
  ⟨op, 8, 0, fun w => mk (fld5 w 19) (fld5 w 14) (fld5 w 9)⟩

/-- Format P2 (R79, PZERO: pa and imm4 reserved). Reserved: bits [18:0]. -/
def fmtP1 (op : Nat) (mk : Fin 32 → Instr) : OpRow :=
  ⟨op, 18, 0, fun w => mk (fld5 w 19)⟩

/-- Format P2 (R79, imm4 reserved). Reserved: bits [13:0]. -/
def fmtP2 (op : Nat) (mk : Fin 32 → Fin 32 → Instr) : OpRow :=
  ⟨op, 13, 0, fun w => mk (fld5 w 19) (fld5 w 14)⟩

/-- Format P2 (R79, with imm4). Reserved: bits [9:0]. -/
def fmtP2Imm (op : Nat) (mk : Fin 32 → Fin 32 → Fin 16 → Instr) : OpRow :=
  ⟨op, 9, 0, fun w => mk (fld5 w 19) (fld5 w 14) (fld4 w 10)⟩

/-- Format PM (R80, w reserved). Reserved: bits [14:0]. -/
def fmtPM (op : Nat) (mk : Fin 32 → Fin 16 → Instr) : OpRow :=
  ⟨op, 14, 0, fun w => mk (fld5 w 19) (fld4 w 15)⟩

/-- Format PM (R80, with w). Reserved: bits [10:0]. -/
def fmtPMW (op : Nat) (mk : Fin 32 → Fin 16 → Fin 16 → Instr) : OpRow :=
  ⟨op, 10, 0, fun w => mk (fld5 w 19) (fld4 w 15) (fld4 w 11)⟩

/-- Format M3 (R81). Reserved: bits [2:0]. -/
def fmtM3 (op : Nat) (mk : Fin 32 → Fin 32 → Fin 32 → Fin 8 → Fin 8 → Instr) : OpRow :=
  ⟨op, 2, 0, fun w => mk (fld5 w 19) (fld5 w 14) (fld5 w 9) (fld3 w 6) (fld3 w 3)⟩

/-- Format M2 (R82, MTRN: imm4 reserved). Reserved: bits [7:0]. -/
def fmtM2 (op : Nat) (mk : Fin 32 → Fin 32 → Fin 8 → Fin 8 → Instr) : OpRow :=
  ⟨op, 7, 0, fun w => mk (fld5 w 19) (fld5 w 14) (fld3 w 11) (fld3 w 8)⟩

/-- Format M2 (R82, with imm4). Reserved: bits [3:0]. -/
def fmtM2Imm (op : Nat) (mk : Fin 32 → Fin 32 → Fin 8 → Fin 8 → Fin 16 → Instr) : OpRow :=
  ⟨op, 3, 0, fun w => mk (fld5 w 19) (fld5 w 14) (fld3 w 11) (fld3 w 8) (fld4 w 4)⟩

/-- Format MM (R83, w, r and c reserved). Reserved: bits [14:0]. -/
def fmtMM (op : Nat) (mk : Fin 32 → Fin 16 → Instr) : OpRow :=
  ⟨op, 14, 0, fun w => mk (fld5 w 19) (fld4 w 15)⟩

/-- Format MM (R83, with w, r, c). Reserved: bits [4:0]. -/
def fmtMMW (op : Nat) (mk : Fin 32 → Fin 16 → Fin 16 → Fin 8 → Fin 8 → Instr) : OpRow :=
  ⟨op, 4, 0, fun w => mk (fld5 w 19) (fld4 w 15) (fld4 w 11) (fld3 w 8) (fld3 w 5)⟩

/-- Format KK (R84). Reserved: bits [15:0]. -/
def fmtKK (op : Nat) (mk : Fin 16 → Fin 16 → Instr) : OpRow :=
  ⟨op, 15, 0, fun w => mk (fld4 w 20) (fld4 w 16)⟩

/-- Format CQ (R85). Reserved: bits [7:0]. -/
def fmtCQ (op : Nat) (mk : Fin 16 → Fin 16 → Fin 16 → Fin 16 → Instr) : OpRow :=
  ⟨op, 7, 0, fun w => mk (fld4 w 20) (fld4 w 16) (fld4 w 12) (fld4 w 8)⟩

/-- Format CS (R86). Reserved: bits [3:0]. -/
def fmtCS (op : Nat) (mk : Fin 16 → Fin 16 → Fin 16 → Fin 16 → Fin 16 → Instr) : OpRow :=
  ⟨op, 3, 0, fun w => mk (fld4 w 20) (fld4 w 16) (fld4 w 12) (fld4 w 8) (fld4 w 4)⟩

/-! ## The opcode map (R88): fifty rows -/

/-- Family 0: ParamSets and access. -/
def opRows0 : List OpRow := [
  fmtSP 0x01 .setprof,
  fmtCR 0x02 .rdcsr]

/-- Family 1: RingElement. -/
def opRows1 : List OpRow := [
  fmtSI 0x10 .eli,
  fmtS3 0x11 .eadd,
  fmtS3 0x12 .esub,
  fmtS2 0x13 .eneg,
  fmtS3 0x14 .emul,
  fmtS2Imm 0x15 .eshl,
  fmtS2Imm 0x16 .eshr,
  fmtS2Imm 0x17 .ered,
  fmtS2 0x18 .eld,
  fmtS2 0x19 .est,
  fmtS2 0x1A .eldb,
  fmtS2 0x1B .estb]

/-- Family 2: Polynomial. -/
def opRows2 : List OpRow := [
  fmtP1 0x20 .pzero,
  fmtP2 0x21 .pmov,
  fmtP3 0x22 .padd,
  fmtP2 0x23 .pacc,
  fmtP3 0x24 .psub,
  fmtP3 0x25 .pmul,
  fmtP2Imm 0x26 .pshl,
  fmtP2Imm 0x27 .pshr,
  fmtP2Imm 0x28 .pmod,
  fmtPM 0x29 .pldc,
  fmtPM 0x2A .pstc,
  fmtPXGet 0x2B .pgetc,
  fmtPXSet 0x2C .psetc]

/-- Family 3: BitPack Codec. -/
def opRows3 : List OpRow := [
  fmtPMW 0x30 .penc,
  fmtPMW 0x31 .pdec]

/-- Family 4: PolyMatrix. -/
def opRows4 : List OpRow := [
  fmtM3 0x40 .madd,
  fmtM2Imm 0x41 .mshl,
  fmtM2Imm 0x42 .mshr,
  fmtM2Imm 0x43 .mmod,
  fmtM2 0x44 .mtrn,
  fmtM3 0x45 .mvmul,
  fmtM3 0x46 .minner,
  fmtMMW 0x47 .menc,
  fmtMMW 0x48 .mdec,
  fmtMM 0x49 .genmat,
  fmtMM 0x4A .gensec]

/-- Family 5: Sampling. -/
def opRows5 : List OpRow := [
  fmtPMW 0x50 .pcbd,
  fmtPM 0x51 .puni]

/-- Family 6: PKE. -/
def opRows6 : List OpRow := [
  fmtKK 0x60 .pkeKeygen,
  fmtKK 0x61 .pkeEnc,
  fmtKK 0x62 .pkeDec]

/-- Family 7: KEM. -/
def opRows7 : List OpRow := [
  fmtKK 0x70 .kemKeygen,
  fmtKK 0x71 .kemEncaps,
  fmtKK 0x72 .kemDecaps]

/-- Family 8: ConstantTime. -/
def opRows8 : List OpRow := [
  fmtCQ 0x80 .cteq,
  fmtCS 0x81 .ctsel]

/-- The whole map of R88. -/
def opcodeTable : List OpRow :=
  opRows0 ++ opRows1 ++ opRows2 ++ opRows3 ++ opRows4 ++ opRows5 ++ opRows6 ++ opRows7 ++ opRows8

/-! ## The decoder (R89) -/

/-- The opcode byte `W[31:24]` (R70). -/
def opcodeOf (w : CmdWord) : Nat := bitsAt w 24 8

/-- No reserved bit of the row's command is set in the word (R90 b). -/
def OpRow.reservedClear (r : OpRow) (w : CmdWord) : Bool :=
  decide (bitsAt w r.reservedLo (r.reservedHi + 1 - r.reservedLo) = 0)

/-- R89: find the row of the opcode byte, check the reserved bits, extract the fields. Total: every word reads as a command
or is rejected by name. It depends on the word alone. -/
def decode (w : CmdWord) : Decoded :=
  match opcodeTable.find? fun r => decide (r.op = opcodeOf w) with
  | none => .rejected .unassignedOpcode
  | some r => if r.reservedClear w then .instr (r.build w) else .rejected .reservedBitSet

/-! ## The encoder: the word of a command, from the same formats -/

/-- The fields of format SP in place (R72); reserved bits 0. -/
def encSP (op : Nat) (L : Fin 8) (eq : Fin 16) (ep : Fin 16) (et : Fin 8) (mu : Fin 16) (u : Fin 2) : CmdWord :=
  BitVec.ofNat 32 (op * 2 ^ 24 + L.val * 2 ^ 21 + eq.val * 2 ^ 17 + ep.val * 2 ^ 13 + et.val * 2 ^ 10 + mu.val * 2 ^ 6 + u.val * 2 ^ 5)

/-- The fields of format CR in place (R73); reserved bits 0. -/
def encCR (op : Nat) (ed : Fin 16) (csr : Fin 16) : CmdWord :=
  BitVec.ofNat 32 (op * 2 ^ 24 + ed.val * 2 ^ 20 + csr.val * 2 ^ 16)

/-- The fields of format SI in place (R74); reserved bits 0. -/
def encSI (op : Nat) (ed : Fin 16) (imm16 : Word) : CmdWord :=
  BitVec.ofNat 32 (op * 2 ^ 24 + ed.val * 2 ^ 20 + imm16.toNat)

/-- The fields of format S3 in place (R75); reserved bits 0. -/
def encS3 (op : Nat) (ed : Fin 16) (ea : Fin 16) (eb : Fin 16) : CmdWord :=
  BitVec.ofNat 32 (op * 2 ^ 24 + ed.val * 2 ^ 20 + ea.val * 2 ^ 16 + eb.val * 2 ^ 12)

/-- The fields of format S2 in place (R76, imm4 reserved); reserved bits 0. -/
def encS2 (op : Nat) (ed : Fin 16) (ea : Fin 16) : CmdWord :=
  BitVec.ofNat 32 (op * 2 ^ 24 + ed.val * 2 ^ 20 + ea.val * 2 ^ 16)

/-- The fields of format S2 in place (R76, with imm4); reserved bits 0. -/
def encS2Imm (op : Nat) (ed : Fin 16) (ea : Fin 16) (imm : Fin 16) : CmdWord :=
  BitVec.ofNat 32 (op * 2 ^ 24 + ed.val * 2 ^ 20 + ea.val * 2 ^ 16 + imm.val * 2 ^ 12)

/-- The fields of format PX in place (R77, PGETC); reserved bits 0. -/
def encPXGet (op : Nat) (ed : Fin 16) (pa : Fin 32) (idx : Fin 256) : CmdWord :=
  BitVec.ofNat 32 (op * 2 ^ 24 + ed.val * 2 ^ 20 + pa.val * 2 ^ 15 + idx.val)

/-- The fields of format PX in place (R77, PSETC; the constructor takes pd, idx, es); reserved bits 0. -/
def encPXSet (op : Nat) (pd : Fin 32) (idx : Fin 256) (es : Fin 16) : CmdWord :=
  BitVec.ofNat 32 (op * 2 ^ 24 + es.val * 2 ^ 20 + pd.val * 2 ^ 15 + idx.val)

/-- The fields of format P3 in place (R78); reserved bits 0. -/
def encP3 (op : Nat) (pd : Fin 32) (pa : Fin 32) (pb : Fin 32) : CmdWord :=
  BitVec.ofNat 32 (op * 2 ^ 24 + pd.val * 2 ^ 19 + pa.val * 2 ^ 14 + pb.val * 2 ^ 9)

/-- The fields of format P2 in place (R79, PZERO: pa and imm4 reserved); reserved bits 0. -/
def encP1 (op : Nat) (pd : Fin 32) : CmdWord :=
  BitVec.ofNat 32 (op * 2 ^ 24 + pd.val * 2 ^ 19)

/-- The fields of format P2 in place (R79, imm4 reserved); reserved bits 0. -/
def encP2 (op : Nat) (pd : Fin 32) (pa : Fin 32) : CmdWord :=
  BitVec.ofNat 32 (op * 2 ^ 24 + pd.val * 2 ^ 19 + pa.val * 2 ^ 14)

/-- The fields of format P2 in place (R79, with imm4); reserved bits 0. -/
def encP2Imm (op : Nat) (pd : Fin 32) (pa : Fin 32) (imm : Fin 16) : CmdWord :=
  BitVec.ofNat 32 (op * 2 ^ 24 + pd.val * 2 ^ 19 + pa.val * 2 ^ 14 + imm.val * 2 ^ 10)

/-- The fields of format PM in place (R80, w reserved); reserved bits 0. -/
def encPM (op : Nat) (pd : Fin 32) (ea : Fin 16) : CmdWord :=
  BitVec.ofNat 32 (op * 2 ^ 24 + pd.val * 2 ^ 19 + ea.val * 2 ^ 15)

/-- The fields of format PM in place (R80, with w); reserved bits 0. -/
def encPMW (op : Nat) (pd : Fin 32) (ea : Fin 16) (w : Fin 16) : CmdWord :=
  BitVec.ofNat 32 (op * 2 ^ 24 + pd.val * 2 ^ 19 + ea.val * 2 ^ 15 + w.val * 2 ^ 11)

/-- The fields of format M3 in place (R81); reserved bits 0. -/
def encM3 (op : Nat) (pd : Fin 32) (pa : Fin 32) (pb : Fin 32) (r : Fin 8) (c : Fin 8) : CmdWord :=
  BitVec.ofNat 32 (op * 2 ^ 24 + pd.val * 2 ^ 19 + pa.val * 2 ^ 14 + pb.val * 2 ^ 9 + r.val * 2 ^ 6 + c.val * 2 ^ 3)

/-- The fields of format M2 in place (R82, MTRN: imm4 reserved); reserved bits 0. -/
def encM2 (op : Nat) (pd : Fin 32) (pa : Fin 32) (r : Fin 8) (c : Fin 8) : CmdWord :=
  BitVec.ofNat 32 (op * 2 ^ 24 + pd.val * 2 ^ 19 + pa.val * 2 ^ 14 + r.val * 2 ^ 11 + c.val * 2 ^ 8)

/-- The fields of format M2 in place (R82, with imm4); reserved bits 0. -/
def encM2Imm (op : Nat) (pd : Fin 32) (pa : Fin 32) (r : Fin 8) (c : Fin 8) (imm : Fin 16) : CmdWord :=
  BitVec.ofNat 32 (op * 2 ^ 24 + pd.val * 2 ^ 19 + pa.val * 2 ^ 14 + r.val * 2 ^ 11 + c.val * 2 ^ 8 + imm.val * 2 ^ 4)

/-- The fields of format MM in place (R83, w, r and c reserved); reserved bits 0. -/
def encMM (op : Nat) (pd : Fin 32) (ea : Fin 16) : CmdWord :=
  BitVec.ofNat 32 (op * 2 ^ 24 + pd.val * 2 ^ 19 + ea.val * 2 ^ 15)

/-- The fields of format MM in place (R83, with w, r, c); reserved bits 0. -/
def encMMW (op : Nat) (pd : Fin 32) (ea : Fin 16) (w : Fin 16) (r : Fin 8) (c : Fin 8) : CmdWord :=
  BitVec.ofNat 32 (op * 2 ^ 24 + pd.val * 2 ^ 19 + ea.val * 2 ^ 15 + w.val * 2 ^ 11 + r.val * 2 ^ 8 + c.val * 2 ^ 5)

/-- The fields of format KK in place (R84); reserved bits 0. -/
def encKK (op : Nat) (ed : Fin 16) (es : Fin 16) : CmdWord :=
  BitVec.ofNat 32 (op * 2 ^ 24 + ed.val * 2 ^ 20 + es.val * 2 ^ 16)

/-- The fields of format CQ in place (R85); reserved bits 0. -/
def encCQ (op : Nat) (ed : Fin 16) (ea : Fin 16) (eb : Fin 16) (el : Fin 16) : CmdWord :=
  BitVec.ofNat 32 (op * 2 ^ 24 + ed.val * 2 ^ 20 + ea.val * 2 ^ 16 + eb.val * 2 ^ 12 + el.val * 2 ^ 8)

/-- The fields of format CS in place (R86); reserved bits 0. -/
def encCS (op : Nat) (ed : Fin 16) (ef : Fin 16) (ex : Fin 16) (ey : Fin 16) (el : Fin 16) : CmdWord :=
  BitVec.ofNat 32 (op * 2 ^ 24 + ed.val * 2 ^ 20 + ef.val * 2 ^ 16 + ex.val * 2 ^ 12 + ey.val * 2 ^ 8 + el.val * 2 ^ 4)

/-- The command word of a command: the opcode of R88 and the fields in their places (R72 to R86). -/
def encode : Instr → CmdWord
  | .setprof L eq ep et mu u => encSP 0x01 L eq ep et mu u
  | .rdcsr ed csr => encCR 0x02 ed csr
  | .eli ed imm16 => encSI 0x10 ed imm16
  | .eadd ed ea eb => encS3 0x11 ed ea eb
  | .esub ed ea eb => encS3 0x12 ed ea eb
  | .eneg ed ea => encS2 0x13 ed ea
  | .emul ed ea eb => encS3 0x14 ed ea eb
  | .eshl ed ea imm => encS2Imm 0x15 ed ea imm
  | .eshr ed ea imm => encS2Imm 0x16 ed ea imm
  | .ered ed ea imm => encS2Imm 0x17 ed ea imm
  | .eld ed ea => encS2 0x18 ed ea
  | .est ed ea => encS2 0x19 ed ea
  | .eldb ed ea => encS2 0x1A ed ea
  | .estb ed ea => encS2 0x1B ed ea
  | .pzero pd => encP1 0x20 pd
  | .pmov pd pa => encP2 0x21 pd pa
  | .padd pd pa pb => encP3 0x22 pd pa pb
  | .pacc pd pa => encP2 0x23 pd pa
  | .psub pd pa pb => encP3 0x24 pd pa pb
  | .pmul pd pa pb => encP3 0x25 pd pa pb
  | .pshl pd pa imm => encP2Imm 0x26 pd pa imm
  | .pshr pd pa imm => encP2Imm 0x27 pd pa imm
  | .pmod pd pa imm => encP2Imm 0x28 pd pa imm
  | .pldc pd ea => encPM 0x29 pd ea
  | .pstc pd ea => encPM 0x2A pd ea
  | .pgetc ed pa idx => encPXGet 0x2B ed pa idx
  | .psetc pd idx es => encPXSet 0x2C pd idx es
  | .penc pd ea w => encPMW 0x30 pd ea w
  | .pdec pd ea w => encPMW 0x31 pd ea w
  | .madd pd pa pb r c => encM3 0x40 pd pa pb r c
  | .mshl pd pa r c imm => encM2Imm 0x41 pd pa r c imm
  | .mshr pd pa r c imm => encM2Imm 0x42 pd pa r c imm
  | .mmod pd pa r c imm => encM2Imm 0x43 pd pa r c imm
  | .mtrn pd pa r c => encM2 0x44 pd pa r c
  | .mvmul pd pa pb r c => encM3 0x45 pd pa pb r c
  | .minner pd pa pb r c => encM3 0x46 pd pa pb r c
  | .menc pd ea w r c => encMMW 0x47 pd ea w r c
  | .mdec pd ea w r c => encMMW 0x48 pd ea w r c
  | .genmat pd ea => encMM 0x49 pd ea
  | .gensec pd ea => encMM 0x4A pd ea
  | .pcbd pd ea w => encPMW 0x50 pd ea w
  | .puni pd ea => encPM 0x51 pd ea
  | .pkeKeygen ed es => encKK 0x60 ed es
  | .pkeEnc ed es => encKK 0x61 ed es
  | .pkeDec ed es => encKK 0x62 ed es
  | .kemKeygen ed es => encKK 0x70 ed es
  | .kemEncaps ed es => encKK 0x71 ed es
  | .kemDecaps ed es => encKK 0x72 ed es
  | .cteq ed ea eb el => encCQ 0x80 ed ea eb el
  | .ctsel ed ef ex ey el => encCS 0x81 ed ef ex ey el

/-- The command read from the table's numbering of a row's bits (bit 0 the least significant bit of the one 32-bit word;
R70: the word is a number and has no byte order). `nbits` is 32 for every row. -/
def decodeTableWord (nbits w : Nat) : Option Instr :=
  match decode (BitVec.ofNat 32 (w % 2 ^ nbits)) with
  | .instr i => some i
  | .rejected _ => none

end Sys2Proof
end

