-- ==== Sys2Proof/Machine/State.lean ====
section
/-! DEFINITION. The state of the Saber CORE (spec/10_state.md R20): the five rows of R20's table (scalar registers,
polynomial registers, DMEM, the profile tuple, the fault state), and beside them the host's side of the interface
(spec/60_exceptions.md R330), which is an input of a step and not state of the block (R41): the moves the host has yet to
make and what its last move gave back. PROFID and the four length registers are functions of PARAMS0 and PARAMS1 (R24) and
have no storage of their own. The sponge units and the internal scratch live inside a command only (R40, R306): they are no
fields. There is no program counter, no flag register and no mode (R22, R23, R320). -/

namespace Sys2Proof.Machine

/-- The content of DMEM written since reset: (address, byte) pairs, addresses strictly rising. An unlisted address has no
stored value and reads as `Config.dmemReset`, the open reset content (R42). Log entry 2. -/
abbrev Memory := List Host.Cell

/-- The moves of the host (R330), each made between commands and each one transition. -/
inductive HostMove where
  /-- Reset: all state to the values of R42. -/
  | reset
  /-- Issue one command word. -/
  | issue (w : CmdWord)
  /-- Write a byte string to DMEM at an address. -/
  | writeDmem (a : Nat) (b : List Byte)
  /-- Read `n` bytes of DMEM from an address. -/
  | readDmem (a n : Nat)
  /-- Read the control register of a number 0..9. -/
  | readCsr (n : Fin 10)
  deriving DecidableEq, Repr

/-- What a move gives back to the host (the last column of R330's table). -/
inductive HostReply where
  /-- The bytes a DMEM read delivers. -/
  | bytes (b : List Byte)
  /-- The 16-bit value of a control register. -/
  | csr (v : Word)
  deriving DecidableEq, Repr

/-- The fault codes of R311, in the order of their codes 1 to 7. -/
inductive Cause where
  | illegal
  | profile
  | width
  | shape
  | pregRange
  | memRange
  | flag
  deriving DecidableEq, Repr

/-- A stop of the model by a fault: none exists. Every fault of this machine is a recorded state the host can read (R313: it
sets STATUS and FINFO and changes nothing else), so raising one is a next state; and the block has no behaviour the spec
calls undefined after which no state follows. -/
inductive Fault where
  deriving DecidableEq, Repr

/-- Why a step answers no state. -/
inductive Refusal where
  /-- Raised by an arm of exec whose instruction has no meaning yet (no arm is left so). Safe. -/
  | notModelled (mnemonic : String)
  /-- Raised by every command issued while STATUS.FAULT = 1: "While FAULT = 1 the CORE refuses every command word"; "a model
  should give the faulted state no successor under command issue (or a refusal outcome)" (R314, U10). Safe: the model stops
  where the block changes nothing. Log entry 5. -/
  | faultLatched
  /-- Raised by a host move that R330 gives the host no way to make: a DMEM access with a + n > 65536. Safe. Log entry 6. -/
  | notAHostMove
  deriving DecidableEq, Repr

structure State where
  /-- The scalar registers `e[0]`..`e[15]` (R21). -/
  e : Vector Word 16
  /-- The polynomial registers `P[0]`..`P[31]` (R35). -/
  p : Vector Poly 32
  /-- The data memory (R38, R50). -/
  dmem : Memory
  /-- Control register 0, PARAMS0 (R25). -/
  params0 : Word
  /-- Control register 1, PARAMS1 (R26). -/
  params1 : Word
  /-- Control register 7, STATUS: bit 0 FAULT, bits [7:4] CAUSE (R32). -/
  status : Word
  /-- Control register 8, FINFO_LO (R33). -/
  finfoLo : Word
  /-- Control register 9, FINFO_HI (R33). -/
  finfoHi : Word
  /-- The host's moves still to come, next first: the command stream, an input (R22, R41, R330). Log entry 1. -/
  moves : List HostMove
  /-- What the host's last move gave back (R330). Log entry 1. -/
  reply : Option HostReply
  deriving DecidableEq, Repr

/-- The machine right after reset (R42, R340): every register 0, no profile, no fault, nothing written to DMEM (it holds
`Config.dmemReset`); and no move of the host waiting. -/
def State.reset : State where
  e := Vector.replicate 16 0#16
  p := Vector.replicate 32 (Vector.replicate 256 0#16)
  dmem := []
  params0 := 0#16
  params1 := 0#16
  status := 0#16
  finfoLo := 0#16
  finfoHi := 0#16
  moves := []
  reply := none

/-- The outcome of a command or a host move. -/
abbrev Out := Host.Outcome State Fault Refusal

end Sys2Proof.Machine
end

