-- ==== Sys2Proof/Machine/Ops.lean ====
section
/-! DEFINITION. The named operations every command is made of: byte strings and their byte order (spec/00_scope.md R9,
spec/20_memory.md R51), DMEM (R50, R53), the registers (spec/10_state.md), and the one exception mechanism: raising a fault,
what happens after it and the reset that ends it (spec/60_exceptions.md R312, R313, R314, R340). -/

namespace Sys2Proof.Machine

/-! ## Byte strings (R9) -/

/-- Byte `i` of a byte string. -/
def byteAt (b : Bytes) (i : Nat) : Byte := b.getD i 0#8

/-- The sub-string of bytes `i` to `j-1`, `b[i:j]`. -/
def slice (b : Bytes) (i j : Nat) : Bytes := (b.drop i).take (j - i)

/-- `le(b)`: the integer whose bit `k` is stream bit `k` of the byte string. -/
def le : Bytes → Nat
  | [] => 0
  | x :: b => x.toNat + 256 * le b

/-- The byte string of length `n` whose `le` is `v mod 256^n`. -/
def leBytes : Nat → Nat → Bytes
  | 0, _ => []
  | n + 1, v => BitVec.ofNat 8 v :: leBytes n (v / 256)

/-- The low byte of a 16-bit value, bits [7:0]. -/
def lowByte (v : Word) : Byte := v.extractLsb' 0 8

/-- The high byte of a 16-bit value, bits [15:8]. -/
def highByte (v : Word) : Byte := v.extractLsb' 8 8

/-- The 16-bit value with low byte `lo` and high byte `hi`: `lo + 256·hi` (R51 c: the low byte is at the lower address). -/
def wordOfBytes (lo hi : Byte) : Word := BitVec.ofNat 16 (lo.toNat + 256 * hi.toNat)

/-- The two bytes of a 16-bit value in memory order (R51 c). -/
def bytesOfWord (v : Word) : Bytes := [lowByte v, highByte v]

/-! ## Polynomials (R35) -/

/-- The polynomial with coefficient `j` equal to `f j`. -/
def tabulate (f : Nat → Word) : Poly :=
  ⟨⟨(List.range 256).map f⟩, by rw [List.size_toArray, List.length_map, List.length_range]⟩

/-- Coefficient `j` of a polynomial, `P[i][j]` (j in 0..255; 90_conflicts.md C3). -/
def coeff (q : Poly) (j : Nat) : Word := q.toList.getD j 0#16

/-- The zero polynomial: "zero-filled" (R130). -/
def polyZero : Poly := Vector.replicate 256 0#16

/-! ## The list of written bytes -/

/-- The byte stored at an address, if one has been written. -/
def Memory.find : Memory → Nat → Option Byte
  | [], _ => none
  | (k, v) :: m, a => if a = k then some v else Memory.find m a

/-- Store one byte, keeping the addresses in rising order. -/
def Memory.put : Memory → Nat → Byte → Memory
  | [], a, v => [(a, v)]
  | (k, x) :: m, a, v =>
    if a < k then (a, v) :: (k, x) :: m
    else if a = k then (a, v) :: m
    else (k, x) :: Memory.put m a v

/-- The byte DMEM holds at an address: what was written there, else the open reset content (R42, R50). -/
def Memory.read (m : Memory) (a : Nat) : Byte := (Memory.find m a).getD (Config.dmemReset a)

/-- The bytes `DMEM[a]`..`DMEM[a+n-1]`, byte 0 at the lowest address (R10 MemRead, R50). -/
def Memory.readRange (m : Memory) (a n : Nat) : Bytes := (List.range n).map fun k => Memory.read m (a + k)

/-- Write a byte string at an address (R10 MemWrite, R50). -/
def Memory.writeRange : Memory → Nat → Bytes → Memory
  | m, _, [] => m
  | m, a, v :: b => Memory.writeRange (Memory.put m a v) (a + 1) b

/-- The list's addresses are all at least `lo`, strictly rising and inside DMEM. -/
def Memory.risesFrom : Nat → Memory → Bool
  | _, [] => true
  | lo, (k, _) :: m => decide (lo ≤ k) && decide (k < 65536) && Memory.risesFrom (k + 1) m

/-- The canonical form: addresses strictly rising, all in 0..65535 (R50). -/
def Memory.wf (m : Memory) : Bool := Memory.risesFrom 0 m

/-! ## The registers -/

/-- `e[i]` (R10, R21). -/
def State.getE (s : State) (i : SReg) : Word := s.e[i]

/-- `e[i] <- v` (R10, R21): no register is hardwired. -/
def State.setE (s : State) (i : SReg) (v : Word) : State := { s with e := s.e.set i v i.isLt }

/-- `P[i]` (R10, R35). -/
def State.getP (s : State) (i : Nat) : Poly := s.p.toList.getD i polyZero

/-- `P[i] <- q` (R10, R35): all 256 coefficients. -/
def State.setP (s : State) (i : Nat) (q : Poly) : State := { s with p := s.p.setIfInBounds i q }

/-- The run of `n` consecutive polynomial registers from base `b` (R36). -/
def State.getRun (s : State) (b n : Nat) : List Poly := (List.range n).map fun k => s.getP (b + k)

/-- Write a run of consecutive polynomial registers from base `b` (R36). -/
def State.setRun : State → Nat → List Poly → State
  | s, _, [] => s
  | s, b, q :: qs => State.setRun (s.setP b q) (b + 1) qs

/-- One byte of DMEM. -/
def State.readByte (s : State) (a : Nat) : Byte := Memory.read s.dmem a

/-- `MemRead(addr, n)` (R10). -/
def State.memRead (s : State) (a n : Nat) : Bytes := Memory.readRange s.dmem a n

/-- `MemWrite(addr, n, v)` (R10), `n` the length of the string. -/
def State.memWrite (s : State) (a : Nat) (b : Bytes) : State := { s with dmem := Memory.writeRange s.dmem a b }

/-! ## The profile and the control registers (R24 to R33) -/

/-- The profile selected, read from PARAMS0 and PARAMS1 (R27). -/
def State.profile? (s : State) : Option Profile := Profile.ofParams? s.params0 s.params1

/-- A function of the profile as a control register reads it: 0 when no profile is selected (R27 to R31). -/
def State.profileWord (s : State) (f : Profile → Nat) : Word :=
  match s.profile? with
  | some pr => BitVec.ofNat 16 (f pr)
  | none => 0#16

/-- The control register of a number (R24); none for the reserved numbers 10 to 15. -/
def State.csr? (s : State) : Nat → Option Word
  | 0 => some s.params0
  | 1 => some s.params1
  | 2 => some (s.profileWord Profile.id)
  | 3 => some (s.profileWord Profile.pkLen)
  | 4 => some (s.profileWord Profile.skLen)
  | 5 => some (s.profileWord Profile.ctLen)
  | 6 => some (s.profileWord Profile.pkeSkLen)
  | 7 => some s.status
  | 8 => some s.finfoLo
  | 9 => some s.finfoHi
  | _ => none

/-- STATUS.FAULT, bit 0 (R32). -/
def State.faulted (s : State) : Bool := s.status.getLsbD 0

/-- STATUS.CAUSE, bits [7:4] (R32). -/
def State.causeField (s : State) : Nat := s.status.toNat / 2 ^ 4 % 2 ^ 4

/-! ## Raising a fault (R311, R312, R313, R314) -/

/-- The fault codes of R311. -/
def Cause.code : Cause → Nat
  | .illegal => 1
  | .profile => 2
  | .width => 3
  | .shape => 4
  | .pregRange => 5
  | .memRange => 6
  | .flag => 7

/-- STATUS with FAULT = 1 and CAUSE = c, the other bits 0 (R32, R313). -/
def faultStatus (c : Cause) : Word := BitVec.ofNat 16 (1 + c.code * 2 ^ 4)

/-- `W[15:0]` (R33). -/
def finfoLoOf (w : CmdWord) : Word := w.extractLsb' 0 16

/-- `W[31:16]` (R33). -/
def finfoHiOf (w : CmdWord) : Word := w.extractLsb' 16 16

/-- Fault entry (R313): STATUS and FINFO record the code and the whole word; nothing else changes. -/
def State.recordFault (s : State) (w : CmdWord) (c : Cause) : State :=
  { s with status := faultStatus c, finfoLo := finfoLoOf w, finfoHi := finfoHiOf w }

/-- A command that ends with the state `t`. While FAULT = 1 the CORE refuses every command (R314). -/
@[inline] def retire (s t : State) : Out :=
  if s.faulted then .refused .faultLatched else .next t

/-- TAKING THE FAULT: `raise Fault(c)` in the command with word `w` (R313); refused while FAULT = 1 (R314). -/
def trap (w : CmdWord) (c : Cause) (s : State) : Out := retire s (s.recordFault w c)

/-- The fault of the first condition that fails. A command lists its conditions in the order of their codes, so this is the
fault with the lowest code (R312). -/
def firstFault : List (Bool × Cause) → Option Cause
  | [] => none
  | (ok, c) :: rest => if ok then firstFault rest else some c

/-- Execute command `i`: all conditions are evaluated on the state before the command, then either the fault is taken and
nothing else changes, or the command ends with the state `t` computed from the state before it (R56, R312, R313). The
faulting word is the command's own word: a command has exactly one (R89, R90 b). -/
@[inline] def execute (i : Instr) (s : State) (conditions : List (Bool × Cause)) (t : State) : Out :=
  match firstFault conditions with
  | some c => trap (encode i) c s
  | none => retire s t

/-- Execute a command that needs a profile: `Fault(PROFILE)` when PROFID = 0 (R27), else the profile at the start of the
command. -/
@[inline] def withProfile (i : Instr) (s : State) (k : Profile → Out) : Out :=
  match s.profile? with
  | none => trap (encode i) .profile s
  | some pr => k pr

/-- The only way out of the faulted state: the host's reset (R314, R340). Everything of the block goes to its reset value;
the host's remaining moves are not the block's. -/
def State.afterReset (s : State) : State := { State.reset with moves := s.moves }

end Sys2Proof.Machine
end

