-- ==== Sys2Proof/Machine/Operands.lean ====
section
/-! DEFINITION. The operand forms (spec/20_memory.md R50, R53; spec/30_encoding.md R71, R87; spec/40_ring_element.md section
3): a memory operand is register-indirect, with no offset, scaling or update of the address register; a length operand is a
register's value; a range must not pass address 0xFFFF. The other operand forms are a register (Ops.lean), a register run
(Ops.lean, Fields.lean) and a field used as it stands (R87). -/

namespace Sys2Proof.Machine

/-- The DMEM address a register supplies: its 16-bit value (R50). -/
def State.addr (s : State) (ea : SReg) : Nat := (s.getE ea).toNat

/-- The byte length a register supplies, 0..65535 (R21, R261, R263). -/
def State.len (s : State) (el : SReg) : Nat := (s.getE el).toNat

/-- The n-byte range at address `a` lies inside DMEM: a + n <= 65536, in unbounded integers (R53). -/
def rangeOk (a n : Nat) : Bool := decide (a + n ≤ 65536)

/-- A column of `r` polynomials packed at width `w` has `r·32·w` bytes (R54, R190). -/
def packedLen (r w : Nat) : Nat := r * (32 * w)

end Sys2Proof.Machine
end

