-- ==== Sys2Proof/Machine/RingElement.lean ====
section
/-! DEFINITION. RingElement commands: the seven operations on a 16-bit carrier word, immediate, loads and stores
(spec/40_ring_element.md R100 to R114). -/

namespace Sys2Proof.Machine

/-! ## The seven operations of R100, all modulo 2^16 (R101) -/

/-- The mask 2^k − 1 (R108). -/
def maskBits (k : Nat) : Word := BitVec.ofNat 16 (2 ^ k - 1)

/-- add (R102). -/
def ringAdd (a b : Word) : Word := a + b

/-- sub (R103). -/
def ringSub (a b : Word) : Word := a - b

/-- neg (R104). -/
def ringNeg (a : Word) : Word := 0#16 - a

/-- mul: the low 16 bits of the product (R105). -/
def ringMul (a b : Word) : Word := a * b

/-- shift-left: zeros enter at bit 0, bits past bit 15 are lost (R106). -/
def ringShl (a : Word) (sh : Nat) : Word := a <<< sh

/-- shift-right, logical: zeros enter at bit 15 (R107). -/
def ringShr (a : Word) (sh : Nat) : Word := a >>> sh

/-- modulus-reduction-to-2^k: `value & (2^k − 1)` (R108). -/
def ringRed (a : Word) (k : Nat) : Word := a &&& maskBits k

/-! ## Arithmetic commands -/

/-- EADD (R102). -/
def execEadd (ed ea eb : SReg) (s : State) : Out :=
  execute (.eadd ed ea eb) s [] (s.setE ed (ringAdd (s.getE ea) (s.getE eb)))

/-- ESUB (R103). -/
def execEsub (ed ea eb : SReg) (s : State) : Out :=
  execute (.esub ed ea eb) s [] (s.setE ed (ringSub (s.getE ea) (s.getE eb)))

/-- ENEG (R104). -/
def execEneg (ed ea : SReg) (s : State) : Out :=
  execute (.eneg ed ea) s [] (s.setE ed (ringNeg (s.getE ea)))

/-- EMUL (R105). -/
def execEmul (ed ea eb : SReg) (s : State) : Out :=
  execute (.emul ed ea eb) s [] (s.setE ed (ringMul (s.getE ea) (s.getE eb)))

/-- ESHL (R106). -/
def execEshl (ed ea : SReg) (sh : Fin 16) (s : State) : Out :=
  execute (.eshl ed ea sh) s [] (s.setE ed (ringShl (s.getE ea) sh))

/-- ESHR (R107). -/
def execEshr (ed ea : SReg) (sh : Fin 16) (s : State) : Out :=
  execute (.eshr ed ea sh) s [] (s.setE ed (ringShr (s.getE ea) sh))

/-- ERED (R108). -/
def execEred (ed ea : SReg) (k : Fin 16) (s : State) : Out :=
  execute (.ered ed ea k) s [] (s.setE ed (ringRed (s.getE ea) k))

/-! ## Immediate, loads and stores -/

/-- ELI (R110): the immediate as it stands. -/
def execEli (ed : SReg) (imm16 : Word) (s : State) : Out :=
  execute (.eli ed imm16) s [] (s.setE ed imm16)

/-- ELD (R111): 16 bits, little-endian. -/
def execEld (ed ea : SReg) (s : State) : Out :=
  execute (.eld ed ea) s [(rangeOk (s.addr ea) 2, .memRange)]
    (s.setE ed (wordOfBytes (byteAt (s.memRead (s.addr ea) 2) 0) (byteAt (s.memRead (s.addr ea) 2) 1)))

/-- EST (R112): 16 bits, little-endian. -/
def execEst (es ea : SReg) (s : State) : Out :=
  execute (.est es ea) s [(rangeOk (s.addr ea) 2, .memRange)]
    (s.memWrite (s.addr ea) (bytesOfWord (s.getE es)))

/-- ELDB (R113): one byte, zero-extended; every address is in range. -/
def execEldb (ed ea : SReg) (s : State) : Out :=
  execute (.eldb ed ea) s []
    (s.setE ed ((byteAt (s.memRead (s.addr ea) 1) 0).setWidth 16))

/-- ESTB (R114): the low byte; every address is in range. -/
def execEstb (es ea : SReg) (s : State) : Out :=
  execute (.estb es ea) s [] (s.memWrite (s.addr ea) [lowByte (s.getE es)])

end Sys2Proof.Machine
end

