-- ==== Sys2Proof/Machine/Polynomial.lean ====
section
/-! DEFINITION. Polynomial commands: construction, copy, element-wise arithmetic and raw coefficient access
(spec/41_polynomial.md R130 to R143). Lane j of an element-wise result is the scalar operation of RingElement.lean on lane j
of the sources (R143). -/

namespace Sys2Proof.Machine

/-! ## Element-wise operations -/

/-- add (R133). -/
def polyAdd (a b : Poly) : Poly := tabulate fun j => ringAdd (coeff a j) (coeff b j)

/-- subtract (R135; 91_not_in_source.md N11). -/
def polySub (a b : Poly) : Poly := tabulate fun j => ringSub (coeff a j) (coeff b j)

/-- shift-left (R136). -/
def polyShl (a : Poly) (sh : Nat) : Poly := tabulate fun j => ringShl (coeff a j) sh

/-- shift-right, logical (R137). -/
def polyShr (a : Poly) (sh : Nat) : Poly := tabulate fun j => ringShr (coeff a j) sh

/-- modulus-change (R138). -/
def polyMod (a : Poly) (k : Nat) : Poly := tabulate fun j => ringRed (coeff a j) k

/-- The polynomial every coefficient of which is `v` (R220). -/
def polyConst (v : Word) : Poly := tabulate fun _ => v

/-- Replace one coefficient, keep the other 255 (R142). -/
def polySet (a : Poly) (idx : Nat) (v : Word) : Poly :=
  tabulate fun j => if j = idx then v else coeff a j

/-! ## The raw coefficient array: 256 little-endian 16-bit values (R139, R140) -/

/-- The polynomial a 512-byte coefficient array holds (R139). -/
def polyOfArray (b : Bytes) : Poly :=
  tabulate fun j => wordOfBytes (byteAt b (2 * j)) (byteAt b (2 * j + 1))

/-- The 512-byte coefficient array of a polynomial (R140). -/
def arrayOfPoly (a : Poly) : Bytes := a.toList.flatMap bytesOfWord

/-! ## Commands -/

/-- PZERO (R131). -/
def execPzero (pd : PReg) (s : State) : Out :=
  execute (.pzero pd) s [] (s.setP pd polyZero)

/-- PMOV (R132). -/
def execPmov (pd pa : PReg) (s : State) : Out :=
  execute (.pmov pd pa) s [] (s.setP pd (s.getP pa))

/-- PADD (R133). -/
def execPadd (pd pa pb : PReg) (s : State) : Out :=
  execute (.padd pd pa pb) s [] (s.setP pd (polyAdd (s.getP pa) (s.getP pb)))

/-- PACC (R134). -/
def execPacc (pd pa : PReg) (s : State) : Out :=
  execute (.pacc pd pa) s [] (s.setP pd (polyAdd (s.getP pd) (s.getP pa)))

/-- PSUB (R135). -/
def execPsub (pd pa pb : PReg) (s : State) : Out :=
  execute (.psub pd pa pb) s [] (s.setP pd (polySub (s.getP pa) (s.getP pb)))

/-- PSHL (R136). -/
def execPshl (pd pa : PReg) (sh : Fin 16) (s : State) : Out :=
  execute (.pshl pd pa sh) s [] (s.setP pd (polyShl (s.getP pa) sh))

/-- PSHR (R137). -/
def execPshr (pd pa : PReg) (sh : Fin 16) (s : State) : Out :=
  execute (.pshr pd pa sh) s [] (s.setP pd (polyShr (s.getP pa) sh))

/-- PMOD (R138). -/
def execPmod (pd pa : PReg) (k : Fin 16) (s : State) : Out :=
  execute (.pmod pd pa k) s [] (s.setP pd (polyMod (s.getP pa) k))

/-- PLDC (R139). -/
def execPldc (pd : PReg) (ea : SReg) (s : State) : Out :=
  execute (.pldc pd ea) s [(rangeOk (s.addr ea) 512, .memRange)]
    (s.setP pd (polyOfArray (s.memRead (s.addr ea) 512)))

/-- PSTC (R140). -/
def execPstc (ps : PReg) (ea : SReg) (s : State) : Out :=
  execute (.pstc ps ea) s [(rangeOk (s.addr ea) 512, .memRange)]
    (s.memWrite (s.addr ea) (arrayOfPoly (s.getP ps)))

/-- PGETC (R141). -/
def execPgetc (ed : SReg) (pa : PReg) (idx : Fin 256) (s : State) : Out :=
  execute (.pgetc ed pa idx) s [] (s.setE ed (coeff (s.getP pa) idx))

/-- PSETC (R142). -/
def execPsetc (pd : PReg) (idx : Fin 256) (es : SReg) (s : State) : Out :=
  execute (.psetc pd idx es) s [] (s.setP pd (polySet (s.getP pd) idx (s.getE es)))

end Sys2Proof.Machine
end

