-- ==== Sys2Proof/Machine/Codec.lean ====
section
/-! DEFINITION. The bit-packing codec (spec/43_bitpack_codec.md R170 to R176): coefficient i occupies bits [i·ε, (i+1)·ε) of
the little-endian bit stream. -/

namespace Sys2Proof.Machine

/-- `Σ (p[i] mod 2^ε) · 2^(i·ε)`: the stream a polynomial packs to, as one integer (R171). -/
def packedStream (q : Poly) (eps : Nat) : Nat :=
  ((List.range 256).map fun i => (coeff q i).toNat % 2 ^ eps * 2 ^ (i * eps)).sum

/-- `Encode(p, ε)`: 32·ε bytes (R171). -/
def encodePoly (q : Poly) (eps : Nat) : Bytes := leBytes (32 * eps) (packedStream q eps)

/-- `Decode(b, ε)`: `p[i] = floor(le(b) / 2^(i·ε)) mod 2^ε`, zero-extended (R172). -/
def decodePoly (b : Bytes) (eps : Nat) : Poly :=
  let v := le b
  tabulate fun i => BitVec.ofNat 16 (v / 2 ^ (i * eps) % 2 ^ eps)

/-- `VecEncode(v, R, ε)`: the packings of the R polynomials one after the other (R190). -/
def vecEncode (v : List Poly) (eps : Nat) : Bytes := v.flatMap fun q => encodePoly q eps

/-- `VecDecode(b, R, ε)`: polynomial i from bytes i·32·ε .. (i+1)·32·ε − 1 (R191). -/
def vecDecode (b : Bytes) (r eps : Nat) : List Poly :=
  (List.range r).map fun i => decodePoly (slice b (i * (32 * eps)) ((i + 1) * (32 * eps))) eps

/-- PENC (R173). -/
def execPenc (ps : PReg) (ea : SReg) (w : Fin 16) (s : State) : Out :=
  execute (.penc ps ea w) s
    [(codecWidthOk w, .width), (rangeOk (s.addr ea) (32 * w), .memRange)]
    (s.memWrite (s.addr ea) (encodePoly (s.getP ps) w))

/-- PDEC (R174). -/
def execPdec (pd : PReg) (ea : SReg) (w : Fin 16) (s : State) : Out :=
  execute (.pdec pd ea w) s
    [(codecWidthOk w, .width), (rangeOk (s.addr ea) (32 * w), .memRange)]
    (s.setP pd (decodePoly (s.memRead (s.addr ea) (32 * w)) w))

end Sys2Proof.Machine
end

