-- ==== Sys2Proof/Machine/Flags.lean ====
section
/-! DEFINITION. The machine has no flags, condition codes or predicate registers (spec/10_state.md R23): no arithmetic
command records carry, overflow, zero or sign. "The only comparison result in the machine is the mask CTEQ writes to a scalar
register, and the only command that consumes it is CTSEL": the mask and the two functions of spec/48_constant_time.md. -/

namespace Sys2Proof.Machine

/-- The mask of equal strings (R260). -/
def maskTrue : Word := 0xFFFF#16

/-- The mask of different strings (R260). -/
def maskFalse : Word := 0x0000#16

/-- The flags `CtSel` is defined for: all-ones and all-zeros, and no other (R262, U1). -/
inductive SelectFlag where
  | allOnes
  | allZeros
  deriving DecidableEq, Repr

/-- The 16-bit mask of a flag (R260, R262). -/
def SelectFlag.word : SelectFlag → Word
  | .allOnes => maskTrue
  | .allZeros => maskFalse

/-- The flag a scalar register holds; none for every value but 0xFFFF and 0x0000 (R263). -/
def SelectFlag.ofWord? (f : Word) : Option SelectFlag :=
  if f = maskTrue then some .allOnes else if f = maskFalse then some .allZeros else none

/-- The result of comparing two strings of one length, as the flag it is (R260). -/
def eqFlag (a b : Bytes) : SelectFlag := if a = b then .allOnes else .allZeros

/-- `CtEq(a, b)` for two strings of one length: the mask (R260). -/
def ctEq (a b : Bytes) : Word := (eqFlag a b).word

/-- A flag CTSEL accepts (R263). -/
def flagOk (f : Word) : Bool := (SelectFlag.ofWord? f).isSome

/-- `CtSel(flag, x, y)` for two strings of one length: per byte, with f = flag[7:0], (f AND x) OR ((NOT f) AND y). It has no
value for any other 16-bit number, since such a number is no `SelectFlag` (R262). -/
def ctSel (flag : SelectFlag) (x y : Bytes) : Bytes :=
  List.zipWith (fun a b => (lowByte flag.word &&& a) ||| (~~~lowByte flag.word &&& b)) x y

end Sys2Proof.Machine
end

