-- ==== Sys2Proof/Machine/ConstantTime.lean ====
section
/-! DEFINITION. Constant-time commands (spec/48_constant_time.md R260 to R264). The model has no time (R350): the property
of R264 has only its value-level shadow here, that both operands are read whole whatever their content. -/

namespace Sys2Proof.Machine

/-- CTEQ (R261). -/
def execCteq (ed ea eb el : SReg) (s : State) : Out :=
  execute (.cteq ed ea eb el) s
    [(rangeOk (s.addr ea) (s.len el) && rangeOk (s.addr eb) (s.len el), .memRange)]
    (s.setE ed (ctEq (s.memRead (s.addr ea) (s.len el)) (s.memRead (s.addr eb) (s.len el))))

/-- CTSEL (R263): MEM_RANGE is checked before FLAG. A flag the source leaves undefined selects nothing: the command faults, and
nothing is written (U1). -/
def execCtsel (ed ef ex ey el : SReg) (s : State) : Out :=
  execute (.ctsel ed ef ex ey el) s
    [(rangeOk (s.addr ed) (s.len el) && rangeOk (s.addr ex) (s.len el) && rangeOk (s.addr ey) (s.len el), .memRange),
      (flagOk (s.getE ef), .flag)]
    (match SelectFlag.ofWord? (s.getE ef) with
      | some f =>
        s.memWrite (s.addr ed) (ctSel f (s.memRead (s.addr ex) (s.len el)) (s.memRead (s.addr ey) (s.len el)))
      | none => s)

end Sys2Proof.Machine
end

