-- ==== Sys2Proof/Machine/Karatsuba.lean ====
section
/-! DEFINITION. Polynomial multiplication (spec/42_karatsuba.md). `polyMul` is the normative negacyclic sum of R160, which PMUL
computes; `kara` and `karaMul` are the source's procedure, R161 to R164, which R165 says gives the same value. -/

namespace Sys2Proof.Machine

/-- `Σ_{i+j = k} a[i]·b[j]`, 0 <= i, j <= 255: the part of the product that stays at X^k (R160). -/
def convLow (a b : Poly) (k : Nat) : Word :=
  ((List.range 256).map fun i => if i ≤ k then ringMul (coeff a i) (coeff b (k - i)) else 0#16).sum

/-- `Σ_{i+j = k+256} a[i]·b[j]`, 0 <= i, j <= 255: the part that wraps, since X^256 = −1 (R160). -/
def convHigh (a b : Poly) (k : Nat) : Word :=
  ((List.range 256).map fun i => if k < i then ringMul (coeff a i) (coeff b (k + 256 - i)) else 0#16).sum

/-- `PolyMul(a, b)`: the product in Z[X]/(X^256 + 1), coefficients modulo 2^16 (R160). -/
def polyMul (a b : Poly) : Poly := tabulate fun k => ringSub (convLow a b k) (convHigh a b k)

/-! ## The Karatsuba procedure -/

/-- Entry-wise sum of two arrays of one length. -/
def arrAdd (a b : List Word) : List Word := List.zipWith ringAdd a b

/-- Entry-wise difference of two arrays of one length. -/
def arrSub (a b : List Word) : List Word := List.zipWith ringSub a b

/-- `n` zeros. -/
def arrZero (n : Nat) : List Word := List.replicate n 0#16

/-- `Kara(a, b, 2^d)`: the 2·2^d values of the product of two arrays of length 2^d (R161); the base case returns
`[a[0]·b[0], 0]` (R162, 90_conflicts.md C4); in the recursive case z0, z1, z2 are added into 2n zeros at offsets 0, h, n with
h = n/2 (R163). The recursion is on d = log2(n), the depth of R166. -/
def kara : Nat → List Word → List Word → List Word
  | 0, a, b => [ringMul (a.getD 0 0#16) (b.getD 0 0#16), 0#16]
  | d + 1, a, b =>
    let h := 2 ^ d
    let al := a.take h
    let ah := a.drop h
    let bl := b.take h
    let bh := b.drop h
    let z0 := kara d al bl
    let z2 := kara d ah bh
    let zm := kara d (arrAdd al ah) (arrAdd bl bh)
    let z1 := arrSub (arrSub zm z0) z2
    arrAdd (arrAdd (z0 ++ arrZero (2 * h)) (arrZero h ++ z1 ++ arrZero h)) (arrZero (2 * h) ++ z2)

/-- The fold of R164 applied once at the top level: `r[k] − r[k+256]`. -/
def karaMul (a b : Poly) : Poly :=
  let r := kara 8 a.toList b.toList
  tabulate fun k => ringSub (r.getD k 0#16) (r.getD (k + 256) 0#16)

/-- PMUL (R160). -/
def execPmul (pd pa pb : PReg) (s : State) : Out :=
  execute (.pmul pd pa pb) s [] (s.setP pd (polyMul (s.getP pa) (s.getP pb)))

end Sys2Proof.Machine
end

