-- ==== Sys2Proof/Machine/Sampling.lean ====
section
/-! DEFINITION. Sampling (spec/45_sampling.md R210 to R215): the two samplers are pure functions of a block of bytes. -/

namespace Sys2Proof.Machine

/-- `HW(x)`: the number of 1 bits (R10), of a value below 2^16. -/
def hw (x : Nat) : Nat := ((List.range 16).map fun k => x / 2 ^ k % 2).sum

/-- The coefficient of one μ-bit field: HW of the low μ/2 bits minus HW of the high μ/2 bits, modulo 2^16 (R211, D22). -/
def centered (mu f : Nat) : Word :=
  ringSub (BitVec.ofNat 16 (hw (f % 2 ^ (mu / 2)))) (BitVec.ofNat 16 (hw (f / 2 ^ (mu / 2))))

/-- `Cbd(b, μ)`: field i is stream bits [i·μ, (i+1)·μ) (R211). -/
def cbd (b : Bytes) (mu : Nat) : Poly :=
  let v := le b
  tabulate fun i => centered mu (v / 2 ^ (i * mu) % 2 ^ mu)

/-- Stream bit `k` of a byte string: bit k mod 8 of byte k div 8 (R9). -/
def streamBit (b : Bytes) (k : Nat) : Nat := (byteAt b (k / 8)).toNat / 2 ^ (k % 8) % 2

/-- `Uni(b)`: coefficient i is stream bit 2i minus stream bit 2i+1 (R213, D21). -/
def uni (b : Bytes) : Poly :=
  tabulate fun i => ringSub (BitVec.ofNat 16 (streamBit b (2 * i))) (BitVec.ofNat 16 (streamBit b (2 * i + 1)))

/-- PCBD (R212). -/
def execPcbd (pd : PReg) (ea : SReg) (mu : Fin 16) (s : State) : Out :=
  execute (.pcbd pd ea mu) s
    [(cbdWidthOk mu, .width), (rangeOk (s.addr ea) (32 * mu), .memRange)]
    (s.setP pd (cbd (s.memRead (s.addr ea) (32 * mu)) mu))

/-- PUNI (R214): it does not look at the profile. -/
def execPuni (pd : PReg) (ea : SReg) (s : State) : Out :=
  execute (.puni pd ea) s [(rangeOk (s.addr ea) 64, .memRange)]
    (s.setP pd (uni (s.memRead (s.addr ea) 64)))

end Sys2Proof.Machine
end

