-- ==== Sys2Proof/Machine/Sponge.lean ====
section
/-! DEFINITION. The three sponge units (spec/60_exceptions.md R300 to R306). A unit has state only while a command uses it
(spec/10_state.md R40 a), so it is a value inside a command and no field of State. What the contract leaves open (R302, R306,
U2, U3) is settled here by choice: absorb after finalize, finalize twice and output before finalize have no answer, `none`
(log entry 3); a unit has no kind and a digest may be asked for again (log entry 14). The CORE performs the complete
transaction of R305 only, and every hash of the commands is one such transaction, so no command reaches either choice. -/

namespace Sys2Proof.Machine

/-- The state of a unit while a command uses it: absorbing what has been absorbed so far, or finalized with a number of output
bytes already squeezed. DESIGN CHOICE, log entry 14: it does not say which of the three units it is. -/
inductive SpongeUnit where
  | absorbing (x : Bytes)
  | finalized (x : Bytes) (squeezed : Nat)
  deriving DecidableEq, Repr

/-- The initial state: nothing absorbed. -/
def spongeInitial : SpongeUnit := .absorbing []

/-- `absorb(bytes)`: "append bytes to the sponge input" (R301). -/
def spongeAbsorb (u : SpongeUnit) (b : Bytes) : Option SpongeUnit :=
  match u with
  | .absorbing x => some (.absorbing (x ++ b))
  | .finalized _ _ => none

/-- `finalize()`: "separate absorb phase from output phase; must not be called twice without reset" (R302). -/
def spongeFinalize (u : SpongeUnit) : Option SpongeUnit :=
  match u with
  | .absorbing x => some (.finalized x 0)
  | .finalized _ _ => none

/-- `digest(out_buf)` of SHA3-256 or SHA3-512, whose function is `h` (R303). DESIGN CHOICE, log entry 14: a second digest gives
the same bytes, and any finalized unit answers; R306 leaves both a digest twice and a digest of SHAKE-128 open. -/
def spongeDigest (h : Bytes → Bytes) (u : SpongeUnit) : Option Bytes :=
  match u with
  | .absorbing _ => none
  | .finalized x _ => some (h x)

/-- `squeeze(out_buf)` of SHAKE-128, `n` bytes: successive calls continue one output stream (R304). DESIGN
CHOICE, log entry 14: any finalized unit answers; U3 leaves a squeeze of SHA3-256 or SHA3-512 open. -/
def spongeSqueeze (u : SpongeUnit) (n : Nat) : Option (Bytes × SpongeUnit) :=
  match u with
  | .absorbing _ => none
  | .finalized x k => some ((List.range n).map fun j => Config.shake128 x (k + j), .finalized x (k + n))

/-- `reset()`: "return to the initial state, ready for the next message" (R300). -/
def spongeReset (_ : SpongeUnit) : SpongeUnit := spongeInitial

/-- The complete digest transaction of R305: absorb, finalize, digest, reset. It answers the digest and the unit as it is left. -/
def digestTransaction (h : Bytes → Bytes) (x : Bytes) : Option (Bytes × SpongeUnit) :=
  (spongeAbsorb spongeInitial x).bind fun u =>
    (spongeFinalize u).bind fun u =>
      (spongeDigest h u).map fun d => (d, spongeReset u)

/-- The complete squeeze transaction of R305: absorb, finalize, squeeze, reset. -/
def squeezeTransaction (x : Bytes) (n : Nat) : Option (Bytes × SpongeUnit) :=
  (spongeAbsorb spongeInitial x).bind fun u =>
    (spongeFinalize u).bind fun u =>
      (spongeSqueeze u n).map fun o => (o.1, spongeReset o.2)

/-- The output of a transaction; a complete transaction always has one. -/
def outputOf (r : Option (Bytes × SpongeUnit)) : Bytes :=
  match r with
  | some o => o.1
  | none => []

/-- H = SHA3-256: 32 bytes (R11, R240). -/
def hashH (x : Bytes) : Bytes := outputOf (digestTransaction (fun m => (Config.sha3_256 m).toList) x)

/-- G = SHA3-512: 64 bytes (R11, R240). -/
def hashG (x : Bytes) : Bytes := outputOf (digestTransaction (fun m => (Config.sha3_512 m).toList) x)

/-- SHAKE128(x, n): n bytes (R11). -/
def shake128 (x : Bytes) (n : Nat) : Bytes := outputOf (squeezeTransaction x n)

end Sys2Proof.Machine
end

