-- ==== Sys2Proof/Machine/PolyMatrix.lean ====
section
/-! DEFINITION. PolyMatrix commands (spec/44_polymatrix.md R180 to R195). A matrix is the list of its polynomials in row-major
order (spec/10_state.md R36): element (i, j) of a matrix of c columns is entry i·c + j. -/

namespace Sys2Proof.Machine

/-! ## Pure functions -/

/-- Entry `k` of a row-major list of polynomials. -/
def elt (A : List Poly) (k : Nat) : Poly := A.getD k polyZero

/-- `Transpose(A, L)`: element (i, j) is element (j, i) of A (R187). Entry k is element (k div L, k mod L). -/
def transpose (A : List Poly) (L : Nat) : List Poly :=
  (List.range (L * L)).map fun k => elt A (k % L * L + k / L)

/-- The coefficient-wise sum of polynomials, modulo 2^16. -/
def polySum : List Poly → Poly
  | [] => polyZero
  | q :: qs => polyAdd q (polySum qs)

/-- `MatVec(A, v, L)[i] = Σ_j PolyMul(A[i][j], v[j])` (R188). -/
def matVec (A v : List Poly) (L : Nat) : List Poly :=
  (List.range L).map fun i => polySum ((List.range L).map fun j => polyMul (elt A (i * L + j)) (elt v j))

/-- `Inner(a, b, L) = Σ_i PolyMul(a[i], b[i])` (R189). -/
def inner (a b : List Poly) (L : Nat) : Poly :=
  polySum ((List.range L).map fun i => polyMul (elt a i) (elt b i))

/-- `GenMatrix(seed, L, εq)`: block k of the SHAKE-128 output decodes to element (k div L, k mod L) (R192, D23). -/
def genMatrix (seed : Bytes) (L epsQ : Nat) : List Poly :=
  let out := shake128 seed (L * L * (32 * epsQ))
  (List.range (L * L)).map fun k => decodePoly (slice out (k * (32 * epsQ)) ((k + 1) * (32 * epsQ))) epsQ

/-- `GenSecret(seed, L, μ, uniform)`: block i of the SHAKE-128 output is sampled to row i (R194). -/
def genSecret (seed : Bytes) (L mu : Nat) (uniform : Bool) : List Poly :=
  let out := shake128 seed (L * (32 * mu))
  (List.range L).map fun i =>
    let block := slice out (i * (32 * mu)) ((i + 1) * (32 * mu))
    if uniform then uni block else cbd block mu

/-! ## Element-wise commands -/

/-- MADD (R183). -/
def execMadd (pd pa pb : PReg) (r c : Fin 8) (s : State) : Out :=
  execute (.madd pd pa pb r c) s
    [(shapeOk r c, .shape), (runFits pd (r * c) && runFits pa (r * c) && runFits pb (r * c), .pregRange)]
    (s.setRun pd (List.zipWith polyAdd (s.getRun pa (r * c)) (s.getRun pb (r * c))))

/-- MSHL (R184). -/
def execMshl (pd pa : PReg) (r c : Fin 8) (sh : Fin 16) (s : State) : Out :=
  execute (.mshl pd pa r c sh) s
    [(shapeOk r c, .shape), (runFits pd (r * c) && runFits pa (r * c), .pregRange)]
    (s.setRun pd ((s.getRun pa (r * c)).map fun q => polyShl q sh))

/-- MSHR (R185). -/
def execMshr (pd pa : PReg) (r c : Fin 8) (sh : Fin 16) (s : State) : Out :=
  execute (.mshr pd pa r c sh) s
    [(shapeOk r c, .shape), (runFits pd (r * c) && runFits pa (r * c), .pregRange)]
    (s.setRun pd ((s.getRun pa (r * c)).map fun q => polyShr q sh))

/-- MMOD (R186). -/
def execMmod (pd pa : PReg) (r c : Fin 8) (k : Fin 16) (s : State) : Out :=
  execute (.mmod pd pa r c k) s
    [(shapeOk r c, .shape), (runFits pd (r * c) && runFits pa (r * c), .pregRange)]
    (s.setRun pd ((s.getRun pa (r * c)).map fun q => polyMod q k))

/-! ## Transpose and products -/

/-- MTRN (R187): square only. -/
def execMtrn (pd pa : PReg) (r c : Fin 8) (s : State) : Out :=
  execute (.mtrn pd pa r c) s
    [(squareOk r c, .shape), (runFits pd (r * r) && runFits pa (r * r), .pregRange)]
    (s.setRun pd (transpose (s.getRun pa (r * r)) r))

/-- MVMUL (R188): Pa the square matrix, Pb the column vector. -/
def execMvmul (pd pa pb : PReg) (r c : Fin 8) (s : State) : Out :=
  execute (.mvmul pd pa pb r c) s
    [(squareOk r c, .shape), (runFits pa (r * r) && runFits pb r && runFits pd r, .pregRange)]
    (s.setRun pd (matVec (s.getRun pa (r * r)) (s.getRun pb r) r))

/-- MINNER (R189): the result is one polynomial, which always fits. -/
def execMinner (pd pa pb : PReg) (r c : Fin 8) (s : State) : Out :=
  execute (.minner pd pa pb r c) s
    [(columnOk r c, .shape), (runFits pa r && runFits pb r, .pregRange)]
    (s.setP pd (inner (s.getRun pa r) (s.getRun pb r) r))

/-! ## Vector serialization -/

/-- MENC (R190). -/
def execMenc (ps : PReg) (ea : SReg) (w : Fin 16) (r c : Fin 8) (s : State) : Out :=
  execute (.menc ps ea w r c) s
    [(codecWidthOk w, .width), (columnOk r c, .shape), (runFits ps r, .pregRange),
      (rangeOk (s.addr ea) (packedLen r w), .memRange)]
    (s.memWrite (s.addr ea) (vecEncode (s.getRun ps r) w))

/-- MDEC (R191). -/
def execMdec (pd : PReg) (ea : SReg) (w : Fin 16) (r c : Fin 8) (s : State) : Out :=
  execute (.mdec pd ea w r c) s
    [(codecWidthOk w, .width), (columnOk r c, .shape), (runFits pd r, .pregRange),
      (rangeOk (s.addr ea) (packedLen r w), .memRange)]
    (s.setRun pd (vecDecode (s.memRead (s.addr ea) (packedLen r w)) r w))

/-! ## gen_matrix and gen_secret -/

/-- GENMAT (R193): the shape is L x L of the profile; the seed is used as it stands. -/
def execGenmat (pd : PReg) (ea : SReg) (s : State) : Out :=
  withProfile (.genmat pd ea) s fun pr =>
    execute (.genmat pd ea) s
      [(runFits pd (pr.L * pr.L), .pregRange), (rangeOk (s.addr ea) 32, .memRange)]
      (s.setRun pd (genMatrix (s.memRead (s.addr ea) 32) pr.L pr.epsQ))

/-- GENSEC (R195): the shape is L x 1 of the profile. -/
def execGensec (pd : PReg) (ea : SReg) (s : State) : Out :=
  withProfile (.gensec pd ea) s fun pr =>
    execute (.gensec pd ea) s
      [(runFits pd pr.L, .pregRange), (rangeOk (s.addr ea) 32, .memRange)]
      (s.setRun pd (genSecret (s.memRead (s.addr ea) 32) pr.L pr.mu pr.uniform))

end Sys2Proof.Machine
end

