-- ==== Sys2Proof/Machine/Pke.lean ====
section
/-! DEFINITION. LWR public-key encryption (spec/46_pke.md R220 to R233). The three pure functions follow the numbered steps of
R223, R227 and R230; the three commands move one source buffer to one destination buffer (R221) and touch no other state. -/

namespace Sys2Proof.Machine

/-! ## Constants (R220) -/

/-- The coefficient of h₁: 2^(εq−εp−1). -/
def h1Value (pr : Profile) : Nat := 2 ^ (pr.epsQ - pr.epsP - 1)

/-- The coefficient of h₂: 2^(εp−2) − 2^(εp−εt−1) + 2^(εq−εp−1). -/
def h2Value (pr : Profile) : Nat :=
  2 ^ (pr.epsP - 2) - 2 ^ (pr.epsP - pr.epsT - 1) + 2 ^ (pr.epsQ - pr.epsP - 1)

/-- h₁, a polynomial. -/
def h1 (pr : Profile) : Poly := polyConst (BitVec.ofNat 16 (h1Value pr))

/-- h₂, a polynomial. -/
def h2 (pr : Profile) : Poly := polyConst (BitVec.ofNat 16 (h2Value pr))

/-- `(x >> (εq − εp)) mod 2^εp` after `x = (y + h1) mod 2^εq`: the rounding of step 4 of R223 and of R227. -/
def roundToP (pr : Profile) (y : Poly) : Poly :=
  polyMod (polyShr (polyMod (polyAdd y (h1 pr)) pr.epsQ) (pr.epsQ - pr.epsP)) pr.epsP

/-! ## Key generation -/

/-- `PkeKeygen(prm, seedA, seedS)` = (pk, sk_pke) (R223). -/
def pkeKeygen (pr : Profile) (seedA seedS : Bytes) : Bytes × Bytes :=
  let seedA' := shake128 seedA 32
  let A := genMatrix seedA' pr.L pr.epsQ
  let s := genSecret seedS pr.L pr.mu pr.uniform
  let bp := (matVec (transpose A pr.L) s pr.L).map (roundToP pr)
  (vecEncode bp pr.epsP ++ seedA', vecEncode s pr.epsQ)

/-! ## Encryption -/

/-- `PkeEncrypt(prm, msg, seedS, pk)` (R227). -/
def pkeEncrypt (pr : Profile) (msg seedS pk : Bytes) : Bytes :=
  let bBytes := slice pk 0 (pr.L * 320)
  let seedA := slice pk (pr.L * 320) (pr.L * 320 + 32)
  let A := genMatrix seedA pr.L pr.epsQ
  let s' := genSecret seedS pr.L pr.mu pr.uniform
  let bp' := (matVec A s' pr.L).map (roundToP pr)
  let b := vecDecode bBytes pr.L pr.epsP
  let v' := polyMod (inner b (s'.map fun q => polyMod q pr.epsP) pr.L) pr.epsP
  let m := decodePoly msg 1
  let mp := polyMod (polyShl m (pr.epsP - 1)) pr.epsP
  let cm := polyMod (polyShr (polyAdd (polySub v' mp) (h1 pr)) (pr.epsP - pr.epsT)) pr.epsT
  vecEncode bp' pr.epsP ++ encodePoly cm pr.epsT

/-! ## Decryption -/

/-- `PkeDecrypt(prm, ct, sk_pke)` (R230). -/
def pkeDecrypt (pr : Profile) (ct sk : Bytes) : Bytes :=
  let ctBytes := slice ct 0 (pr.L * 320)
  let cmBytes := slice ct (pr.L * 320) (pr.L * 320 + 32 * pr.epsT)
  let s := vecDecode sk pr.L pr.epsQ
  let cm := polyShl (decodePoly cmBytes pr.epsT) (pr.epsP - pr.epsT)
  let b' := vecDecode ctBytes pr.L pr.epsP
  let v := inner b' (s.map fun q => polyMod q pr.epsP) pr.L
  encodePoly
    (polyMod (polyShr (polyAdd (polySub v (polyMod cm pr.epsP)) (h2 pr)) (pr.epsP - 1)) 1) 1

/-! ## The commands -/

/-- What the six buffer commands of formats KK share (R221, R241): a profile is needed, the source range of `nin` bytes at
`e[es]` and the destination range of `nout` bytes at `e[ed]` are both checked before anything is written, the whole source is
read, and `f` of it is written. -/
def bufferCommand (i : Instr) (ed es : SReg) (nin nout : Profile → Nat) (f : Profile → Bytes → Bytes) (s : State) : Out :=
  withProfile i s fun pr =>
    execute i s [(rangeOk (s.addr es) (nin pr) && rangeOk (s.addr ed) (nout pr), .memRange)]
      (s.memWrite (s.addr ed) (f pr (s.memRead (s.addr es) (nin pr))))

/-- The bytes PKE.KEYGEN writes for the bytes it reads: pk ∥ sk_pke (R221, R225). -/
def pkeKeygenBytes (pr : Profile) (b : Bytes) : Bytes :=
  let k := pkeKeygen pr (slice b 0 32) (slice b 32 64)
  k.1 ++ k.2

/-- The bytes PKE.ENC writes for the bytes it reads (R221, R228). -/
def pkeEncBytes (pr : Profile) (b : Bytes) : Bytes :=
  pkeEncrypt pr (slice b 0 32) (slice b 32 64) (slice b 64 (64 + pr.pkLen))

/-- The bytes PKE.DEC writes for the bytes it reads (R221, R231). -/
def pkeDecBytes (pr : Profile) (b : Bytes) : Bytes :=
  pkeDecrypt pr (slice b 0 pr.ctLen) (slice b pr.ctLen (pr.ctLen + pr.pkeSkLen))

/-- PKE.KEYGEN (R225). -/
def execPkeKeygen (ed es : SReg) (s : State) : Out :=
  bufferCommand (.pkeKeygen ed es) ed es (fun _ => 64) (fun pr => pr.pkLen + pr.pkeSkLen) pkeKeygenBytes s

/-- PKE.ENC (R228). -/
def execPkeEnc (ed es : SReg) (s : State) : Out :=
  bufferCommand (.pkeEnc ed es) ed es (fun pr => 64 + pr.pkLen) (fun pr => pr.ctLen) pkeEncBytes s

/-- PKE.DEC (R231). -/
def execPkeDec (ed es : SReg) (s : State) : Out :=
  bufferCommand (.pkeDec ed es) ed es (fun pr => pr.ctLen + pr.pkeSkLen) (fun _ => 32) pkeDecBytes s

end Sys2Proof.Machine
end

