-- ==== Sys2Proof/Machine/Kem.lean ====
section
/-! DEFINITION. CCA key encapsulation (spec/47_kem.md R240 to R251): the three pure functions follow the numbered steps of
R242, R246 and R248. -/

namespace Sys2Proof.Machine

/-- `KemKeygen(prm, seedA, seedS, z)` = (pk, sk), sk = sk_pke ∥ pk ∥ h_pk ∥ z (R242, R243). -/
def kemKeygen (pr : Profile) (seedA seedS z : Bytes) : Bytes × Bytes :=
  let k := pkeKeygen pr seedA seedS
  let hpk := hashH k.1
  (k.1, k.2 ++ k.1 ++ hpk ++ z)

/-- `KemEncaps(prm, m, pk)` = (ct, ss) (R246). -/
def kemEncaps (pr : Profile) (m pk : Bytes) : Bytes × Bytes :=
  let hm := hashH m
  let hpk := hashH pk
  let kr := hashG (hm ++ hpk)
  let k := slice kr 0 32
  let r := slice kr 32 64
  let ct := pkeEncrypt pr hm r pk
  let r' := hashH ct
  (ct, hashH (k ++ r'))

/-- `KemDecaps(prm, ct, sk)` = ss (R248): implicit rejection by a select on data (R250). -/
def kemDecaps (pr : Profile) (ct sk : Bytes) : Bytes :=
  let S := pr.pkeSkLen
  let K := pr.pkLen
  let skPke := slice sk 0 S
  let pk := slice sk S (S + K)
  let hpk := slice sk (S + K) (S + K + 32)
  let z := slice sk (S + K + 32) (S + K + 64)
  let m := pkeDecrypt pr ct skPke
  let kr := hashG (m ++ hpk)
  let k := slice kr 0 32
  let r := slice kr 32 64
  let ct' := pkeEncrypt pr m r pk
  let eq := eqFlag ct ct'
  let temp := ctSel eq k z
  let r' := hashH ct
  hashH (temp ++ r')

/-- The bytes KEM.KEYGEN writes for the bytes it reads: pk ∥ sk (R241, R245). -/
def kemKeygenBytes (pr : Profile) (b : Bytes) : Bytes :=
  let k := kemKeygen pr (slice b 0 32) (slice b 32 64) (slice b 64 96)
  k.1 ++ k.2

/-- The bytes KEM.ENCAPS writes for the bytes it reads: ct ∥ ss (R241, R247). -/
def kemEncapsBytes (pr : Profile) (b : Bytes) : Bytes :=
  let k := kemEncaps pr (slice b 0 32) (slice b 32 (32 + pr.pkLen))
  k.1 ++ k.2

/-- The bytes KEM.DECAPS writes for the bytes it reads: ss (R241, R249). -/
def kemDecapsBytes (pr : Profile) (b : Bytes) : Bytes :=
  kemDecaps pr (slice b 0 pr.ctLen) (slice b pr.ctLen (pr.ctLen + pr.skLen))

/-- KEM.KEYGEN (R245). -/
def execKemKeygen (ed es : SReg) (s : State) : Out :=
  bufferCommand (.kemKeygen ed es) ed es (fun _ => 96) (fun pr => pr.pkLen + pr.skLen) kemKeygenBytes s

/-- KEM.ENCAPS (R247). -/
def execKemEncaps (ed es : SReg) (s : State) : Out :=
  bufferCommand (.kemEncaps ed es) ed es (fun pr => 32 + pr.pkLen) (fun pr => pr.ctLen + 32) kemEncapsBytes s

/-- KEM.DECAPS (R249): no fault and no status bit reports an inauthentic cipher text (R250). -/
def execKemDecaps (ed es : SReg) (s : State) : Out :=
  bufferCommand (.kemDecaps ed es) ed es (fun pr => pr.ctLen + pr.skLen) (fun _ => 32) kemDecapsBytes s

end Sys2Proof.Machine
end

