-- ==== Sys2Proof/Machine/ParamSets.lean ====
section
/-! DEFINITION. Parameter-set and system commands (spec/49_params_system.md R270 to R274). -/

namespace Sys2Proof.Machine

/-- SETPROF (R271): the tuple is one of the six profiles, or the command faults and PARAMS0, PARAMS1 stay. -/
def execSetprof (L : Fin 8) (eq ep : Fin 16) (et : Fin 8) (mu : Fin 16) (u : Fin 2) (s : State) : Out :=
  execute (.setprof L eq ep et mu u) s [(tupleOk (setprofTuple L eq ep et mu u), .profile)]
    { s with
      params0 := packParams0 (setprofTuple L eq ep et mu u)
      params1 := packParams1 (setprofTuple L eq ep et mu u) }

/-- RDCSR (R272): `Fault(ILLEGAL)` for a reserved number, 10 to 15. -/
def execRdcsr (ed : SReg) (csr : Fin 16) (s : State) : Out :=
  match s.csr? csr with
  | none => trap (encode (.rdcsr ed csr)) .illegal s
  | some v => retire s (s.setE ed v)

end Sys2Proof.Machine
end

