-- ==== Sys2Proof/Machine/Dispatch.lean ====
section
/-! DEFINITION. One arm a command, in the order of the opcode map (spec/30_encoding.md R88). -/

namespace Sys2Proof.Machine

def exec (i : Instr) (s : State) : Host.Outcome State Fault Refusal :=
  match i with
  | .setprof L eq ep et mu u => Sys2Proof.Machine.execSetprof L eq ep et mu u s
  | .rdcsr ed csr => Sys2Proof.Machine.execRdcsr ed csr s
  | .eli ed imm16 => Sys2Proof.Machine.execEli ed imm16 s
  | .eadd ed ea eb => Sys2Proof.Machine.execEadd ed ea eb s
  | .esub ed ea eb => Sys2Proof.Machine.execEsub ed ea eb s
  | .eneg ed ea => Sys2Proof.Machine.execEneg ed ea s
  | .emul ed ea eb => Sys2Proof.Machine.execEmul ed ea eb s
  | .eshl ed ea sh => Sys2Proof.Machine.execEshl ed ea sh s
  | .eshr ed ea sh => Sys2Proof.Machine.execEshr ed ea sh s
  | .ered ed ea k => Sys2Proof.Machine.execEred ed ea k s
  | .eld ed ea => Sys2Proof.Machine.execEld ed ea s
  | .est es ea => Sys2Proof.Machine.execEst es ea s
  | .eldb ed ea => Sys2Proof.Machine.execEldb ed ea s
  | .estb es ea => Sys2Proof.Machine.execEstb es ea s
  | .pzero pd => Sys2Proof.Machine.execPzero pd s
  | .pmov pd pa => Sys2Proof.Machine.execPmov pd pa s
  | .padd pd pa pb => Sys2Proof.Machine.execPadd pd pa pb s
  | .pacc pd pa => Sys2Proof.Machine.execPacc pd pa s
  | .psub pd pa pb => Sys2Proof.Machine.execPsub pd pa pb s
  | .pmul pd pa pb => Sys2Proof.Machine.execPmul pd pa pb s
  | .pshl pd pa sh => Sys2Proof.Machine.execPshl pd pa sh s
  | .pshr pd pa sh => Sys2Proof.Machine.execPshr pd pa sh s
  | .pmod pd pa k => Sys2Proof.Machine.execPmod pd pa k s
  | .pldc pd ea => Sys2Proof.Machine.execPldc pd ea s
  | .pstc ps ea => Sys2Proof.Machine.execPstc ps ea s
  | .pgetc ed pa idx => Sys2Proof.Machine.execPgetc ed pa idx s
  | .psetc pd idx es => Sys2Proof.Machine.execPsetc pd idx es s
  | .penc ps ea w => Sys2Proof.Machine.execPenc ps ea w s
  | .pdec pd ea w => Sys2Proof.Machine.execPdec pd ea w s
  | .madd pd pa pb r c => Sys2Proof.Machine.execMadd pd pa pb r c s
  | .mshl pd pa r c sh => Sys2Proof.Machine.execMshl pd pa r c sh s
  | .mshr pd pa r c sh => Sys2Proof.Machine.execMshr pd pa r c sh s
  | .mmod pd pa r c k => Sys2Proof.Machine.execMmod pd pa r c k s
  | .mtrn pd pa r c => Sys2Proof.Machine.execMtrn pd pa r c s
  | .mvmul pd pa pb r c => Sys2Proof.Machine.execMvmul pd pa pb r c s
  | .minner pd pa pb r c => Sys2Proof.Machine.execMinner pd pa pb r c s
  | .menc ps ea w r c => Sys2Proof.Machine.execMenc ps ea w r c s
  | .mdec pd ea w r c => Sys2Proof.Machine.execMdec pd ea w r c s
  | .genmat pd ea => Sys2Proof.Machine.execGenmat pd ea s
  | .gensec pd ea => Sys2Proof.Machine.execGensec pd ea s
  | .pcbd pd ea mu => Sys2Proof.Machine.execPcbd pd ea mu s
  | .puni pd ea => Sys2Proof.Machine.execPuni pd ea s
  | .pkeKeygen ed es => Sys2Proof.Machine.execPkeKeygen ed es s
  | .pkeEnc ed es => Sys2Proof.Machine.execPkeEnc ed es s
  | .pkeDec ed es => Sys2Proof.Machine.execPkeDec ed es s
  | .kemKeygen ed es => Sys2Proof.Machine.execKemKeygen ed es s
  | .kemEncaps ed es => Sys2Proof.Machine.execKemEncaps ed es s
  | .kemDecaps ed es => Sys2Proof.Machine.execKemDecaps ed es s
  | .cteq ed ea eb el => Sys2Proof.Machine.execCteq ed ea eb el s
  | .ctsel ed ef ex ey el => Sys2Proof.Machine.execCtsel ed ef ex ey el s

end Sys2Proof.Machine
end

