-- ==== Sys2Proof/Machine/HostPort.lean ====
section
/-! DEFINITION. The host's moves (spec/60_exceptions.md R330) and what the block does on each. -/

namespace Sys2Proof.Machine

/-- The host issues a command word (R330): a word that is no command raises `Fault(ILLEGAL)` (R89, R90); a command executes by
its rules; while FAULT = 1 either is refused (R314). -/
def issue (w : CmdWord) (s : State) : Out :=
  match decode w with
  | .instr i => exec i s
  | .rejected _ => trap w .illegal s

/-- The control register of a number 0..9 as the host's port reads it (R330), also while FAULT = 1 (R314). -/
def State.csrPort (s : State) (n : Fin 10) : Word := (s.csr? n).getD 0#16

/-- One move of the host (R330). Reads and writes of DMEM need a + n <= 65536: the host has no other access. -/
def hostMove (m : HostMove) (s : State) : Out :=
  match m with
  | .reset => .next s.afterReset
  | .issue w => issue w s
  | .writeDmem a b => if a + b.length ≤ 65536 then .next (s.memWrite a b) else .refused .notAHostMove
  | .readDmem a n =>
    if a + n ≤ 65536 then .next { s with reply := some (.bytes (s.memRead a n)) } else .refused .notAHostMove
  | .readCsr n => .next { s with reply := some (.csr (s.csrPort n)) }

/-- The state in which the next move is made: the move is taken from the host's list, and the reply of the move before it is
gone. -/
def State.afterTaking (s : State) (rest : List HostMove) : State := { s with moves := rest, reply := none }

/-- One step: the host's next move; with no move to come the block is idle and holds all its state (R329). -/
def stepMove (s : State) : Out :=
  match s.moves with
  | [] => .next s
  | m :: rest => hostMove m (s.afterTaking rest)

/-- The host's next move is to issue the word `w`. -/
def State.offer (s : State) (w : CmdWord) : State := { s with moves := .issue w :: s.moves }

end Sys2Proof.Machine
end

