-- ==== Sys2Proof/Machine/Step.lean ====
section
/-! DEFINITION. One step of the machine is one move of its host (spec/10_state.md R20, R22; spec/60_exceptions.md R330). There
is no instruction fetch: the next command is the word the host issues next. -/

namespace Sys2Proof.Machine

/-- One transition: the host's next move. -/
def step (s : State) : Host.Outcome State Fault Refusal := stepMove s

/-- The state whose very next step runs the command of the word `w` (bits above `nbits` zero): the host issues it next. -/
def State.withFetchWord (s : State) (nbits w : Nat) : State := s.offer (BitVec.ofNat 32 (w % 2 ^ nbits))

end Sys2Proof.Machine
end

