-- ==== Sys2Proof/WellFormed.lean ====
section
/-! DEFINITION. Which commands have legal operand values (spec/30_encoding.md R87). Every term of `Instr` is encodable, since
its field types hold exactly the values the bits can (R71), and every one decodes back. What is left to check is what R87
checks from the word alone: the width, the CBD parameter, the shape, the register runs, the control register number and the
SETPROF tuple. A command that is not well-formed still is that command and raises its fault whenever it executes (R90 e);
the register run of GENMAT and GENSEC depends on the profile (R193, R195) and is no matter of the word alone. -/

namespace Sys2Proof

open Sys2Proof.Machine

/-- The operand values of the command are legal (R87, R180, R181, R271). -/
def WellFormed : Instr → Bool
  | .setprof L eq ep et mu u => tupleOk (setprofTuple L eq ep et mu u)
  | .rdcsr _ csr => csrOk csr
  | .eli _ _ => true
  | .eadd _ _ _ => true
  | .esub _ _ _ => true
  | .eneg _ _ => true
  | .emul _ _ _ => true
  | .eshl _ _ _ => true
  | .eshr _ _ _ => true
  | .ered _ _ _ => true
  | .eld _ _ => true
  | .est _ _ => true
  | .eldb _ _ => true
  | .estb _ _ => true
  | .pzero _ => true
  | .pmov _ _ => true
  | .padd _ _ _ => true
  | .pacc _ _ => true
  | .psub _ _ _ => true
  | .pmul _ _ _ => true
  | .pshl _ _ _ => true
  | .pshr _ _ _ => true
  | .pmod _ _ _ => true
  | .pldc _ _ => true
  | .pstc _ _ => true
  | .pgetc _ _ _ => true
  | .psetc _ _ _ => true
  | .penc _ _ w => codecWidthOk w
  | .pdec _ _ w => codecWidthOk w
  | .madd pd pa pb r c =>
    shapeOk r c && (runFits pd (r * c) && runFits pa (r * c) && runFits pb (r * c))
  | .mshl pd pa r c _ => shapeOk r c && (runFits pd (r * c) && runFits pa (r * c))
  | .mshr pd pa r c _ => shapeOk r c && (runFits pd (r * c) && runFits pa (r * c))
  | .mmod pd pa r c _ => shapeOk r c && (runFits pd (r * c) && runFits pa (r * c))
  | .mtrn pd pa r c => squareOk r c && (runFits pd (r * c) && runFits pa (r * c))
  | .mvmul pd pa pb r c => squareOk r c && (runFits pd r && runFits pa (r * r) && runFits pb r)
  | .minner _ pa pb r c => columnOk r c && (runFits pa r && runFits pb r)
  | .menc ps _ w r c => codecWidthOk w && (columnOk r c && runFits ps r)
  | .mdec pd _ w r c => codecWidthOk w && (columnOk r c && runFits pd r)
  | .genmat _ _ => true
  | .gensec _ _ => true
  | .pcbd _ _ mu => cbdWidthOk mu
  | .puni _ _ => true
  | .pkeKeygen _ _ => true
  | .pkeEnc _ _ => true
  | .pkeDec _ _ => true
  | .kemKeygen _ _ => true
  | .kemEncaps _ _ => true
  | .kemDecaps _ _ => true
  | .cteq _ _ _ _ => true
  | .ctsel _ _ _ _ _ => true

end Sys2Proof
end

