-- ==== Sys2Proof/Safety.lean ====
section
/-! DEFINITION. The terms claims are stated in: what a run that ended well is (spec/60_exceptions.md R330), the invariant of
every step (spec/10_state.md R25, R26, R32, R33; spec/60_exceptions.md R311), and what a command leaves unchanged. Registers and
memory are compared by what reading them gives. -/

namespace Sys2Proof.Safety

open Sys2Proof.Machine

/-! ## Runs -/

/-- No fault is recorded: the only condition under which the CORE takes commands (R314, R320). -/
abbrev Running (s : State) : Prop := s.faulted = false

/-- A run: at most `n` of the host's moves made one after the other (R330), while each is answered by a next state. -/
def run : Nat → State → Out
  | 0, s => .next s
  | n + 1, s =>
    match step s with
    | .next t => run n t
    | .fault f => .fault f
    | .refused r => .refused r

/-- A run "ends when the sequence ends, and it ended well exactly when STATUS.FAULT = 0" (R330). -/
def EndedWell (s : State) : Prop := s.moves = [] ∧ Running s

/-! ## What stays the same -/

/-- Every scalar register reads as before. -/
def SameScalars (s t : State) : Prop := ∀ i : SReg, t.getE i = s.getE i

/-- Every scalar register but `d` reads as before. -/
def SameScalarsBut (s t : State) (d : SReg) : Prop := ∀ i : SReg, i ≠ d → t.getE i = s.getE i

/-- Every polynomial register reads as before. -/
def SamePolys (s t : State) : Prop := ∀ i : PReg, t.getP i = s.getP i

/-- Every polynomial register outside the run `P[b]`..`P[b+n-1]` reads as before. -/
def SamePolysBut (s t : State) (b n : Nat) : Prop :=
  ∀ i : PReg, i.val < b ∨ b + n ≤ i.val → t.getP i = s.getP i

/-- Every byte of DMEM reads as before. -/
def SameDmem (s t : State) : Prop := ∀ a : Nat, t.readByte a = s.readByte a

/-- Every byte of DMEM outside the `n` bytes at `a` reads as before. -/
def SameDmemBut (s t : State) (a n : Nat) : Prop :=
  ∀ x : Nat, x < a ∨ a + n ≤ x → t.readByte x = s.readByte x

/-- PARAMS0 and PARAMS1 hold what they held; so PROFID and the length registers, functions of them, read as before. -/
def SameParams (s t : State) : Prop := t.params0 = s.params0 ∧ t.params1 = s.params1

/-- STATUS, FINFO_LO and FINFO_HI hold what they held. -/
def SameFaultRegs (s t : State) : Prop :=
  t.status = s.status ∧ t.finfoLo = s.finfoLo ∧ t.finfoHi = s.finfoHi

/-- Every control register holds what it held. -/
def SameControl (s t : State) : Prop := SameParams s t ∧ SameFaultRegs s t

/-- The host's moves to come and its last reply are as before: no command touches them. -/
def SameHost (s t : State) : Prop := t.moves = s.moves ∧ t.reply = s.reply

/-! ## What a command may change -/

/-- Nothing but scalar register `d` may differ. -/
def FrameScalar (s t : State) (d : SReg) : Prop :=
  SameScalarsBut s t d ∧ SamePolys s t ∧ SameDmem s t ∧ SameControl s t ∧ SameHost s t

/-- Nothing but the run of `n` polynomial registers from `b` may differ. -/
def FramePolys (s t : State) (b n : Nat) : Prop :=
  SameScalars s t ∧ SamePolysBut s t b n ∧ SameDmem s t ∧ SameControl s t ∧ SameHost s t

/-- Nothing but the `n` bytes of DMEM at `a` may differ. -/
def FrameDmem (s t : State) (a n : Nat) : Prop :=
  SameScalars s t ∧ SamePolys s t ∧ SameDmemBut s t a n ∧ SameControl s t ∧ SameHost s t

/-- Nothing but PARAMS0 and PARAMS1 may differ. -/
def FrameParams (s t : State) : Prop :=
  SameScalars s t ∧ SamePolys s t ∧ SameDmem s t ∧ SameFaultRegs s t ∧ SameHost s t

/-- The `n` bytes at `a` are the byte string `b`. -/
def HoldsBytes (t : State) (a : Nat) (b : Bytes) : Prop := ∀ k : Nat, k < b.length → t.readByte (a + k) = byteAt b k

/-- The state `t` is `s` with the fault of code `code` recorded for the word `w`, and nothing else changed (R313). -/
def FaultRecorded (s t : State) (code : Nat) (w : CmdWord) : Prop :=
  t.faulted = true ∧ t.causeField = code ∧ t.status.toNat = 1 + 16 * code ∧
  t.finfoLo.toNat = w.toNat % 65536 ∧ t.finfoHi.toNat = w.toNat / 65536 ∧
  SameScalars s t ∧ SamePolys s t ∧ SameDmem s t ∧ SameParams s t ∧ SameHost s t

/-- The command `i` in the state `s` takes the fault of code `code`, recorded for its own word. -/
def Faults (i : Instr) (s : State) (code : Nat) : Prop :=
  ∃ t, exec i s = .next t ∧ FaultRecorded s t code (encode i)

/-- The command word of `i` is the number `n`, written as the sum of its fields in place (R70 to R86). -/
def WordIs (i : Instr) (n : Nat) : Prop := (encode i).toNat = n

/-! ## Values as integers (R9: "x mod 2^k is the non-negative remainder") -/

/-- The value of a scalar register as an integer. -/
def num (s : State) (i : SReg) : Int := (s.getE i).toNat

/-- Coefficient `j` of a polynomial as an integer, 0 to 65535. -/
def val (q : Poly) (j : Nat) : Int := (coeff q j).toNat

/-- `Σ_{i+j = k} a[i]·b[j] − Σ_{i+j = k+256} a[i]·b[j]`, 0 <= i, j <= 255, an unbounded integer (R160). -/
def negacyclic (a b : Nat → Int) (k : Nat) : Int :=
  ∑ i ∈ Finset.range 256, ∑ j ∈ Finset.range 256,
    if i + j = k then a i * b j else if i + j = k + 256 then -(a i * b j) else 0

/-- The polynomial `X^n`: coefficient `n` is 1, the others 0 (R160). -/
def monomial (n : Nat) : Poly := tabulate fun j => if j = n then 1#16 else 0#16

/-- The number of ones among the stream bits `k`..`k+n-1` of a byte string, a population count (R9, R10, R211). -/
def ones (b : Bytes) (k n : Nat) : Int := ∑ j ∈ Finset.range n, (streamBit b (k + j) : Int)

/-! ## Commands that complete: the next state, its values, and the frame -/

/-- The command answers a next state in which scalar register `d` has the value `v` and nothing else differs. -/
def WritesScalar (i : Instr) (s : State) (d : SReg) (v : Int) : Prop :=
  ∃ t, exec i s = .next t ∧ num t d = v ∧ FrameScalar s t d

/-- The command answers a next state in which coefficient `j` of polynomial register `d` has the value `f j` for all 256 `j`,
and nothing else differs. -/
def WritesPoly (i : Instr) (s : State) (d : PReg) (f : Nat → Int) : Prop :=
  ∃ t, exec i s = .next t ∧ (∀ j, j < 256 → val (t.getP d) j = f j) ∧ FramePolys s t d 1

/-- The command answers a next state in which coefficient `j` of `P[b+k]` has the value `f k j` for every `k` below `n` and all
256 `j`, and nothing outside that run differs. -/
def WritesRun (i : Instr) (s : State) (b n : Nat) (f : Nat → Nat → Int) : Prop :=
  ∃ t, exec i s = .next t ∧ (∀ k, k < n → ∀ j, j < 256 → val (t.getP (b + k)) j = f k j) ∧ FramePolys s t b n

/-- The command answers a next state in which the bytes at address `a` are the string `b`, and nothing outside them differs. -/
def Stores (i : Instr) (s : State) (a : Nat) (b : Bytes) : Prop :=
  ∃ t, exec i s = .next t ∧ HoldsBytes t a b ∧ FrameDmem s t a b.length

/-! ## The profile (R25, R26, R27) -/

/-- PARAMS0 and PARAMS1 hold the tuple of the profile, packed as R25 and R26 lay it out. -/
def HoldsProfile (s : State) (pr : Profile) : Prop :=
  s.params0.toNat = pr.L + 16 * pr.epsQ + 256 * pr.epsP + 4096 * pr.epsT ∧
  s.params1.toNat = pr.mu + 16 * pr.uniform.toNat

/-- PARAMS0 and PARAMS1 hold no profile: PROFID = 0. -/
def NoProfile (s : State) : Prop := ∀ pr : Profile, ¬HoldsProfile s pr

/-- The supported codec widths (R170). -/
def widths : List Nat := [1, 3, 4, 5, 6, 10, 12, 13]

/-! ## The fault table of R311 -/

/-- The six commands of format KK: destination and source address register, and the lengths of the source and the destination
buffer (R54, R221, R241). -/
def kkBuffers : Instr → Option (SReg × SReg × (Profile → Nat) × (Profile → Nat))
  | .pkeKeygen ed es => some (ed, es, fun _ => 64, fun pr => pr.pkLen + pr.pkeSkLen)
  | .pkeEnc ed es => some (ed, es, fun pr => 64 + pr.pkLen, fun pr => pr.ctLen)
  | .pkeDec ed es => some (ed, es, fun pr => pr.ctLen + pr.pkeSkLen, fun _ => 32)
  | .kemKeygen ed es => some (ed, es, fun _ => 96, fun pr => pr.pkLen + pr.skLen)
  | .kemEncaps ed es => some (ed, es, fun pr => 32 + pr.pkLen, fun pr => pr.ctLen + 32)
  | .kemDecaps ed es => some (ed, es, fun pr => pr.ctLen + pr.skLen, fun _ => 32)
  | _ => none

/-- A row or column count is outside 1..4 (R180). -/
def BadDim (n : Nat) : Prop := n < 1 ∨ 4 < n

/-- The `n` bytes at the address in register `ea` would pass address 0xFFFF (R53). -/
def PastEnd (s : State) (ea : SReg) (n : Nat) : Prop := 65536 < (s.getE ea).toNat + n

/-- The rows of R311 for a command: each fault code it can raise, with the condition. The row of code 1 for words that are no
command, or have a reserved bit set, is not about a command. -/
def faultConditions (i : Instr) (s : State) : List (Nat × Prop) :=
  match i with
  | .setprof L eq ep et mu u =>
    [(2, ∀ pr : Profile, pr.tuple ≠ ⟨L, eq, ep, et, mu, decide (u = 1)⟩)]
  | .rdcsr _ csr => [(1, 9 < csr.val)]
  | .eld _ ea => [(6, PastEnd s ea 2)]
  | .est _ ea => [(6, PastEnd s ea 2)]
  | .pldc _ ea => [(6, PastEnd s ea 512)]
  | .pstc _ ea => [(6, PastEnd s ea 512)]
  | .penc _ ea w => [(3, w.val ∉ widths), (6, PastEnd s ea (32 * w))]
  | .pdec _ ea w => [(3, w.val ∉ widths), (6, PastEnd s ea (32 * w))]
  | .pcbd _ ea mu => [(3, mu.val ∉ [6, 8, 10]), (6, PastEnd s ea (32 * mu))]
  | .puni _ ea => [(6, PastEnd s ea 64)]
  | .madd pd pa pb r c =>
    [(4, BadDim r ∨ BadDim c), (5, 32 < pd.val + r * c ∨ 32 < pa.val + r * c ∨ 32 < pb.val + r * c)]
  | .mshl pd pa r c _ => [(4, BadDim r ∨ BadDim c), (5, 32 < pd.val + r * c ∨ 32 < pa.val + r * c)]
  | .mshr pd pa r c _ => [(4, BadDim r ∨ BadDim c), (5, 32 < pd.val + r * c ∨ 32 < pa.val + r * c)]
  | .mmod pd pa r c _ => [(4, BadDim r ∨ BadDim c), (5, 32 < pd.val + r * c ∨ 32 < pa.val + r * c)]
  | .mtrn pd pa r c => [(4, BadDim r ∨ BadDim c ∨ r ≠ c), (5, 32 < pd.val + r * r ∨ 32 < pa.val + r * r)]
  | .mvmul pd pa pb r c =>
    [(4, BadDim r ∨ BadDim c ∨ r ≠ c), (5, 32 < pa.val + r * r ∨ 32 < pb.val + r ∨ 32 < pd.val + r)]
  | .minner _ pa pb r c => [(4, BadDim r ∨ BadDim c ∨ c ≠ 1), (5, 32 < pa.val + r ∨ 32 < pb.val + r)]
  | .menc ps ea w r c =>
    [(3, w.val ∉ widths), (4, BadDim r ∨ BadDim c ∨ c ≠ 1), (5, 32 < ps.val + r), (6, PastEnd s ea (r * (32 * w)))]
  | .mdec pd ea w r c =>
    [(3, w.val ∉ widths), (4, BadDim r ∨ BadDim c ∨ c ≠ 1), (5, 32 < pd.val + r), (6, PastEnd s ea (r * (32 * w)))]
  | .genmat pd ea =>
    [(2, NoProfile s), (5, ∃ pr, HoldsProfile s pr ∧ 32 < pd.val + pr.L * pr.L), (6, PastEnd s ea 32)]
  | .gensec pd ea => [(2, NoProfile s), (5, ∃ pr, HoldsProfile s pr ∧ 32 < pd.val + pr.L), (6, PastEnd s ea 32)]
  | .cteq _ ea eb el =>
    [(6, PastEnd s ea (s.getE el).toNat ∨ PastEnd s eb (s.getE el).toNat)]
  | .ctsel ed ef ex ey el =>
    [(6, PastEnd s ed (s.getE el).toNat ∨ PastEnd s ex (s.getE el).toNat ∨ PastEnd s ey (s.getE el).toNat),
      (7, s.getE ef ≠ 0xFFFF#16 ∧ s.getE ef ≠ 0x0000#16)]
  | .pkeKeygen .. | .pkeEnc .. | .pkeDec .. | .kemKeygen .. | .kemEncaps .. | .kemDecaps .. =>
    match kkBuffers i with
    | some (ed, es, nin, nout) =>
      [(2, NoProfile s), (6, ∃ pr, HoldsProfile s pr ∧ (PastEnd s es (nin pr) ∨ PastEnd s ed (nout pr)))]
    | none => []
  | _ => []

/-- The command in the state meets the condition of the fault of code `code` (R311). -/
def Raises (i : Instr) (s : State) (code : Nat) : Prop := ∃ p, (code, p) ∈ faultConditions i s ∧ p

/-! ## Which commands may change what (R21, R24, R35, R54) -/

/-- "Written by" of R21. -/
def writesScalars : Instr → Bool
  | .eli .. | .eadd .. | .esub .. | .eneg .. | .emul .. | .eshl .. | .eshr .. | .ered .. | .eld .. | .eldb ..
  | .pgetc .. | .cteq .. | .rdcsr .. => true
  | _ => false

/-- "Written by" of R35. -/
def writesPolys : Instr → Bool
  | .pzero .. | .pmov .. | .padd .. | .pacc .. | .psub .. | .pmul .. | .pshl .. | .pshr .. | .pmod .. | .pldc ..
  | .psetc .. | .pdec .. | .pcbd .. | .puni .. | .madd .. | .mshl .. | .mshr .. | .mmod .. | .mtrn .. | .mvmul ..
  | .minner .. | .mdec .. | .genmat .. | .gensec .. => true
  | _ => false

/-- The commands whose "bytes written" in the table of R54 is not 0. -/
def writesDmem : Instr → Bool
  | .est .. | .estb .. | .pstc .. | .penc .. | .menc .. | .pkeKeygen .. | .pkeEnc .. | .pkeDec .. | .kemKeygen ..
  | .kemEncaps .. | .kemDecaps .. | .ctsel .. => true
  | _ => false

/-- The commands whose "bytes read" in the table of R54 is not 0. -/
def readsDmem : Instr → Bool
  | .eld .. | .eldb .. | .pldc .. | .pdec .. | .pcbd .. | .puni .. | .mdec .. | .genmat .. | .gensec .. | .pkeKeygen ..
  | .pkeEnc .. | .pkeDec .. | .kemKeygen .. | .kemEncaps .. | .kemDecaps .. | .cteq .. | .ctsel .. => true
  | _ => false

/-- "SETPROF is the only command that changes a control register" (R272). -/
def writesParams : Instr → Bool
  | .setprof .. => true
  | _ => false

/-! ## The invariant -/

/-- PARAMS0 and PARAMS1 hold no profile or the packing of one of the six rows (R25, R26). -/
def ParamsLegal (s : State) : Prop :=
  (s.params0, s.params1) ∈
    [(0x0000#16, 0x0000#16), (0x3AD2#16, 0x000A#16), (0x4AD3#16, 0x0008#16), (0x6AD4#16, 0x0006#16),
      (0x3AC2#16, 0x0012#16), (0x4AC3#16, 0x0012#16), (0x6AC4#16, 0x0012#16)]

/-- FAULT = 0 with CAUSE and FINFO 0, or FAULT = 1 with a code of 1 to 7; bits [3:1] and [15:8] of STATUS are 0 (R32, R33, R311). -/
def FaultRegsLegal (s : State) : Prop :=
  (s.status = 0#16 ∧ s.finfoLo = 0#16 ∧ s.finfoHi = 0#16) ∨
  ∃ code : Nat, 1 ≤ code ∧ code ≤ 7 ∧ s.status.toNat = 1 + 16 * code

/-- What every step keeps: DMEM in its canonical form, legal control registers. -/
def StateInv (s : State) : Prop := Memory.wf s.dmem = true ∧ ParamsLegal s ∧ FaultRegsLegal s

/-! ## The match and mask of each row of spec/opcode_table.json (R89), written out from that file -/

/-- Rows of families 0 to 2: (match, mask). -/
def matchRowsA : List (CmdWord × CmdWord) := [
  (0x01000000#32, 0xFF00001F#32),
  (0x02000000#32, 0xFF00FFFF#32),
  (0x10000000#32, 0xFF0F0000#32),
  (0x11000000#32, 0xFF000FFF#32),
  (0x12000000#32, 0xFF000FFF#32),
  (0x13000000#32, 0xFF00FFFF#32),
  (0x14000000#32, 0xFF000FFF#32),
  (0x15000000#32, 0xFF000FFF#32),
  (0x16000000#32, 0xFF000FFF#32),
  (0x17000000#32, 0xFF000FFF#32),
  (0x18000000#32, 0xFF00FFFF#32),
  (0x19000000#32, 0xFF00FFFF#32),
  (0x1A000000#32, 0xFF00FFFF#32),
  (0x1B000000#32, 0xFF00FFFF#32),
  (0x20000000#32, 0xFF07FFFF#32),
  (0x21000000#32, 0xFF003FFF#32),
  (0x22000000#32, 0xFF0001FF#32),
  (0x23000000#32, 0xFF003FFF#32),
  (0x24000000#32, 0xFF0001FF#32),
  (0x25000000#32, 0xFF0001FF#32),
  (0x26000000#32, 0xFF0003FF#32),
  (0x27000000#32, 0xFF0003FF#32),
  (0x28000000#32, 0xFF0003FF#32),
  (0x29000000#32, 0xFF007FFF#32),
  (0x2A000000#32, 0xFF007FFF#32),
  (0x2B000000#32, 0xFF007F00#32),
  (0x2C000000#32, 0xFF007F00#32)]

/-- Rows of families 3 to 8: (match, mask). -/
def matchRowsB : List (CmdWord × CmdWord) := [
  (0x30000000#32, 0xFF0007FF#32),
  (0x31000000#32, 0xFF0007FF#32),
  (0x40000000#32, 0xFF000007#32),
  (0x41000000#32, 0xFF00000F#32),
  (0x42000000#32, 0xFF00000F#32),
  (0x43000000#32, 0xFF00000F#32),
  (0x44000000#32, 0xFF0000FF#32),
  (0x45000000#32, 0xFF000007#32),
  (0x46000000#32, 0xFF000007#32),
  (0x47000000#32, 0xFF00001F#32),
  (0x48000000#32, 0xFF00001F#32),
  (0x49000000#32, 0xFF007FFF#32),
  (0x4A000000#32, 0xFF007FFF#32),
  (0x50000000#32, 0xFF0007FF#32),
  (0x51000000#32, 0xFF007FFF#32),
  (0x60000000#32, 0xFF00FFFF#32),
  (0x61000000#32, 0xFF00FFFF#32),
  (0x62000000#32, 0xFF00FFFF#32),
  (0x70000000#32, 0xFF00FFFF#32),
  (0x71000000#32, 0xFF00FFFF#32),
  (0x72000000#32, 0xFF00FFFF#32),
  (0x80000000#32, 0xFF0000FF#32),
  (0x81000000#32, 0xFF00000F#32)]

/-- All fifty rows. -/
def matchRows : List (CmdWord × CmdWord) := matchRowsA ++ matchRowsB

end Sys2Proof.Safety
end

