-- ==== Sys2Proof/Certificates/Slice0/Obligations.lean ====
section
/-! DEFINITION. The statements about the Saber CORE, for the provers: encoding, the machine's steps and faults, then family by
family in the order of the opcode map. What a command does is said in Nat and Int arithmetic over the registers and the bytes;
`WritesScalar`, `WritesPoly`, `WritesRun` and `Stores` (Safety.lean) each say that exec ANSWERS A NEXT STATE, which values it
holds, and that everything else is unchanged. Registers and memory are compared by what reading them gives. Where a command
has a shape or a range it faults outside of, the statement says which fault, in the order of R312. -/

open Sys2Proof Sys2Proof.Machine Sys2Proof.Safety

/-- One word of each format, as the spec prints it beside its assembly text, decodes to that command with those operands;
the words 0x00000000, 0xFFFFFFFF and a word with a reserved bit set are rejected by name. (R88, R93, R102, R131, R173,
R183, R271) -/
def Obligations.WordsOfTheSpecDecode : Prop :=
  decode 0x017B5200#32 = .instr (.setprof 3 13 10 4 8 0) ∧
  decode 0x02130000#32 = .instr (.rdcsr 1 3) ∧
  decode 0x10301234#32 = .instr (.eli 3 0x1234#16) ∧
  decode 0x11201000#32 = .instr (.eadd 2 0 1) ∧
  decode 0x1710A000#32 = .instr (.ered 1 0 10) ∧
  decode 0x19100000#32 = .instr (.est 1 0) ∧
  decode 0x20280000#32 = .instr (.pzero 5) ∧
  decode 0x22100200#32 = .instr (.padd 2 0 1) ∧
  decode 0x26082400#32 = .instr (.pshl 1 0 9) ∧
  decode 0x29008000#32 = .instr (.pldc 0 1) ∧
  decode 0x2B1100FF#32 = .instr (.pgetc 1 2 255) ∧
  decode 0x2C200001#32 = .instr (.psetc 0 1 2) ∧
  decode 0x3000E800#32 = .instr (.penc 0 1 13) ∧
  decode 0x40400890#32 = .instr (.madd 8 0 4 2 2) ∧
  decode 0x41201930#32 = .instr (.mshl 4 0 3 1 3) ∧
  decode 0x44201200#32 = .instr (.mtrn 4 0 2 2) ∧
  decode 0x4720D320#32 = .instr (.menc 4 1 10 3 1) ∧
  decode 0x49008000#32 = .instr (.genmat 0 1) ∧
  decode 0x5000C000#32 = .instr (.pcbd 0 1 8) ∧
  decode 0x61100000#32 = .instr (.pkeEnc 1 0) ∧
  decode 0x72100000#32 = .instr (.kemDecaps 1 0) ∧
  decode 0x80412300#32 = .instr (.cteq 4 1 2 3) ∧
  decode 0x81541230#32 = .instr (.ctsel 5 4 1 2 3) ∧
  decode 0x00000000#32 = .rejected .unassignedOpcode ∧
  decode 0xFFFFFFFF#32 = .rejected .unassignedOpcode ∧
  decode 0x11201001#32 = .rejected .reservedBitSet

/-- For every command of the fifty, with every operand at every value its field can hold (well-formed or not), decode
(encode i) is i. So no bit of any operand is dropped and no two commands share a word. (R71, R87, R88, R89) -/
def Obligations.DecodeOfEncodeIsTheCommand : Prop :=
  ∀ i : Instr, decode (encode i) = .instr i

/-- If a 32-bit word decodes to a command, then encoding that command gives back the same word: the decoder reads every
bit of the word and accepts no second spelling of a command. (R70, R89, R90) -/
def Obligations.EncodeOfDecodeIsTheWord : Prop :=
  ∀ (w : CmdWord) (i : Instr), decode w = .instr i → encode i = w

/-- For each of the fifty (match, mask) rows: a word satisfies word AND mask = match exactly when it decodes to a command
whose word it is and whose opcode byte is the row's. No word matches two rows. A word that matches no row raises
ILLEGAL when it is issued. (R89) -/
def Obligations.DecodeAgreesWithMatchAndMask : Prop :=
  (∀ w : CmdWord, ∀ row ∈ matchRows, w &&& row.2 = row.1 ↔
    ∃ i, decode w = .instr i ∧ encode i = w ∧ w.toNat / 2 ^ 24 = row.1.toNat / 2 ^ 24) ∧
  (∀ w : CmdWord, ∀ row ∈ matchRows, ∀ row' ∈ matchRows,
    w &&& row.2 = row.1 → w &&& row'.2 = row'.1 → row = row') ∧
  (∀ (w : CmdWord) (s : State), Running s → (∀ row ∈ matchRows, w &&& row.2 ≠ row.1) →
    ∃ t, issue w s = .next t ∧ FaultRecorded s t 1 w)

/-- 206 opcode bytes are unassigned, 0x00 and 0xFF among them, and a word with one raises ILLEGAL; so does a word of an
assigned opcode with a reserved bit set; a command with an illegal operand value (w, r, c, a register run, csr, the
tuple) always faults, with one of the codes 1 to 5 (FaultTableAndPriority says which). (R87, R90, R181) -/
def Obligations.IllegalEncodingsFault : Prop :=
  ((List.range 256).filter fun op => matchRows.all fun row => decide (row.1.toNat / 2 ^ 24 ≠ op)).length = 206 ∧
  (∀ op ∈ [0x00, 0xFF], ∀ row ∈ matchRows, row.1.toNat / 2 ^ 24 ≠ op) ∧
  (∀ (w : CmdWord) (s : State), Running s → (∀ row ∈ matchRows, row.1.toNat / 2 ^ 24 ≠ w.toNat / 2 ^ 24) →
    ∃ t, issue w s = .next t ∧ FaultRecorded s t 1 w) ∧
  (∀ (w : CmdWord) (s : State), Running s →
    ∀ row ∈ matchRows, row.1.toNat / 2 ^ 24 = w.toNat / 2 ^ 24 → w &&& row.2 ≠ row.1 →
    ∃ t, issue w s = .next t ∧ FaultRecorded s t 1 w) ∧
  (∀ (i : Instr) (s : State), Running s → WellFormed i = false → ∃ code, 1 ≤ code ∧ code ≤ 5 ∧ Faults i s code)

/-- A word with opcode byte 0x01, issued with no fault recorded, ends without a fault exactly when it is one of the six
words of R93; and the word 0x15000000 (NOP) answers the very same state. (R93, R271) -/
def Obligations.OnlySixSetprofWordsAreAccepted : Prop :=
  (∀ (w : CmdWord) (s : State), Running s → w.toNat / 2 ^ 24 = 0x01 →
    ((∃ t, issue w s = .next t ∧ Running t) ↔
      w ∈ [0x015B4E80#32, 0x017B5200#32, 0x019B5980#32, 0x01594CA0#32, 0x017950A0#32, 0x019958A0#32])) ∧
  (∀ s : State, Running s → issue 0x15000000#32 s = .next s)

/-- When the host's next move issues a word that decodes to i, the step is exec i on the state with that move taken from
the list and the last reply gone; a word that is no command is the ILLEGAL fault of that word. withFetchWord makes the
next step run the command of the word it is given. The list of moves and the reply are the model's own fields (log
entry 1). (R20, R22, R330) -/
def Obligations.StepRunsTheDecodedCommand : Prop :=
  (∀ (s : State) (w : CmdWord) (rest : List HostMove) (i : Instr), s.moves = .issue w :: rest → decode w = .instr i →
    step s = exec i { s with moves := rest, reply := none }) ∧
  (∀ (s : State) (w : CmdWord) (rest : List HostMove) (r : DecodeReject), s.moves = .issue w :: rest →
    decode w = .rejected r → step s = trap w .illegal { s with moves := rest, reply := none }) ∧
  (∀ (s : State) (i : Instr), decode (encode i) = .instr i →
    step (s.withFetchWord 32 (encode i).toNat) = exec i { s with reply := none })

/-- Whatever the state, faulted or not, a reset move answers a state with every scalar register, every coefficient and
every control register 0 and every DMEM byte at DMEM_RESET, the host's later moves kept and no reply; and a step from
a faulted state to one that is not faulted is a reset move. The model's choices and no rule of the spec: that the
later moves stay and the reply is gone (log entries 1 and 10), and that DMEM_RESET is the same content at every reset
(log entry 10; R341 leaves it to the model). (R42, R340, R341) -/
def Obligations.ResetMoveClearsEverything : Prop :=
  (∀ (s : State) (rest : List HostMove), s.moves = .reset :: rest → ∃ t, step s = .next t ∧
    (∀ i : SReg, t.getE i = 0#16) ∧ (∀ (i : PReg) (j : Nat), j < 256 → coeff (t.getP i) j = 0#16) ∧
    (∀ n : Nat, n ≤ 9 → t.csr? n = some 0#16) ∧ NoProfile t ∧ Running t ∧
    (∀ a : Nat, t.readByte a = Config.dmemReset a) ∧ t.moves = rest ∧ t.reply = none) ∧
  (∀ s t : State, s.faulted = true → step s = .next t → Running t → ∃ rest, s.moves = .reset :: rest)

/-- In any state: a DMEM write of a string that fits stores exactly it; a DMEM read that fits changes nothing but the
reply and gives the bytes; a control register read gives its value; with no move to come the step changes nothing. A
DMEM move that does not fit is no move of the host and is refused (log entry 6). (R64, R329, R330) -/
def Obligations.HostReachesDmemAndControlRegistersOnly : Prop :=
  (∀ (s : State) (rest : List HostMove) (a : Nat) (b : Bytes), s.moves = .writeDmem a b :: rest → a + b.length ≤ 65536 →
    ∃ t, step s = .next t ∧ HoldsBytes t a b ∧ FrameDmem { s with moves := rest, reply := none } t a b.length) ∧
  (∀ (s : State) (rest : List HostMove) (a n : Nat), s.moves = .readDmem a n :: rest → a + n ≤ 65536 →
    ∃ b, step s = .next { s with moves := rest, reply := some (.bytes b) } ∧ b.length = n ∧
      ∀ k, k < n → byteAt b k = s.readByte (a + k)) ∧
  (∀ (s : State) (rest : List HostMove) (n : Fin 10), s.moves = .readCsr n :: rest →
    ∃ v, step s = .next { s with moves := rest, reply := some (.csr v) } ∧ s.csr? n = some v) ∧
  (∀ (s : State) (rest : List HostMove) (a n : Nat), s.moves = .readDmem a n :: rest → 65536 < a + n →
    step s = .refused .notAHostMove) ∧
  (∀ (s : State) (rest : List HostMove) (a : Nat) (b : Bytes), s.moves = .writeDmem a b :: rest → 65536 < a + b.length →
    step s = .refused .notAHostMove) ∧
  (∀ s : State, s.moves = [] → step s = .next s)

/-- In the reset state every scalar register is 0, every coefficient of every polynomial register is 0, all ten control
registers read 0, no profile is held, no fault is recorded, and every DMEM byte is the open content DMEM_RESET. (R42) -/
def Obligations.ResetState : Prop :=
  (∀ i : SReg, State.reset.getE i = 0#16) ∧
  (∀ (i : PReg) (j : Nat), j < 256 → coeff (State.reset.getP i) j = 0#16) ∧
  (∀ n : Nat, n ≤ 9 → State.reset.csr? n = some 0#16) ∧ NoProfile State.reset ∧ Running State.reset ∧
  (∀ a : Nat, State.reset.readByte a = Config.dmemReset a)

/-- The reset state has DMEM's written bytes in canonical form, no profile in PARAMS0 and PARAMS1, and STATUS and FINFO 0.
(R25, R26, R32, R33, R42) -/
def Obligations.ResetMeetsTheInvariant : Prop :=
  StateInv State.reset

/-- From every state that meets the invariant, reachable or not, whatever the host's next move, a step that answers a next
state answers one that meets it: DMEM's written bytes stay strictly rising inside 0..65535, PARAMS0 and PARAMS1 stay
the packing of no profile or of one of the six, STATUS holds no fault with CAUSE and FINFO 0, or FAULT with a code of
1 to 7 and every other bit 0. (R24, R25, R26, R32, R33, R50, R311) -/
def Obligations.EveryStepKeepsTheInvariant : Prop :=
  ∀ s t : State, StateInv s → step s = .next t → StateInv t

/-- Whatever word is issued with no fault recorded: if a fault is recorded afterwards then it has a code of 1 to 7 and the
word itself in FINFO, and every register, every DMEM byte and the profile are as before; if none is, STATUS and FINFO
are as before. (R313) -/
def Obligations.FaultsArePreciseAndRecorded : Prop :=
  ∀ (w : CmdWord) (s t : State), Running s → issue w s = .next t →
    (t.faulted = true → ∃ code, 1 ≤ code ∧ code ≤ 7 ∧ FaultRecorded s t code w) ∧
    (Running t → SameFaultRegs s t)

/-- In a state with a fault recorded every word and every command is refused; a step that is answered is a reset, or
leaves the fault, FINFO, every register and the profile as they are; and the host may still read DMEM and the control
registers. (R314) -/
def Obligations.RecordedFaultRefusesCommands : Prop :=
  ∀ s : State, s.faulted = true →
    (∀ w : CmdWord, issue w s = .refused .faultLatched) ∧
    (∀ i : Instr, exec i s = .refused .faultLatched) ∧
    (∀ t, step s = .next t → (∃ rest, s.moves = .reset :: rest) ∨
      (t.faulted = true ∧ SameFaultRegs s t ∧ SameScalars s t ∧ SamePolys s t ∧ SameParams s t)) ∧
    (∀ (rest : List HostMove) (a n : Nat), s.moves = .readDmem a n :: rest → a + n ≤ 65536 →
      ∃ t, step s = .next t ∧ t.reply = some (.bytes (s.memRead a n))) ∧
    (∀ (rest : List HostMove) (n : Fin 10), s.moves = .readCsr n :: rest →
      ∃ t v, step s = .next t ∧ t.reply = some (.csr v) ∧ s.csr? n = some v)

/-- For every command and every state without a recorded fault: it takes the fault of a code exactly when it meets that
code's condition of R311 and no condition with a lower code; and when it meets none it answers a next state without a
fault. A word that is no command takes code 1. (R311, R312) -/
def Obligations.FaultTableAndPriority : Prop :=
  (∀ (i : Instr) (s : State), Running s →
    (∀ code : Nat, Faults i s code ↔ Raises i s code ∧ ∀ c, c < code → ¬Raises i s c) ∧
    ((∀ code : Nat, ¬Raises i s code) → ∃ t, exec i s = .next t ∧ Running t)) ∧
  (∀ (w : CmdWord) (r : DecodeReject) (s : State), Running s → decode w = .rejected r →
    ∃ t, issue w s = .next t ∧ FaultRecorded s t 1 w)

/-- If a run of any number of the host's moves, none of them a reset, ends with every move made and FAULT = 0, then no
fault was recorded at its start either and STATUS and FINFO are what they were. (R32, R314, R330) -/
def Obligations.AFaultIsNeverLostInARun : Prop :=
  ∀ (n : Nat) (s t : State), (∀ m ∈ s.moves, m ≠ .reset) → run n s = .next t → EndedWell t →
    Running s ∧ SameFaultRegs s t

/-- Whatever the command and the state, when exec answers a next state: the scalar registers change only under the
commands of R21's list, the polynomial registers only under R35's list, DMEM only under the commands R54 gives bytes
written, PARAMS0 and PARAMS1 only under SETPROF; no command touches the host's moves or its reply; and for a command
R54 gives no bytes read, replacing the whole content of DMEM before it changes neither whether it completes nor any
register after it. (R21, R24, R35, R40, R54, R272) -/
def Obligations.CommandsTouchOnlyWhatTheSpecLists : Prop :=
  ∀ (i : Instr) (s t : State), exec i s = .next t →
    (writesScalars i = false → SameScalars s t) ∧ (writesPolys i = false → SamePolys s t) ∧
    (writesDmem i = false → SameDmem s t) ∧ (writesParams i = false → SameParams s t) ∧ SameHost s t ∧
    (readsDmem i = false → ∀ m : Memory, ∃ t', exec i { s with dmem := m } = .next t' ∧
      SameScalars t t' ∧ SamePolys t t' ∧ SameControl t t')

/-- With no fault recorded each of the four commands completes for every operand: the destination holds the sum,
difference, negation or product of the sources before the command modulo 2^16, and nothing else changes. Its word is
the one its format and opcode give. (R102, R103, R104, R105) -/
def Obligations.ScalarAddSubtractNegateMultiply : Prop :=
  ∀ (ed ea eb : SReg) (s : State), Running s →
    WritesScalar (.eadd ed ea eb) s ed ((num s ea + num s eb) % 65536) ∧
    WritesScalar (.esub ed ea eb) s ed ((num s ea - num s eb) % 65536) ∧
    WritesScalar (.eneg ed ea) s ed ((0 - num s ea) % 65536) ∧
    WritesScalar (.emul ed ea eb) s ed (num s ea * num s eb % 65536) ∧
    WordIs (.eadd ed ea eb) (0x11 * 2 ^ 24 + ed * 2 ^ 20 + ea * 2 ^ 16 + eb * 2 ^ 12) ∧
    WordIs (.esub ed ea eb) (0x12 * 2 ^ 24 + ed * 2 ^ 20 + ea * 2 ^ 16 + eb * 2 ^ 12) ∧
    WordIs (.eneg ed ea) (0x13 * 2 ^ 24 + ed * 2 ^ 20 + ea * 2 ^ 16) ∧
    WordIs (.emul ed ea eb) (0x14 * 2 ^ 24 + ed * 2 ^ 20 + ea * 2 ^ 16 + eb * 2 ^ 12)

/-- With no fault recorded each of the four commands completes for every operand and all sixteen values of the amount: the
destination holds the source times 2^sh modulo 2^16, the floor of the source over 2^sh, the source modulo 2^k, or the
immediate as it stands; nothing else changes. (R106, R107, R108, R110) -/
def Obligations.ScalarShiftReduceImmediate : Prop :=
  ∀ (ed ea : SReg) (n : Fin 16) (imm : Word) (s : State), Running s →
    WritesScalar (.eshl ed ea n) s ed (num s ea * 2 ^ n.val % 65536) ∧
    WritesScalar (.eshr ed ea n) s ed (num s ea / 2 ^ n.val) ∧
    WritesScalar (.ered ed ea n) s ed (num s ea % 2 ^ n.val) ∧
    WritesScalar (.eli ed imm) s ed imm.toNat ∧
    WordIs (.eshl ed ea n) (0x15 * 2 ^ 24 + ed * 2 ^ 20 + ea * 2 ^ 16 + n * 2 ^ 12) ∧
    WordIs (.eshr ed ea n) (0x16 * 2 ^ 24 + ed * 2 ^ 20 + ea * 2 ^ 16 + n * 2 ^ 12) ∧
    WordIs (.ered ed ea n) (0x17 * 2 ^ 24 + ed * 2 ^ 20 + ea * 2 ^ 16 + n * 2 ^ 12) ∧
    WordIs (.eli ed imm) (0x10 * 2 ^ 24 + ed * 2 ^ 20 + imm.toNat)

/-- ELD takes MEM_RANGE exactly when its address is 0xFFFF; at every other address it completes with the byte at the
address plus 256 times the next byte. ELDB completes at every address with the byte. Nothing but the destination
changes. (R111, R113) -/
def Obligations.ScalarLoads : Prop :=
  ∀ (ed ea : SReg) (s : State), Running s →
    let a := (s.getE ea).toNat
    (a = 0xFFFF → Faults (.eld ed ea) s 6) ∧
    (a ≠ 0xFFFF → WritesScalar (.eld ed ea) s ed ((s.readByte a).toNat + 256 * (s.readByte (a + 1)).toNat)) ∧
    WritesScalar (.eldb ed ea) s ed (s.readByte a).toNat ∧
    WordIs (.eld ed ea) (0x18 * 2 ^ 24 + ed * 2 ^ 20 + ea * 2 ^ 16) ∧
    WordIs (.eldb ed ea) (0x1A * 2 ^ 24 + ed * 2 ^ 20 + ea * 2 ^ 16)

/-- EST takes MEM_RANGE exactly when its address is 0xFFFF; at every other address it completes and the two bytes at the
address are the low byte and the high byte of the source. ESTB completes at every address and stores the low byte.
Every other byte and every register keeps its value. (R112, R114) -/
def Obligations.ScalarStores : Prop :=
  ∀ (es ea : SReg) (s : State), Running s →
    let a := (s.getE ea).toNat
    let v := (s.getE es).toNat
    (a = 0xFFFF → Faults (.est es ea) s 6) ∧
    (a ≠ 0xFFFF → Stores (.est es ea) s a [BitVec.ofNat 8 (v % 256), BitVec.ofNat 8 (v / 256)]) ∧
    Stores (.estb es ea) s a [BitVec.ofNat 8 (v % 256)] ∧
    WordIs (.est es ea) (0x19 * 2 ^ 24 + es * 2 ^ 20 + ea * 2 ^ 16) ∧
    WordIs (.estb es ea) (0x1B * 2 ^ 24 + es * 2 ^ 20 + ea * 2 ^ 16)

/-- With no fault recorded each of the eight commands completes for every operand, the registers equal or not: coefficient
j of the destination is 0, or the source's coefficient j before the command, or the sum, difference, left shift or
mask modulo 2^16, or the logical right shift, of coefficient j of the sources before the command; nothing else
changes. (R131, R132, R133, R134, R135, R136, R137, R138) -/
def Obligations.PolyZeroMoveElementwise : Prop :=
  ∀ (pd pa pb : PReg) (n : Fin 16) (s : State), Running s →
    WritesPoly (.pzero pd) s pd (fun _ => 0) ∧
    WritesPoly (.pmov pd pa) s pd (fun j => val (s.getP pa) j) ∧
    WritesPoly (.padd pd pa pb) s pd (fun j => (val (s.getP pa) j + val (s.getP pb) j) % 65536) ∧
    WritesPoly (.pacc pd pa) s pd (fun j => (val (s.getP pd) j + val (s.getP pa) j) % 65536) ∧
    WritesPoly (.psub pd pa pb) s pd (fun j => (val (s.getP pa) j - val (s.getP pb) j) % 65536) ∧
    WritesPoly (.pshl pd pa n) s pd (fun j => val (s.getP pa) j * 2 ^ n.val % 65536) ∧
    WritesPoly (.pshr pd pa n) s pd (fun j => val (s.getP pa) j / 2 ^ n.val) ∧
    WritesPoly (.pmod pd pa n) s pd (fun j => val (s.getP pa) j % 2 ^ n.val) ∧
    WordIs (.pzero pd) (0x20 * 2 ^ 24 + pd * 2 ^ 19) ∧
    WordIs (.pmov pd pa) (0x21 * 2 ^ 24 + pd * 2 ^ 19 + pa * 2 ^ 14) ∧
    WordIs (.padd pd pa pb) (0x22 * 2 ^ 24 + pd * 2 ^ 19 + pa * 2 ^ 14 + pb * 2 ^ 9) ∧
    WordIs (.pacc pd pa) (0x23 * 2 ^ 24 + pd * 2 ^ 19 + pa * 2 ^ 14) ∧
    WordIs (.psub pd pa pb) (0x24 * 2 ^ 24 + pd * 2 ^ 19 + pa * 2 ^ 14 + pb * 2 ^ 9) ∧
    WordIs (.pshl pd pa n) (0x26 * 2 ^ 24 + pd * 2 ^ 19 + pa * 2 ^ 14 + n * 2 ^ 10) ∧
    WordIs (.pshr pd pa n) (0x27 * 2 ^ 24 + pd * 2 ^ 19 + pa * 2 ^ 14 + n * 2 ^ 10) ∧
    WordIs (.pmod pd pa n) (0x28 * 2 ^ 24 + pd * 2 ^ 19 + pa * 2 ^ 14 + n * 2 ^ 10)

/-- Each takes MEM_RANGE when its 512 bytes would pass 0xFFFF; otherwise it completes: PLDC gives coefficient j the bytes
2j and 2j+1 at the address, low byte first; PSTC stores them so, and no other byte and no register changes. (R139,
R140) -/
def Obligations.PolyCoefficientArray : Prop :=
  ∀ (p : PReg) (ea : SReg) (s : State), Running s →
    let a := (s.getE ea).toNat
    (65536 < a + 512 → Faults (.pldc p ea) s 6 ∧ Faults (.pstc p ea) s 6) ∧
    (a + 512 ≤ 65536 →
      WritesPoly (.pldc p ea) s p
        (fun j => (s.readByte (a + 2 * j)).toNat + 256 * (s.readByte (a + (2 * j + 1))).toNat) ∧
      ∃ b : Bytes, b.length = 512 ∧ Stores (.pstc p ea) s a b ∧
        ∀ j, j < 256 → ((byteAt b (2 * j)).toNat : Int) = val (s.getP p) j % 256 ∧
          ((byteAt b (2 * j + 1)).toNat : Int) = val (s.getP p) j / 256) ∧
    WordIs (.pldc p ea) (0x29 * 2 ^ 24 + p * 2 ^ 19 + ea * 2 ^ 15) ∧
    WordIs (.pstc p ea) (0x2A * 2 ^ 24 + p * 2 ^ 19 + ea * 2 ^ 15)

/-- With no fault recorded PGETC completes with the chosen coefficient in the scalar register, and PSETC with the scalar
in the chosen coefficient and the other 255 as before, for all 256 indexes; nothing else changes. (R141, R142) -/
def Obligations.PolyCoefficientAccess : Prop :=
  ∀ (e : SReg) (p : PReg) (idx : Fin 256) (s : State), Running s →
    WritesScalar (.pgetc e p idx) s e (val (s.getP p) idx) ∧
    WritesPoly (.psetc p idx e) s p (fun j => if j = idx.val then num s e else val (s.getP p) j) ∧
    WordIs (.pgetc e p idx) (0x2B * 2 ^ 24 + e * 2 ^ 20 + p * 2 ^ 15 + idx) ∧
    WordIs (.psetc p idx e) (0x2C * 2 ^ 24 + e * 2 ^ 20 + p * 2 ^ 15 + idx)

/-- With no fault recorded PMUL completes for every operand, the registers equal or not: coefficient k of the destination
is the double sum of the products over i+j = k minus those over i+j = k+256, in unbounded integers, modulo 2^16.
Nothing else changes. (R160) -/
def Obligations.PolyMultiplyIsTheNegacyclicSum : Prop :=
  ∀ (pd pa pb : PReg) (s : State), Running s →
    WritesPoly (.pmul pd pa pb) s pd (fun k => negacyclic (val (s.getP pa)) (val (s.getP pb)) k % 65536) ∧
    WordIs (.pmul pd pa pb) (0x25 * 2 ^ 24 + pd * 2 ^ 19 + pa * 2 ^ 14 + pb * 2 ^ 9)

/-- For all polynomials: a·b = b·a; a·1 = a; a·X moves every coefficient up one place and negates the one that wraps;
X^255·X = -1; and for every eps up to 16 the product modulo 2^eps is the negacyclic sum of the operands taken modulo
2^eps first. (R100, R101, R160) -/
def Obligations.PolyMultiplyRingLaws : Prop :=
  (∀ a b : Poly, polyMul a b = polyMul b a) ∧
  (∀ a : Poly, polyMul a (monomial 0) = a) ∧
  (∀ (a : Poly) (k : Nat), k < 256 → val (polyMul a (monomial 1)) k =
    if k = 0 then (0 - val a 255) % 65536 else val a (k - 1)) ∧
  (∀ k : Nat, k < 256 → val (polyMul (monomial 255) (monomial 1)) k = if k = 0 then 65535 else 0) ∧
  (∀ (a b : Poly) (eps k : Nat), eps ≤ 16 → k < 256 → val (polyMul a b) k % 2 ^ eps =
    negacyclic (fun i => val a i % 2 ^ eps) (fun j => val b j % 2 ^ eps) k % 2 ^ eps)

/-- For arrays of any power-of-two length the procedure's entry k is the sum of a[i]·b[j] over i+j = k modulo 2^16, and
its last entry is 0; and for all polynomials the fold of its 512 values is the product PMUL is defined by. (R165) -/
def Obligations.KaratsubaAgreesWithTheSchoolbookSum : Prop :=
  (∀ (d : Nat) (a b : List Word), a.length = 2 ^ d → b.length = 2 ^ d →
    (kara d a b).length = 2 * 2 ^ d ∧ (kara d a b).getD (2 * 2 ^ d - 1) 0#16 = 0#16 ∧
    ∀ k, k < 2 * 2 ^ d → (((kara d a b).getD k 0#16).toNat : Int) =
      (∑ i ∈ Finset.range (2 ^ d), ∑ j ∈ Finset.range (2 ^ d),
        if i + j = k then ((a.getD i 0#16).toNat : Int) * (b.getD j 0#16).toNat else 0) % 65536) ∧
  (∀ a b : Poly, karaMul a b = polyMul a b)

/-- PENC takes WIDTH for an unsupported width, else MEM_RANGE when its 32·w bytes would pass 0xFFFF, else it completes:
the bytes at the address have as their little-endian value the sum of (coefficient i modulo 2^w)·2^(i·w), and stream
bit i·w+j is bit j of coefficient i. No other byte and no register changes. (R171, R173) -/
def Obligations.PackPolynomial : Prop :=
  ∀ (ps : PReg) (ea : SReg) (w : Fin 16) (s : State), Running s →
    let a := (s.getE ea).toNat
    let b := encodePoly (s.getP ps) w
    (w.val ∉ widths → Faults (.penc ps ea w) s 3) ∧
    (w.val ∈ widths → 65536 < a + 32 * w.val → Faults (.penc ps ea w) s 6) ∧
    (w.val ∈ widths → a + 32 * w.val ≤ 65536 → Stores (.penc ps ea w) s a b ∧ b.length = 32 * w.val ∧
      (le b : Int) = ∑ i ∈ Finset.range 256, val (s.getP ps) i % 2 ^ w.val * 2 ^ (i * w.val) ∧
      ∀ i j, i < 256 → j < w.val → (streamBit b (i * w.val + j) : Int) = val (s.getP ps) i / 2 ^ j % 2) ∧
    WordIs (.penc ps ea w) (0x30 * 2 ^ 24 + ps * 2 ^ 19 + ea * 2 ^ 15 + w * 2 ^ 11)

/-- PDEC takes WIDTH for an unsupported width, else MEM_RANGE when its 32·w bytes would pass 0xFFFF, else it completes
whatever the bytes: coefficient i of the destination is the floor of the bytes' little-endian value over 2^(i·w),
modulo 2^w. Nothing else changes. (R172, R174) -/
def Obligations.UnpackPolynomial : Prop :=
  ∀ (pd : PReg) (ea : SReg) (w : Fin 16) (s : State), Running s →
    let a := (s.getE ea).toNat
    let b := s.memRead a (32 * w)
    (w.val ∉ widths → Faults (.pdec pd ea w) s 3) ∧
    (w.val ∈ widths → 65536 < a + 32 * w.val → Faults (.pdec pd ea w) s 6) ∧
    (w.val ∈ widths → a + 32 * w.val ≤ 65536 →
      WritesPoly (.pdec pd ea w) s pd (fun i => (le b : Int) / 2 ^ (i * w.val) % 2 ^ w.val) ∧
      ∃ t, exec (.pdec pd ea w) s = .next t ∧ t.getP pd = decodePoly b w) ∧
    WordIs (.pdec pd ea w) (0x31 * 2 ^ 24 + pd * 2 ^ 19 + ea * 2 ^ 15 + w * 2 ^ 11)

/-- For every supported width: encoding the decoding of any string of the right length gives it back; decoding the
encoding of a polynomial gives each coefficient modulo 2^eps, which is the coefficient exactly when it is below 2^eps;
and both hold element by element for a vector of any number of rows. (R175) -/
def Obligations.CodecRoundTrips : Prop :=
  ∀ eps ∈ widths,
    (∀ b : Bytes, b.length = 32 * eps → encodePoly (decodePoly b eps) eps = b) ∧
    (∀ (q : Poly) (i : Nat), i < 256 → val (decodePoly (encodePoly q eps) eps) i = val q i % 2 ^ eps ∧
      (val (decodePoly (encodePoly q eps) eps) i = val q i ↔ val q i < 2 ^ eps)) ∧
    (∀ (r : Nat) (b : Bytes), b.length = r * (32 * eps) → vecEncode (vecDecode b r eps) eps = b) ∧
    (∀ (v : List Poly) (k i : Nat), k < v.length → i < 256 →
      val (elt (vecDecode (vecEncode v eps) v.length eps) k) i = val (elt v k) i % 2 ^ eps)

/-- PCBD takes WIDTH for mu other than 6, 8, 10, else MEM_RANGE when its 32·mu bytes would pass 0xFFFF, else it completes:
coefficient i is the number of ones in the first mu/2 bits of field i of the stream minus the number in the next mu/2
bits, modulo 2^16, so it stands for a value from -mu/2 to mu/2. Nothing else changes. (R211, R212) -/
def Obligations.SampleCentredBinomial : Prop :=
  ∀ (pd : PReg) (ea : SReg) (mu : Fin 16) (s : State), Running s →
    let a := (s.getE ea).toNat
    let b := s.memRead a (32 * mu)
    let h := mu.val / 2
    (mu.val ∉ [6, 8, 10] → Faults (.pcbd pd ea mu) s 3) ∧
    (mu.val ∈ [6, 8, 10] → 65536 < a + 32 * mu.val → Faults (.pcbd pd ea mu) s 6) ∧
    (mu.val ∈ [6, 8, 10] → a + 32 * mu.val ≤ 65536 →
      WritesPoly (.pcbd pd ea mu) s pd (fun i => (ones b (i * mu.val) h - ones b (i * mu.val + h) h) % 65536) ∧
      ∃ t, exec (.pcbd pd ea mu) s = .next t ∧ ∀ i, i < 256 →
        val (t.getP pd) i ≤ h ∨ 65536 - h ≤ val (t.getP pd) i) ∧
    WordIs (.pcbd pd ea mu) (0x50 * 2 ^ 24 + pd * 2 ^ 19 + ea * 2 ^ 15 + mu * 2 ^ 11)

/-- PUNI takes MEM_RANGE when its 64 bytes would pass 0xFFFF; otherwise it completes whatever the profile: coefficient i
is stream bit 2i minus stream bit 2i+1 of the bytes, modulo 2^16. Nothing else changes. (R213, R214) -/
def Obligations.SampleUniform : Prop :=
  ∀ (pd : PReg) (ea : SReg) (s : State), Running s →
    let a := (s.getE ea).toNat
    let b := s.memRead a 64
    (65536 < a + 64 → Faults (.puni pd ea) s 6) ∧
    (a + 64 ≤ 65536 →
      WritesPoly (.puni pd ea) s pd (fun i => ((streamBit b (2 * i) : Int) - streamBit b (2 * i + 1)) % 65536)) ∧
    WordIs (.puni pd ea) (0x51 * 2 ^ 24 + pd * 2 ^ 19 + ea * 2 ^ 15)

/-- MADD takes SHAPE when r or c is outside 1..4, else PREG_RANGE when a run of r·c registers would pass P31, else it
completes: coefficient j of element i is the sum of the sources' before the command modulo 2^16, the runs overlapping
or not. Nothing outside the destination run changes. (R183) -/
def Obligations.MatrixAdd : Prop :=
  ∀ (pd pa pb : PReg) (r c : Fin 8) (s : State), Running s →
    let n := r.val * c.val
    (BadDim r ∨ BadDim c → Faults (.madd pd pa pb r c) s 4) ∧
    (¬BadDim r → ¬BadDim c → 32 < pd.val + n ∨ 32 < pa.val + n ∨ 32 < pb.val + n →
      Faults (.madd pd pa pb r c) s 5) ∧
    (¬BadDim r → ¬BadDim c → pd.val + n ≤ 32 → pa.val + n ≤ 32 → pb.val + n ≤ 32 →
      WritesRun (.madd pd pa pb r c) s pd n
        (fun i j => (val (s.getP (pa + i)) j + val (s.getP (pb + i)) j) % 65536)) ∧
    WordIs (.madd pd pa pb r c) (0x40 * 2 ^ 24 + pd * 2 ^ 19 + pa * 2 ^ 14 + pb * 2 ^ 9 + r * 2 ^ 6 + c * 2 ^ 3)

/-- Each of the three takes SHAPE when r or c is outside 1..4, else PREG_RANGE when a run would pass P31, else it
completes: coefficient j of element i is the left shift modulo 2^16, the logical right shift, or the value modulo 2^k,
of the source's before the command. Nothing outside the destination run changes. (R184, R185, R186) -/
def Obligations.MatrixShiftAndMask : Prop :=
  ∀ (pd pa : PReg) (r c : Fin 8) (k : Fin 16) (s : State), Running s →
    let n := r.val * c.val
    (BadDim r ∨ BadDim c →
      Faults (.mshl pd pa r c k) s 4 ∧ Faults (.mshr pd pa r c k) s 4 ∧ Faults (.mmod pd pa r c k) s 4) ∧
    (¬BadDim r → ¬BadDim c → 32 < pd.val + n ∨ 32 < pa.val + n →
      Faults (.mshl pd pa r c k) s 5 ∧ Faults (.mshr pd pa r c k) s 5 ∧ Faults (.mmod pd pa r c k) s 5) ∧
    (¬BadDim r → ¬BadDim c → pd.val + n ≤ 32 → pa.val + n ≤ 32 →
      WritesRun (.mshl pd pa r c k) s pd n (fun i j => val (s.getP (pa + i)) j * 2 ^ k.val % 65536) ∧
      WritesRun (.mshr pd pa r c k) s pd n (fun i j => val (s.getP (pa + i)) j / 2 ^ k.val) ∧
      WritesRun (.mmod pd pa r c k) s pd n (fun i j => val (s.getP (pa + i)) j % 2 ^ k.val)) ∧
    WordIs (.mshl pd pa r c k) (0x41 * 2 ^ 24 + pd * 2 ^ 19 + pa * 2 ^ 14 + r * 2 ^ 11 + c * 2 ^ 8 + k * 2 ^ 4) ∧
    WordIs (.mshr pd pa r c k) (0x42 * 2 ^ 24 + pd * 2 ^ 19 + pa * 2 ^ 14 + r * 2 ^ 11 + c * 2 ^ 8 + k * 2 ^ 4) ∧
    WordIs (.mmod pd pa r c k) (0x43 * 2 ^ 24 + pd * 2 ^ 19 + pa * 2 ^ 14 + r * 2 ^ 11 + c * 2 ^ 8 + k * 2 ^ 4)

/-- MTRN takes SHAPE when r or c is outside 1..4 or they differ, else PREG_RANGE when a run of r·r registers would pass
P31, else it completes: element (i, j) of the destination is element (j, i) of the source before the command, also in
place. Nothing outside the destination run changes. (R187) -/
def Obligations.MatrixTranspose : Prop :=
  ∀ (pd pa : PReg) (r c : Fin 8) (s : State), Running s →
    let n := r.val * r.val
    (BadDim r ∨ BadDim c ∨ r ≠ c → Faults (.mtrn pd pa r c) s 4) ∧
    (¬BadDim r → r = c → 32 < pd.val + n ∨ 32 < pa.val + n → Faults (.mtrn pd pa r c) s 5) ∧
    (¬BadDim r → r = c → pd.val + n ≤ 32 → pa.val + n ≤ 32 →
      ∃ t, exec (.mtrn pd pa r c) s = .next t ∧
        (∀ i j, i < r.val → j < r.val → t.getP (pd + i * r.val + j) = s.getP (pa + j * r.val + i)) ∧
        FramePolys s t pd n) ∧
    WordIs (.mtrn pd pa r c) (0x44 * 2 ^ 24 + pd * 2 ^ 19 + pa * 2 ^ 14 + r * 2 ^ 11 + c * 2 ^ 8)

/-- MVMUL takes SHAPE when r or c is outside 1..4 or they differ, else PREG_RANGE when the matrix, the vector or the
result would pass P31, else it completes: coefficient k of row i is the sum over j of the negacyclic products of
A[i][j] and v[j], in unbounded integers, modulo 2^16. Nothing outside the destination run changes. (R188) -/
def Obligations.MatrixVectorProduct : Prop :=
  ∀ (pd pa pb : PReg) (r c : Fin 8) (s : State), Running s →
    let L := r.val
    (BadDim r ∨ BadDim c ∨ r ≠ c → Faults (.mvmul pd pa pb r c) s 4) ∧
    (¬BadDim r → r = c → 32 < pa.val + L * L ∨ 32 < pb.val + L ∨ 32 < pd.val + L → Faults (.mvmul pd pa pb r c) s 5) ∧
    (¬BadDim r → r = c → pa.val + L * L ≤ 32 → pb.val + L ≤ 32 → pd.val + L ≤ 32 →
      WritesRun (.mvmul pd pa pb r c) s pd L (fun i k =>
        (∑ j ∈ Finset.range L, negacyclic (val (s.getP (pa + i * L + j))) (val (s.getP (pb + j))) k) % 65536)) ∧
    WordIs (.mvmul pd pa pb r c) (0x45 * 2 ^ 24 + pd * 2 ^ 19 + pa * 2 ^ 14 + pb * 2 ^ 9 + r * 2 ^ 6 + c * 2 ^ 3)

/-- MINNER takes SHAPE when r or c is outside 1..4 or c is not 1, else PREG_RANGE when a vector would pass P31, else it
completes: coefficient k of the destination is the sum over i of the negacyclic products of a[i] and b[i], in
unbounded integers, modulo 2^16. Nothing else changes. (R189) -/
def Obligations.VectorInnerProduct : Prop :=
  ∀ (pd pa pb : PReg) (r c : Fin 8) (s : State), Running s →
    let L := r.val
    (BadDim r ∨ BadDim c ∨ c ≠ 1 → Faults (.minner pd pa pb r c) s 4) ∧
    (¬BadDim r → c = 1 → 32 < pa.val + L ∨ 32 < pb.val + L → Faults (.minner pd pa pb r c) s 5) ∧
    (¬BadDim r → c = 1 → pa.val + L ≤ 32 → pb.val + L ≤ 32 →
      WritesPoly (.minner pd pa pb r c) s pd (fun k =>
        (∑ i ∈ Finset.range L, negacyclic (val (s.getP (pa + i))) (val (s.getP (pb + i))) k) % 65536)) ∧
    WordIs (.minner pd pa pb r c) (0x46 * 2 ^ 24 + pd * 2 ^ 19 + pa * 2 ^ 14 + pb * 2 ^ 9 + r * 2 ^ 6 + c * 2 ^ 3)

/-- MENC takes the first of WIDTH, SHAPE, PREG_RANGE, MEM_RANGE that applies, else it completes: the r·32·w bytes at the
address are the packings of the r rows in order, stream bit (i·256+k)·w+j being bit j of coefficient k of row i. No
other byte and no register changes. (R190) -/
def Obligations.PackVector : Prop :=
  ∀ (ps : PReg) (ea : SReg) (w : Fin 16) (r c : Fin 8) (s : State), Running s →
    let a := (s.getE ea).toNat
    let n := r.val * (32 * w.val)
    let b := vecEncode (s.getRun ps r) w
    (w.val ∉ widths → Faults (.menc ps ea w r c) s 3) ∧
    (w.val ∈ widths → BadDim r ∨ BadDim c ∨ c ≠ 1 → Faults (.menc ps ea w r c) s 4) ∧
    (w.val ∈ widths → ¬BadDim r → c = 1 → 32 < ps.val + r.val → Faults (.menc ps ea w r c) s 5) ∧
    (w.val ∈ widths → ¬BadDim r → c = 1 → ps.val + r.val ≤ 32 → 65536 < a + n → Faults (.menc ps ea w r c) s 6) ∧
    (w.val ∈ widths → ¬BadDim r → c = 1 → ps.val + r.val ≤ 32 → a + n ≤ 65536 →
      Stores (.menc ps ea w r c) s a b ∧ b.length = n ∧
      ∀ i k j, i < r.val → k < 256 → j < w.val →
        (streamBit b ((i * 256 + k) * w.val + j) : Int) = val (s.getP (ps + i)) k / 2 ^ j % 2) ∧
    WordIs (.menc ps ea w r c) (0x47 * 2 ^ 24 + ps * 2 ^ 19 + ea * 2 ^ 15 + w * 2 ^ 11 + r * 2 ^ 8 + c * 2 ^ 5)

/-- MDEC takes the first of WIDTH, SHAPE, PREG_RANGE, MEM_RANGE that applies, else it completes: coefficient k of row i is
field k, at width w, of the 32·w bytes that start i·32·w after the address. Nothing outside the destination run
changes. (R191) -/
def Obligations.UnpackVector : Prop :=
  ∀ (pd : PReg) (ea : SReg) (w : Fin 16) (r c : Fin 8) (s : State), Running s →
    let a := (s.getE ea).toNat
    let m := 32 * w.val
    (w.val ∉ widths → Faults (.mdec pd ea w r c) s 3) ∧
    (w.val ∈ widths → BadDim r ∨ BadDim c ∨ c ≠ 1 → Faults (.mdec pd ea w r c) s 4) ∧
    (w.val ∈ widths → ¬BadDim r → c = 1 → 32 < pd.val + r.val → Faults (.mdec pd ea w r c) s 5) ∧
    (w.val ∈ widths → ¬BadDim r → c = 1 → pd.val + r.val ≤ 32 → 65536 < a + r.val * m →
      Faults (.mdec pd ea w r c) s 6) ∧
    (w.val ∈ widths → ¬BadDim r → c = 1 → pd.val + r.val ≤ 32 → a + r.val * m ≤ 65536 →
      WritesRun (.mdec pd ea w r c) s pd r
        (fun i k => (le (s.memRead (a + i * m) m) : Int) / 2 ^ (k * w.val) % 2 ^ w.val) ∧
      ∃ t, exec (.mdec pd ea w r c) s = .next t ∧
        ∀ i, i < r.val → t.getP (pd + i) = elt (vecDecode (s.memRead a (r.val * m)) r w) i) ∧
    WordIs (.mdec pd ea w r c) (0x48 * 2 ^ 24 + pd * 2 ^ 19 + ea * 2 ^ 15 + w * 2 ^ 11 + r * 2 ^ 8 + c * 2 ^ 5)

/-- GENMAT takes PROFILE when no profile is held, else PREG_RANGE when L·L registers would pass P31, else MEM_RANGE when
the 32-byte seed would pass 0xFFFF, else it completes: with S the L·L·32·eq bytes SHAKE-128 gives for the seed as it
stands, register pd+k is the decoding at width eq of the k-th block of 32·eq bytes of S. Nothing outside the
destination run changes. (R192, R193) -/
def Obligations.GenerateMatrix : Prop :=
  ∀ (pd : PReg) (ea : SReg) (s : State), Running s →
    let a := (s.getE ea).toNat
    let seed := s.memRead a 32
    (NoProfile s → Faults (.genmat pd ea) s 2) ∧
    (∀ pr, HoldsProfile s pr →
      let n := pr.L * pr.L
      let m := 32 * pr.epsQ
      let S := shake128 seed (n * m)
      (32 < pd.val + n → Faults (.genmat pd ea) s 5) ∧
      (pd.val + n ≤ 32 → 65536 < a + 32 → Faults (.genmat pd ea) s 6) ∧
      (pd.val + n ≤ 32 → a + 32 ≤ 65536 →
        WritesRun (.genmat pd ea) s pd n
          (fun k i => (le ((List.range m).map fun x => byteAt S (k * m + x)) : Int) / 2 ^ (i * pr.epsQ) % 2 ^ pr.epsQ) ∧
        ∃ t, exec (.genmat pd ea) s = .next t ∧
          ∀ k, k < n → t.getP (pd + k) = elt (genMatrix seed pr.L pr.epsQ) k)) ∧
    WordIs (.genmat pd ea) (0x49 * 2 ^ 24 + pd * 2 ^ 19 + ea * 2 ^ 15)

/-- GENSEC takes PROFILE when no profile is held, else PREG_RANGE when L registers would pass P31, else MEM_RANGE when the
seed would pass 0xFFFF, else it completes: with S the L·32·mu bytes SHAKE-128 gives for the seed, coefficient i of row
k is the ones of the first mu/2 bits minus the ones of the next mu/2 bits of the mu bits at stream bit (k·256+i)·mu of
S, modulo 2^16, for the CBD profiles and (mu = 2) the uniform ones alike. Nothing outside the destination run changes.
(R194, R195) -/
def Obligations.GenerateSecret : Prop :=
  ∀ (pd : PReg) (ea : SReg) (s : State), Running s →
    let a := (s.getE ea).toNat
    let seed := s.memRead a 32
    (NoProfile s → Faults (.gensec pd ea) s 2) ∧
    (∀ pr, HoldsProfile s pr →
      let h := pr.mu / 2
      let S := shake128 seed (pr.L * (32 * pr.mu))
      (32 < pd.val + pr.L → Faults (.gensec pd ea) s 5) ∧
      (pd.val + pr.L ≤ 32 → 65536 < a + 32 → Faults (.gensec pd ea) s 6) ∧
      (pd.val + pr.L ≤ 32 → a + 32 ≤ 65536 →
        WritesRun (.gensec pd ea) s pd pr.L
          (fun k i => (ones S ((k * 256 + i) * pr.mu) h - ones S ((k * 256 + i) * pr.mu + h) h) % 65536) ∧
        ∃ t, exec (.gensec pd ea) s = .next t ∧
          ∀ k, k < pr.L → t.getP (pd + k) = elt (genSecret seed pr.L pr.mu pr.uniform) k)) ∧
    WordIs (.gensec pd ea) (0x4A * 2 ^ 24 + pd * 2 ^ 19 + ea * 2 ^ 15)

/-- Id, L, eq, ep, et, mu, uniform, PK_LEN, SK_LEN, CT_LEN, PKE_SK_LEN, h1 and h2 of each of the six profiles are the
numbers of the tables of R7, R8 and R220; the lengths follow the formulas of R8, and every coefficient of h1 and of h2
is the constant. (R7, R8, R220) -/
def Obligations.ParameterTables : Prop :=
  Profile.all.map (fun pr => (pr.id, pr.L, pr.epsQ, pr.epsP, pr.epsT, pr.mu, pr.uniform)) =
    [(1, 2, 13, 10, 3, 10, false), (2, 3, 13, 10, 4, 8, false), (3, 4, 13, 10, 6, 6, false),
      (4, 2, 12, 10, 3, 2, true), (5, 3, 12, 10, 4, 2, true), (6, 4, 12, 10, 6, 2, true)] ∧
  Profile.all.map (fun pr => (pr.pkLen, pr.skLen, pr.ctLen, pr.pkeSkLen)) =
    [(672, 1568, 736, 832), (992, 2304, 1088, 1248), (1312, 3040, 1472, 1664),
      (672, 1504, 736, 768), (992, 2208, 1088, 1152), (1312, 2912, 1472, 1536)] ∧
  Profile.all.map (fun pr => (h1Value pr, h2Value pr)) =
    [(4, 196), (4, 228), (4, 252), (2, 194), (2, 226), (2, 250)] ∧
  (∀ pr : Profile, pr ∈ Profile.all ∧ pr.pkLen = 32 + pr.L * pr.epsP * 32 ∧ pr.pkeSkLen = pr.L * pr.epsQ * 32 ∧
    pr.ctLen = pr.L * pr.epsP * 32 + pr.epsT * 32 ∧ pr.skLen = pr.pkeSkLen + pr.pkLen + 32 + 32 ∧
    (h1Value pr : Int) = 2 ^ (pr.epsQ - pr.epsP - 1) ∧
    (h2Value pr : Int) = 2 ^ (pr.epsP - 2) - 2 ^ (pr.epsP - pr.epsT - 1) + 2 ^ (pr.epsQ - pr.epsP - 1) ∧
    ∀ j, j < 256 → val (h1 pr) j = h1Value pr ∧ val (h2 pr) j = h2Value pr)

/-- With no fault recorded, a SETPROF whose six fields are the tuple of a profile completes with PARAMS0 = L + 16·eq +
256·ep + 4096·et and PARAMS1 = mu + 16·u, that profile held and nothing else changed, whatever profile was held
before; with any other tuple it takes PROFILE, PARAMS0 and PARAMS1 staying. (R271) -/
def Obligations.SelectProfile : Prop :=
  ∀ (L : Fin 8) (eq ep : Fin 16) (et : Fin 8) (mu : Fin 16) (u : Fin 2) (s : State), Running s →
    (∀ pr : Profile, pr.tuple = ⟨L, eq, ep, et, mu, decide (u = 1)⟩ →
      ∃ t, exec (.setprof L eq ep et mu u) s = .next t ∧
        t.params0.toNat = L.val + 16 * eq.val + 256 * ep.val + 4096 * et.val ∧
        t.params1.toNat = mu.val + 16 * u.val ∧ HoldsProfile t pr ∧ FrameParams s t) ∧
    ((∀ pr : Profile, pr.tuple ≠ ⟨L, eq, ep, et, mu, decide (u = 1)⟩) → Faults (.setprof L eq ep et mu u) s 2) ∧
    WordIs (.setprof L eq ep et mu u) (0x01 * 2 ^ 24 + L * 2 ^ 21 + eq * 2 ^ 17 + ep * 2 ^ 13 + et * 2 ^ 10 + mu * 2 ^ 6 + u * 2 ^ 5)

/-- RDCSR takes ILLEGAL exactly for numbers 10 to 15; for 0 to 9 it completes with the register's value in the
destination: PARAMS0 and PARAMS1 as held; the id and the lengths PK_LEN, SK_LEN, CT_LEN, PKE_SK_LEN of the profile
held, 0 when none is; and 0 for STATUS when its CAUSE and reserved bits are 0, FINFO as held. PROFID is 0 exactly when
no profile is held, and the eight commands that need one then take PROFILE. A profile held is the only one. (R27, R28,
R29, R30, R31, R272) -/
def Obligations.ReadControlRegister : Prop :=
  ∀ (ed : SReg) (csr : Fin 16) (s : State), Running s →
    (9 < csr.val → Faults (.rdcsr ed csr) s 1) ∧
    (csr.val ≤ 9 → ∃ v : Word, WritesScalar (.rdcsr ed csr) s ed v.toNat ∧ s.csr? csr = some v ∧
      (csr = 0 → v = s.params0) ∧ (csr = 1 → v = s.params1) ∧
      (∀ pr, HoldsProfile s pr →
        (csr = 2 → v.toNat = pr.id) ∧ (csr = 3 → v.toNat = pr.pkLen) ∧ (csr = 4 → v.toNat = pr.skLen) ∧
        (csr = 5 → v.toNat = pr.ctLen) ∧ (csr = 6 → v.toNat = pr.pkeSkLen)) ∧
      (NoProfile s → 2 ≤ csr.val → csr.val ≤ 6 → v = 0#16) ∧
      (csr = 7 → v = s.status) ∧ (csr = 8 → v = s.finfoLo) ∧ (csr = 9 → v = s.finfoHi)) ∧
    (∀ pr pr', HoldsProfile s pr → HoldsProfile s pr' → pr = pr') ∧
    (NoProfile s → ∀ (pd : PReg) (ea es : SReg),
      Faults (.genmat pd ea) s 2 ∧ Faults (.gensec pd ea) s 2 ∧ Faults (.pkeKeygen ed es) s 2 ∧
      Faults (.pkeEnc ed es) s 2 ∧ Faults (.pkeDec ed es) s 2 ∧ Faults (.kemKeygen ed es) s 2 ∧
      Faults (.kemEncaps ed es) s 2 ∧ Faults (.kemDecaps ed es) s 2) ∧
    (StateInv s → s.csr? 7 = some 0#16 ∧ s.csr? 8 = some 0#16 ∧ s.csr? 9 = some 0#16) ∧
    WordIs (.rdcsr ed csr) (0x02 * 2 ^ 24 + ed * 2 ^ 20 + csr * 2 ^ 16)

/-- However the input is split into absorb calls from the initial state, the unit has absorbed the concatenation; after
finalize the digest is the function of the whole input, and two successive squeezes give together SHAKE128 of the
input at the summed length; reset gives the initial state. The three functions the commands use give 32, 64 and n
bytes, a shorter SHAKE128 output is the start of a longer one, and each is the output of one complete transaction
(R305) that leaves its unit initial. The model's choices and no rule of the spec: that a second finalize has no answer
(log entry 3; R302 does not say what it does), and that a unit has no kind, so that one unit stands for both the
digest and the squeeze clause (log entry 14). (R11, R301, R302, R303, R304, R305) -/
def Obligations.SpongeTransactions : Prop :=
  (∀ (h : Bytes → Bytes) (pieces : List Bytes), ∃ u u' : SpongeUnit,
    pieces.foldlM spongeAbsorb spongeInitial = some u ∧ spongeFinalize u = some u' ∧ spongeFinalize u' = none ∧
    spongeDigest h u' = some (h pieces.flatten) ∧
    (∀ n m : Nat, ∃ x y u1 u2, spongeSqueeze u' n = some (x, u1) ∧ spongeSqueeze u1 m = some (y, u2) ∧
      x ++ y = shake128 pieces.flatten (n + m) ∧ spongeReset u2 = spongeInitial) ∧ spongeReset u' = spongeInitial) ∧
  (∀ x : Bytes, hashH x = (Config.sha3_256 x).toList ∧ hashG x = (Config.sha3_512 x).toList ∧
    (hashH x).length = 32 ∧ (hashG x).length = 64 ∧
    digestTransaction (fun m => (Config.sha3_256 m).toList) x = some (hashH x, spongeInitial) ∧
    digestTransaction (fun m => (Config.sha3_512 m).toList) x = some (hashG x, spongeInitial) ∧
    ∀ n m : Nat, n ≤ m → (shake128 x n).length = n ∧ shake128 x n = (shake128 x m).take n ∧
      squeezeTransaction x n = some (shake128 x n, spongeInitial))

/-- For every profile and both seeds: with seedA' the 32 bytes of SHAKE128(seedA), A = GenMatrix(seedA') and s =
GenSecret(seedS), coefficient k of b_p[i] is ((sum over j of the negacyclic product of A[j][i] and s[j]) + 2^(eq-
ep-1)) modulo 2^eq, over 2^(eq-ep), modulo 2^ep, the sum in unbounded integers; pk is the packing of b_p at ep and
then seedA', sk_pke the packing of s at eq. (R223, R224) -/
def Obligations.PkeKeygenFunction : Prop :=
  ∀ (pr : Profile) (seedA seedS : Bytes),
    let seedA' := shake128 seedA 32
    let A := genMatrix seedA' pr.L pr.epsQ
    let s := genSecret seedS pr.L pr.mu pr.uniform
    ∃ bp : List Poly, bp.length = pr.L ∧
      (∀ i k, i < pr.L → k < 256 → val (elt bp i) k =
        ((∑ j ∈ Finset.range pr.L, negacyclic (val (elt A (j * pr.L + i))) (val (elt s j)) k) +
          2 ^ (pr.epsQ - pr.epsP - 1)) % 2 ^ pr.epsQ / 2 ^ (pr.epsQ - pr.epsP) % 2 ^ pr.epsP) ∧
      pkeKeygen pr seedA seedS = (vecEncode bp pr.epsP ++ seedA', vecEncode s pr.epsQ) ∧
      (pkeKeygen pr seedA seedS).1.length = pr.pkLen ∧ (pkeKeygen pr seedA seedS).2.length = pr.pkeSkLen ∧
      (vecEncode bp pr.epsP).length = pr.L * 320

/-- For every profile, message, randomness and pk of the right length: A comes from the last 32 bytes of pk; b'_p rounds
A·s' as key generation does, A not transposed; v' is the inner product of the unpacked b and s' modulo 2^ep, modulo
2^ep; m_p has bit i of the message at weight 2^(ep-1); c_m is (v' - m_p + h1) modulo 2^16, over 2^(ep-et), modulo
2^et; ct is the packing of b'_p at ep and then of c_m at et. (R226, R227, R229) -/
def Obligations.PkeEncryptFunction : Prop :=
  ∀ (pr : Profile) (msg seedS pk : Bytes), msg.length = 32 → seedS.length = 32 → pk.length = pr.pkLen →
    let A := genMatrix (pk.drop (pr.L * 320)) pr.L pr.epsQ
    let s' := genSecret seedS pr.L pr.mu pr.uniform
    let b := vecDecode (pk.take (pr.L * 320)) pr.L pr.epsP
    let h1 : Int := 2 ^ (pr.epsQ - pr.epsP - 1)
    let v' : Nat → Int := fun k => (∑ i ∈ Finset.range pr.L,
      negacyclic (val (elt b i)) (fun j => val (elt s' i) j % 2 ^ pr.epsP) k) % 2 ^ pr.epsP
    let mp : Nat → Int := fun k => streamBit msg k * 2 ^ (pr.epsP - 1) % 2 ^ pr.epsP
    ∃ (bp : List Poly) (cm : Poly), bp.length = pr.L ∧
      (∀ i k, i < pr.L → k < 256 → val (elt bp i) k =
        ((∑ j ∈ Finset.range pr.L, negacyclic (val (elt A (i * pr.L + j))) (val (elt s' j)) k) + h1) %
          2 ^ pr.epsQ / 2 ^ (pr.epsQ - pr.epsP) % 2 ^ pr.epsP) ∧
      (∀ k, k < 256 → val cm k = (v' k - mp k + h1) % 65536 / 2 ^ (pr.epsP - pr.epsT) % 2 ^ pr.epsT) ∧
      pkeEncrypt pr msg seedS pk = vecEncode bp pr.epsP ++ encodePoly cm pr.epsT ∧
      (pkeEncrypt pr msg seedS pk).length = pr.ctLen ∧ (vecEncode bp pr.epsP).length = pr.L * 320

/-- For every profile, ct and sk_pke of the right lengths: with s, b' and c_m unpacked and c_m shifted left by ep-et, v
the inner product of b' and s modulo 2^ep, message bit i is ((v[i] - (c_m[i] modulo 2^ep) + h2) modulo 2^16) over
2^(ep-1), modulo 2. The message has 32 bytes; nothing is checked. (R230) -/
def Obligations.PkeDecryptFunction : Prop :=
  ∀ (pr : Profile) (ct sk : Bytes), ct.length = pr.ctLen → sk.length = pr.pkeSkLen →
    let s := vecDecode sk pr.L pr.epsQ
    let b' := vecDecode (ct.take (pr.L * 320)) pr.L pr.epsP
    let d := decodePoly (ct.drop (pr.L * 320)) pr.epsT
    let cm : Nat → Int := fun k => val d k * 2 ^ (pr.epsP - pr.epsT) % 65536
    let v : Nat → Int := fun k => (∑ i ∈ Finset.range pr.L,
      negacyclic (val (elt b' i)) (fun j => val (elt s i) j % 2 ^ pr.epsP) k) % 65536
    let h2 : Int := 2 ^ (pr.epsP - 2) - 2 ^ (pr.epsP - pr.epsT - 1) + 2 ^ (pr.epsQ - pr.epsP - 1)
    (pkeDecrypt pr ct sk).length = 32 ∧
    ∀ k, k < 256 → (streamBit (pkeDecrypt pr ct sk) k : Int) =
      (v k - cm k % 2 ^ pr.epsP + h2) % 65536 / 2 ^ (pr.epsP - 1) % 2

/-- For every profile and all strings: encryption without the mod q of step 4, without the mod p of v', of m_p and of s',
and decryption without the mod p of s and of c_m, give the same bytes; and so does key generation without the mod q of
its step 4. (R233) -/
def Obligations.PkeMasksAreRedundant : Prop :=
  (∀ (pr : Profile) (y : Poly), roundToP pr y =
    polyMod (polyShr (polyAdd y (h1 pr)) (pr.epsQ - pr.epsP)) pr.epsP) ∧
  (∀ (pr : Profile) (msg seedS pk : Bytes), pkeEncrypt pr msg seedS pk =
    let A := genMatrix (slice pk (pr.L * 320) (pr.L * 320 + 32)) pr.L pr.epsQ
    let s' := genSecret seedS pr.L pr.mu pr.uniform
    let bp := (matVec A s' pr.L).map fun y =>
      polyMod (polyShr (polyAdd y (h1 pr)) (pr.epsQ - pr.epsP)) pr.epsP
    let v' := inner (vecDecode (slice pk 0 (pr.L * 320)) pr.L pr.epsP) s' pr.L
    let mp := polyShl (decodePoly msg 1) (pr.epsP - 1)
    let cm := polyMod (polyShr (polyAdd (polySub v' mp) (h1 pr)) (pr.epsP - pr.epsT)) pr.epsT
    vecEncode bp pr.epsP ++ encodePoly cm pr.epsT) ∧
  (∀ (pr : Profile) (ct sk : Bytes), pkeDecrypt pr ct sk =
    let s := vecDecode sk pr.L pr.epsQ
    let cm := polyShl (decodePoly (slice ct (pr.L * 320) (pr.L * 320 + 32 * pr.epsT)) pr.epsT) (pr.epsP - pr.epsT)
    let v := inner (vecDecode (slice ct 0 (pr.L * 320)) pr.L pr.epsP) s pr.L
    encodePoly (polyMod (polyShr (polyAdd (polySub v cm) (h2 pr)) (pr.epsP - 1)) 1) 1)

/-- PKE.KEYGEN takes PROFILE when no profile is held, else MEM_RANGE when the source or the destination would pass 0xFFFF,
else it completes: the destination holds pk and then sk_pke of PkeKeygen on the two seeds read before the command, the
buffers overlapping or not. No other byte and no register changes. (R225) -/
def Obligations.PkeKeygenCommand : Prop :=
  ∀ (ed es : SReg) (s : State), Running s →
    let src := (s.getE es).toNat
    let dst := (s.getE ed).toNat
    (NoProfile s → Faults (.pkeKeygen ed es) s 2) ∧
    (∀ pr, HoldsProfile s pr →
      let nin := 64
      let nout := pr.pkLen + pr.pkeSkLen
      (65536 < src + nin ∨ 65536 < dst + nout → Faults (.pkeKeygen ed es) s 6) ∧
      (src + nin ≤ 65536 → dst + nout ≤ 65536 →
        let k := pkeKeygen pr (s.memRead src 32) (s.memRead (src + 32) 32)
        Stores (.pkeKeygen ed es) s dst (k.1 ++ k.2) ∧ (k.1 ++ k.2).length = nout)) ∧
    WordIs (.pkeKeygen ed es) (0x60 * 2 ^ 24 + ed * 2 ^ 20 + es * 2 ^ 16)

/-- PKE.ENC takes PROFILE when no profile is held, else MEM_RANGE when the source or the destination would pass 0xFFFF,
else it completes: the destination holds PkeEncrypt of the message, the randomness and pk read before the command. No
other byte and no register changes. (R228) -/
def Obligations.PkeEncryptCommand : Prop :=
  ∀ (ed es : SReg) (s : State), Running s →
    let src := (s.getE es).toNat
    let dst := (s.getE ed).toNat
    (NoProfile s → Faults (.pkeEnc ed es) s 2) ∧
    (∀ pr, HoldsProfile s pr →
      let nin := 64 + pr.pkLen
      let nout := pr.ctLen
      (65536 < src + nin ∨ 65536 < dst + nout → Faults (.pkeEnc ed es) s 6) ∧
      (src + nin ≤ 65536 → dst + nout ≤ 65536 →
        let ct := pkeEncrypt pr (s.memRead src 32) (s.memRead (src + 32) 32) (s.memRead (src + 64) pr.pkLen)
        Stores (.pkeEnc ed es) s dst ct ∧ ct.length = nout)) ∧
    WordIs (.pkeEnc ed es) (0x61 * 2 ^ 24 + ed * 2 ^ 20 + es * 2 ^ 16)

/-- PKE.DEC takes PROFILE when no profile is held, else MEM_RANGE when the source or the destination would pass 0xFFFF,
else it completes: the destination holds PkeDecrypt of the cipher text and sk_pke read before the command. No other
byte and no register changes. (R231) -/
def Obligations.PkeDecryptCommand : Prop :=
  ∀ (ed es : SReg) (s : State), Running s →
    let src := (s.getE es).toNat
    let dst := (s.getE ed).toNat
    (NoProfile s → Faults (.pkeDec ed es) s 2) ∧
    (∀ pr, HoldsProfile s pr →
      let nin := pr.ctLen + pr.pkeSkLen
      let nout := 32
      (65536 < src + nin ∨ 65536 < dst + nout → Faults (.pkeDec ed es) s 6) ∧
      (src + nin ≤ 65536 → dst + nout ≤ 65536 →
        let msg := pkeDecrypt pr (s.memRead src pr.ctLen) (s.memRead (src + pr.ctLen) pr.pkeSkLen)
        Stores (.pkeDec ed es) s dst msg ∧ msg.length = nout)) ∧
    WordIs (.pkeDec ed es) (0x62 * 2 ^ 24 + ed * 2 ^ 20 + es * 2 ^ 16)

/-- KEM.KEYGEN takes PROFILE when no profile is held, else MEM_RANGE when the source or the destination would pass 0xFFFF,
else it completes: the destination holds pk and then sk, sk being sk_pke, pk, H(pk) and z one after the other, from
the two seeds and z read before the command. No other byte and no register changes. (R242, R243, R245) -/
def Obligations.KemKeygenCommand : Prop :=
  ∀ (ed es : SReg) (s : State), Running s →
    let src := (s.getE es).toNat
    let dst := (s.getE ed).toNat
    (NoProfile s → Faults (.kemKeygen ed es) s 2) ∧
    (∀ pr, HoldsProfile s pr →
      let nin := 96
      let nout := pr.pkLen + pr.skLen
      (65536 < src + nin ∨ 65536 < dst + nout → Faults (.kemKeygen ed es) s 6) ∧
      (src + nin ≤ 65536 → dst + nout ≤ 65536 →
        let k := pkeKeygen pr (s.memRead src 32) (s.memRead (src + 32) 32)
        let sk := k.2 ++ k.1 ++ hashH k.1 ++ s.memRead (src + 64) 32
        Stores (.kemKeygen ed es) s dst (k.1 ++ sk) ∧ (k.1 ++ sk).length = nout ∧ sk.length = pr.skLen)) ∧
    WordIs (.kemKeygen ed es) (0x70 * 2 ^ 24 + ed * 2 ^ 20 + es * 2 ^ 16)

/-- KEM.ENCAPS takes PROFILE when no profile is held, else MEM_RANGE when the source or the destination would pass 0xFFFF,
else it completes: with kr = G(H(m) then H(pk)), ct encrypts H(m) with the last 32 bytes of kr, and ss = H(the first
32 bytes of kr, then H(ct)). The destination holds ct and then ss; no other byte and no register changes. (R246, R247) -/
def Obligations.KemEncapsCommand : Prop :=
  ∀ (ed es : SReg) (s : State), Running s →
    let src := (s.getE es).toNat
    let dst := (s.getE ed).toNat
    (NoProfile s → Faults (.kemEncaps ed es) s 2) ∧
    (∀ pr, HoldsProfile s pr →
      let nin := 32 + pr.pkLen
      let nout := pr.ctLen + 32
      (65536 < src + nin ∨ 65536 < dst + nout → Faults (.kemEncaps ed es) s 6) ∧
      (src + nin ≤ 65536 → dst + nout ≤ 65536 →
        let m := s.memRead src 32
        let pk := s.memRead (src + 32) pr.pkLen
        let kr := hashG (hashH m ++ hashH pk)
        let ct := pkeEncrypt pr (hashH m) (kr.drop 32) pk
        let out := ct ++ hashH (kr.take 32 ++ hashH ct)
        Stores (.kemEncaps ed es) s dst out ∧ out.length = nout)) ∧
    WordIs (.kemEncaps ed es) (0x71 * 2 ^ 24 + ed * 2 ^ 20 + es * 2 ^ 16)

/-- KEM.DECAPS takes PROFILE when no profile is held, else MEM_RANGE when the source or the destination would pass 0xFFFF,
else it completes whatever the bytes: it decrypts, re-encrypts with the pk inside sk, and ss is H(k then H(ct)) when
the re-encryption equals ct, else H(z then H(ct)). Both end alike: no fault, STATUS and every register as before, no
byte but the 32 of ss changed. (R248, R249) -/
def Obligations.KemDecapsCommand : Prop :=
  ∀ (ed es : SReg) (s : State), Running s →
    let src := (s.getE es).toNat
    let dst := (s.getE ed).toNat
    (NoProfile s → Faults (.kemDecaps ed es) s 2) ∧
    (∀ pr, HoldsProfile s pr →
      let nin := pr.ctLen + pr.skLen
      let nout := 32
      (65536 < src + nin ∨ 65536 < dst + nout → Faults (.kemDecaps ed es) s 6) ∧
      (src + nin ≤ 65536 → dst + nout ≤ 65536 →
        let ct := s.memRead src pr.ctLen
        let sk := src + pr.ctLen
        let pk := s.memRead (sk + pr.pkeSkLen) pr.pkLen
        let hpk := s.memRead (sk + pr.pkeSkLen + pr.pkLen) 32
        let z := s.memRead (sk + pr.pkeSkLen + pr.pkLen + 32) 32
        let m := pkeDecrypt pr ct (s.memRead sk pr.pkeSkLen)
        let kr := hashG (m ++ hpk)
        let ct' := pkeEncrypt pr m (kr.drop 32) pk
        let ss := hashH ((if ct = ct' then kr.take 32 else z) ++ hashH ct)
        Stores (.kemDecaps ed es) s dst ss ∧ ss.length = nout)) ∧
    WordIs (.kemDecaps ed es) (0x72 * 2 ^ 24 + ed * 2 ^ 20 + es * 2 ^ 16)

/-- For all strings of the right lengths, with ct' the re-encryption: ss is H(z then H(ct)) when ct' differs from ct and
H(k then H(ct)) when it equals it; so another z leaves the ss of an accepted ct unchanged (that it changes the ss of a
rejected ct holds up to collisions of H, a free value, and is not claimed). KEM.DECAPS on any content of its source
range leaves STATUS, FINFO and every register as they were. (R248, R250) -/
def Obligations.ImplicitRejection : Prop :=
  (∀ (pr : Profile) (ct skPke pk hpk z : Bytes), ct.length = pr.ctLen → skPke.length = pr.pkeSkLen →
    pk.length = pr.pkLen → hpk.length = 32 → z.length = 32 →
    let m := pkeDecrypt pr ct skPke
    let kr := hashG (m ++ hpk)
    let ct' := pkeEncrypt pr m (kr.drop 32) pk
    (ct' ≠ ct → kemDecaps pr ct (skPke ++ pk ++ hpk ++ z) = hashH (z ++ hashH ct)) ∧
    (ct' = ct → kemDecaps pr ct (skPke ++ pk ++ hpk ++ z) = hashH (kr.take 32 ++ hashH ct)) ∧
    (ct' = ct → ∀ z' : Bytes, z'.length = 32 →
      kemDecaps pr ct (skPke ++ pk ++ hpk ++ z') = kemDecaps pr ct (skPke ++ pk ++ hpk ++ z))) ∧
  (∀ (ed es : SReg) (s : State) (pr : Profile), Running s → HoldsProfile s pr →
    (s.getE es).toNat + (pr.ctLen + pr.skLen) ≤ 65536 → (s.getE ed).toNat + 32 ≤ 65536 →
    ∃ t, exec (.kemDecaps ed es) s = .next t ∧ Running t ∧ SameControl s t ∧ SameScalars s t ∧ SamePolys s t)

/-- For every profile, all seeds, z and m of 32 bytes: with (pk, sk) and (ct, ss) from KemKeygen and KemEncaps,
KemDecaps(ct, sk) is ss if PkeDecrypt(ct, sk_pke) = H(m), and otherwise the value implicit rejection gives for the
message decrypted. No round trip of the PKE is assumed, and the hash functions are free values, so no instance of the
decryption premise can be computed; the equation covers both cases and has no such premise. (R242, R246, R248, R251) -/
def Obligations.KemRoundTripReducesToPke : Prop :=
  ∀ (pr : Profile) (seedA seedS z m : Bytes), z.length = 32 →
    let k := kemKeygen pr seedA seedS z
    let c := kemEncaps pr m k.1
    let d := pkeDecrypt pr c.1 (pkeKeygen pr seedA seedS).2
    let kr := hashG (d ++ hashH k.1)
    kemDecaps pr c.1 k.2 =
      if d = hashH m then c.2
      else hashH ((if c.1 = pkeEncrypt pr d (kr.drop 32) k.1 then kr.take 32 else z) ++ hashH c.1)

/-- For each of the six commands: two states with no fault recorded, the same profile held and the same two addresses,
both ranges inside DMEM, and the same bytes in the source range, whatever else differs, both complete, and the same
bytes are written to the destination; every other byte of each keeps its value. (R40, R251, R264, R353) -/
def Obligations.KeyCommandsNeverFaultOnContent : Prop :=
  ∀ (i : Instr) (ed es : SReg) (nin nout : Profile → Nat), kkBuffers i = some (ed, es, nin, nout) →
    ∀ (s s' : State) (pr : Profile), Running s → Running s' → HoldsProfile s pr → HoldsProfile s' pr →
      s'.getE ed = s.getE ed → s'.getE es = s.getE es →
      (s.getE es).toNat + nin pr ≤ 65536 → (s.getE ed).toNat + nout pr ≤ 65536 →
      (∀ k, k < nin pr → s'.readByte ((s.getE es).toNat + k) = s.readByte ((s.getE es).toNat + k)) →
      ∃ b : Bytes, b.length = nout pr ∧ Stores i s (s.getE ed).toNat b ∧ Stores i s' (s.getE ed).toNat b

/-- CTEQ takes MEM_RANGE when either range of the length register's n bytes would pass 0xFFFF, else it completes: the
destination is 0xFFFF when byte k of the ranges is equal for every k below n (so always for n = 0), and 0 otherwise.
Nothing else changes; the destination may be any of the other three registers. (R260, R261) -/
def Obligations.CompareRanges : Prop :=
  ∀ (ed ea eb el : SReg) (s : State), Running s →
    let a := (s.getE ea).toNat
    let b := (s.getE eb).toNat
    let n := (s.getE el).toNat
    (65536 < a + n ∨ 65536 < b + n → Faults (.cteq ed ea eb el) s 6) ∧
    (a + n ≤ 65536 → b + n ≤ 65536 →
      ((∀ k, k < n → s.readByte (a + k) = s.readByte (b + k)) → WritesScalar (.cteq ed ea eb el) s ed 0xFFFF) ∧
      ((∃ k, k < n ∧ s.readByte (a + k) ≠ s.readByte (b + k)) → WritesScalar (.cteq ed ea eb el) s ed 0)) ∧
    WordIs (.cteq ed ea eb el) (0x80 * 2 ^ 24 + ed * 2 ^ 20 + ea * 2 ^ 16 + eb * 2 ^ 12 + el * 2 ^ 8)

/-- CTSEL takes MEM_RANGE when any of its three ranges of n bytes would pass 0xFFFF, else FLAG when the flag is neither
0xFFFF nor 0, also for n = 0, else it completes: the n bytes at the destination are those x held before the command
for 0xFFFF and those y held for 0, the ranges overlapping or not. No other byte and no register changes. (R262, R263) -/
def Obligations.SelectRange : Prop :=
  ∀ (ed ef ex ey el : SReg) (s : State), Running s →
    let d := (s.getE ed).toNat
    let x := (s.getE ex).toNat
    let y := (s.getE ey).toNat
    let n := (s.getE el).toNat
    (65536 < d + n ∨ 65536 < x + n ∨ 65536 < y + n → Faults (.ctsel ed ef ex ey el) s 6) ∧
    (d + n ≤ 65536 → x + n ≤ 65536 → y + n ≤ 65536 →
      (s.getE ef ≠ 0xFFFF#16 → s.getE ef ≠ 0x0000#16 → Faults (.ctsel ed ef ex ey el) s 7) ∧
      (s.getE ef = 0xFFFF#16 → Stores (.ctsel ed ef ex ey el) s d (s.memRead x n)) ∧
      (s.getE ef = 0x0000#16 → Stores (.ctsel ed ef ex ey el) s d (s.memRead y n))) ∧
    WordIs (.ctsel ed ef ex ey el) (0x81 * 2 ^ 24 + ed * 2 ^ 20 + ef * 2 ^ 16 + ex * 2 ^ 12 + ey * 2 ^ 8 + el * 2 ^ 4)
end

