-- ==== Sys2Proof/Laws/State.lean ====
section
/-! SUPPORT. What each update of State does to each field, and what the register accessors read after each update. -/

namespace Sys2Proof.Machine

/-! ## Fields -/

@[simp] theorem State.setE_e (s : State) (i : SReg) (v : Word) : (s.setE i v).e = s.e.set i v i.isLt := rfl
@[simp] theorem State.setE_p (s : State) (i : SReg) (v : Word) : (s.setE i v).p = s.p := rfl
@[simp] theorem State.setE_dmem (s : State) (i : SReg) (v : Word) : (s.setE i v).dmem = s.dmem := rfl
@[simp] theorem State.setE_params0 (s : State) (i : SReg) (v : Word) : (s.setE i v).params0 = s.params0 := rfl
@[simp] theorem State.setE_params1 (s : State) (i : SReg) (v : Word) : (s.setE i v).params1 = s.params1 := rfl
@[simp] theorem State.setE_status (s : State) (i : SReg) (v : Word) : (s.setE i v).status = s.status := rfl
@[simp] theorem State.setE_finfoLo (s : State) (i : SReg) (v : Word) : (s.setE i v).finfoLo = s.finfoLo := rfl
@[simp] theorem State.setE_finfoHi (s : State) (i : SReg) (v : Word) : (s.setE i v).finfoHi = s.finfoHi := rfl
@[simp] theorem State.setE_moves (s : State) (i : SReg) (v : Word) : (s.setE i v).moves = s.moves := rfl
@[simp] theorem State.setE_reply (s : State) (i : SReg) (v : Word) : (s.setE i v).reply = s.reply := rfl

@[simp] theorem State.setP_e (s : State) (i : Nat) (q : Poly) : (s.setP i q).e = s.e := rfl
@[simp] theorem State.setP_p (s : State) (i : Nat) (q : Poly) : (s.setP i q).p = s.p.setIfInBounds i q := rfl
@[simp] theorem State.setP_dmem (s : State) (i : Nat) (q : Poly) : (s.setP i q).dmem = s.dmem := rfl
@[simp] theorem State.setP_params0 (s : State) (i : Nat) (q : Poly) : (s.setP i q).params0 = s.params0 := rfl
@[simp] theorem State.setP_params1 (s : State) (i : Nat) (q : Poly) : (s.setP i q).params1 = s.params1 := rfl
@[simp] theorem State.setP_status (s : State) (i : Nat) (q : Poly) : (s.setP i q).status = s.status := rfl
@[simp] theorem State.setP_finfoLo (s : State) (i : Nat) (q : Poly) : (s.setP i q).finfoLo = s.finfoLo := rfl
@[simp] theorem State.setP_finfoHi (s : State) (i : Nat) (q : Poly) : (s.setP i q).finfoHi = s.finfoHi := rfl
@[simp] theorem State.setP_moves (s : State) (i : Nat) (q : Poly) : (s.setP i q).moves = s.moves := rfl
@[simp] theorem State.setP_reply (s : State) (i : Nat) (q : Poly) : (s.setP i q).reply = s.reply := rfl

@[simp] theorem State.memWrite_e (s : State) (a : Nat) (b : Bytes) : (s.memWrite a b).e = s.e := rfl
@[simp] theorem State.memWrite_p (s : State) (a : Nat) (b : Bytes) : (s.memWrite a b).p = s.p := rfl
@[simp] theorem State.memWrite_dmem (s : State) (a : Nat) (b : Bytes) : (s.memWrite a b).dmem = Memory.writeRange s.dmem a b := rfl
@[simp] theorem State.memWrite_params0 (s : State) (a : Nat) (b : Bytes) : (s.memWrite a b).params0 = s.params0 := rfl
@[simp] theorem State.memWrite_params1 (s : State) (a : Nat) (b : Bytes) : (s.memWrite a b).params1 = s.params1 := rfl
@[simp] theorem State.memWrite_status (s : State) (a : Nat) (b : Bytes) : (s.memWrite a b).status = s.status := rfl
@[simp] theorem State.memWrite_finfoLo (s : State) (a : Nat) (b : Bytes) : (s.memWrite a b).finfoLo = s.finfoLo := rfl
@[simp] theorem State.memWrite_finfoHi (s : State) (a : Nat) (b : Bytes) : (s.memWrite a b).finfoHi = s.finfoHi := rfl
@[simp] theorem State.memWrite_moves (s : State) (a : Nat) (b : Bytes) : (s.memWrite a b).moves = s.moves := rfl
@[simp] theorem State.memWrite_reply (s : State) (a : Nat) (b : Bytes) : (s.memWrite a b).reply = s.reply := rfl

@[simp] theorem State.recordFault_e (s : State) (w : CmdWord) (c : Cause) : (s.recordFault w c).e = s.e := rfl
@[simp] theorem State.recordFault_p (s : State) (w : CmdWord) (c : Cause) : (s.recordFault w c).p = s.p := rfl
@[simp] theorem State.recordFault_dmem (s : State) (w : CmdWord) (c : Cause) : (s.recordFault w c).dmem = s.dmem := rfl
@[simp] theorem State.recordFault_params0 (s : State) (w : CmdWord) (c : Cause) : (s.recordFault w c).params0 = s.params0 := rfl
@[simp] theorem State.recordFault_params1 (s : State) (w : CmdWord) (c : Cause) : (s.recordFault w c).params1 = s.params1 := rfl
@[simp] theorem State.recordFault_status (s : State) (w : CmdWord) (c : Cause) : (s.recordFault w c).status = faultStatus c := rfl
@[simp] theorem State.recordFault_finfoLo (s : State) (w : CmdWord) (c : Cause) : (s.recordFault w c).finfoLo = finfoLoOf w := rfl
@[simp] theorem State.recordFault_finfoHi (s : State) (w : CmdWord) (c : Cause) : (s.recordFault w c).finfoHi = finfoHiOf w := rfl
@[simp] theorem State.recordFault_moves (s : State) (w : CmdWord) (c : Cause) : (s.recordFault w c).moves = s.moves := rfl
@[simp] theorem State.recordFault_reply (s : State) (w : CmdWord) (c : Cause) : (s.recordFault w c).reply = s.reply := rfl

@[simp] theorem State.afterTaking_e (s : State) (rest : List HostMove) : (s.afterTaking rest).e = s.e := rfl
@[simp] theorem State.afterTaking_p (s : State) (rest : List HostMove) : (s.afterTaking rest).p = s.p := rfl
@[simp] theorem State.afterTaking_dmem (s : State) (rest : List HostMove) : (s.afterTaking rest).dmem = s.dmem := rfl
@[simp] theorem State.afterTaking_params0 (s : State) (rest : List HostMove) : (s.afterTaking rest).params0 = s.params0 := rfl
@[simp] theorem State.afterTaking_params1 (s : State) (rest : List HostMove) : (s.afterTaking rest).params1 = s.params1 := rfl
@[simp] theorem State.afterTaking_status (s : State) (rest : List HostMove) : (s.afterTaking rest).status = s.status := rfl
@[simp] theorem State.afterTaking_finfoLo (s : State) (rest : List HostMove) : (s.afterTaking rest).finfoLo = s.finfoLo := rfl
@[simp] theorem State.afterTaking_finfoHi (s : State) (rest : List HostMove) : (s.afterTaking rest).finfoHi = s.finfoHi := rfl
@[simp] theorem State.afterTaking_moves (s : State) (rest : List HostMove) : (s.afterTaking rest).moves = rest := rfl
@[simp] theorem State.afterTaking_reply (s : State) (rest : List HostMove) : (s.afterTaking rest).reply = none := rfl

@[simp] theorem State.offer_e (s : State) (w : CmdWord) : (s.offer w).e = s.e := rfl
@[simp] theorem State.offer_p (s : State) (w : CmdWord) : (s.offer w).p = s.p := rfl
@[simp] theorem State.offer_dmem (s : State) (w : CmdWord) : (s.offer w).dmem = s.dmem := rfl
@[simp] theorem State.offer_params0 (s : State) (w : CmdWord) : (s.offer w).params0 = s.params0 := rfl
@[simp] theorem State.offer_params1 (s : State) (w : CmdWord) : (s.offer w).params1 = s.params1 := rfl
@[simp] theorem State.offer_status (s : State) (w : CmdWord) : (s.offer w).status = s.status := rfl
@[simp] theorem State.offer_finfoLo (s : State) (w : CmdWord) : (s.offer w).finfoLo = s.finfoLo := rfl
@[simp] theorem State.offer_finfoHi (s : State) (w : CmdWord) : (s.offer w).finfoHi = s.finfoHi := rfl
@[simp] theorem State.offer_moves (s : State) (w : CmdWord) : (s.offer w).moves = .issue w :: s.moves := rfl
@[simp] theorem State.offer_reply (s : State) (w : CmdWord) : (s.offer w).reply = s.reply := rfl

/-! A run is written one register at a time: the other fields stay. -/

@[simp] theorem State.setRun_e (s : State) (b : Nat) (qs : List Poly) : (s.setRun b qs).e = s.e := by
  induction qs generalizing s b with
  | nil => rfl
  | cons q qs ih => simp [State.setRun, ih]
@[simp] theorem State.setRun_dmem (s : State) (b : Nat) (qs : List Poly) : (s.setRun b qs).dmem = s.dmem := by
  induction qs generalizing s b with
  | nil => rfl
  | cons q qs ih => simp [State.setRun, ih]
@[simp] theorem State.setRun_params0 (s : State) (b : Nat) (qs : List Poly) : (s.setRun b qs).params0 = s.params0 := by
  induction qs generalizing s b with
  | nil => rfl
  | cons q qs ih => simp [State.setRun, ih]
@[simp] theorem State.setRun_params1 (s : State) (b : Nat) (qs : List Poly) : (s.setRun b qs).params1 = s.params1 := by
  induction qs generalizing s b with
  | nil => rfl
  | cons q qs ih => simp [State.setRun, ih]
@[simp] theorem State.setRun_status (s : State) (b : Nat) (qs : List Poly) : (s.setRun b qs).status = s.status := by
  induction qs generalizing s b with
  | nil => rfl
  | cons q qs ih => simp [State.setRun, ih]
@[simp] theorem State.setRun_finfoLo (s : State) (b : Nat) (qs : List Poly) : (s.setRun b qs).finfoLo = s.finfoLo := by
  induction qs generalizing s b with
  | nil => rfl
  | cons q qs ih => simp [State.setRun, ih]
@[simp] theorem State.setRun_finfoHi (s : State) (b : Nat) (qs : List Poly) : (s.setRun b qs).finfoHi = s.finfoHi := by
  induction qs generalizing s b with
  | nil => rfl
  | cons q qs ih => simp [State.setRun, ih]
@[simp] theorem State.setRun_moves (s : State) (b : Nat) (qs : List Poly) : (s.setRun b qs).moves = s.moves := by
  induction qs generalizing s b with
  | nil => rfl
  | cons q qs ih => simp [State.setRun, ih]
@[simp] theorem State.setRun_reply (s : State) (b : Nat) (qs : List Poly) : (s.setRun b qs).reply = s.reply := by
  induction qs generalizing s b with
  | nil => rfl
  | cons q qs ih => simp [State.setRun, ih]

@[simp] theorem State.afterReset_e (s : State) : s.afterReset.e = State.reset.e := rfl
@[simp] theorem State.afterReset_p (s : State) : s.afterReset.p = State.reset.p := rfl
@[simp] theorem State.afterReset_dmem (s : State) : s.afterReset.dmem = [] := rfl
@[simp] theorem State.afterReset_params0 (s : State) : s.afterReset.params0 = 0#16 := rfl
@[simp] theorem State.afterReset_params1 (s : State) : s.afterReset.params1 = 0#16 := rfl
@[simp] theorem State.afterReset_status (s : State) : s.afterReset.status = 0#16 := rfl
@[simp] theorem State.afterReset_finfoLo (s : State) : s.afterReset.finfoLo = 0#16 := rfl
@[simp] theorem State.afterReset_finfoHi (s : State) : s.afterReset.finfoHi = 0#16 := rfl
@[simp] theorem State.afterReset_moves (s : State) : s.afterReset.moves = s.moves := rfl
@[simp] theorem State.afterReset_reply (s : State) : s.afterReset.reply = none := rfl

/-! ## Scalar registers -/

@[simp] theorem State.getE_setE_same (s : State) (i : SReg) (v : Word) : (s.setE i v).getE i = v := by
  simp [State.getE]

theorem State.getE_setE_ne (s : State) (i j : SReg) (v : Word) (h : j ≠ i) : (s.setE i v).getE j = s.getE j := by
  have : (i : Nat) ≠ j := fun e => h (Fin.ext e.symm)
  simp [State.getE, Vector.getElem_set_ne, this]

@[simp] theorem State.getE_setP (s : State) (i : Nat) (q : Poly) (j : SReg) : (s.setP i q).getE j = s.getE j := rfl
@[simp] theorem State.getE_memWrite (s : State) (a : Nat) (b : Bytes) (j : SReg) : (s.memWrite a b).getE j = s.getE j := rfl
@[simp] theorem State.getE_setRun (s : State) (b : Nat) (qs : List Poly) (j : SReg) :
    (s.setRun b qs).getE j = s.getE j := by simp [State.getE]
@[simp] theorem State.getE_recordFault (s : State) (w : CmdWord) (c : Cause) (j : SReg) :
    (s.recordFault w c).getE j = s.getE j := rfl
@[simp] theorem State.getE_reset (j : SReg) : State.reset.getE j = 0#16 := by
  simp [State.getE, State.reset]

/-! ## Polynomial registers -/

theorem State.getP_eq (s : State) (i : Nat) (h : i < 32) : s.getP i = s.p[i] := by
  simp [State.getP, h]

theorem State.getP_setP (s : State) (i j : Nat) (q : Poly) :
    (s.setP i q).getP j = if i = j ∧ j < 32 then q else s.getP j := by
  by_cases hj : j < 32
  · rw [State.getP_eq _ _ hj, State.getP_eq _ _ hj]
    simp [Vector.getElem_setIfInBounds, hj]
  · simp [State.getP, hj]

theorem State.getP_setP_ne (s : State) (i j : Nat) (q : Poly) (h : i ≠ j) : (s.setP i q).getP j = s.getP j := by
  simp [State.getP_setP, h]

@[simp] theorem State.getP_setP_same (s : State) (i : PReg) (q : Poly) : (s.setP i q).getP i = q := by
  simp [State.getP_setP]

@[simp] theorem State.getP_setE (s : State) (i : SReg) (v : Word) (j : Nat) : (s.setE i v).getP j = s.getP j := rfl
@[simp] theorem State.getP_memWrite (s : State) (a : Nat) (b : Bytes) (j : Nat) : (s.memWrite a b).getP j = s.getP j := rfl
@[simp] theorem State.getP_recordFault (s : State) (w : CmdWord) (c : Cause) (j : Nat) :
    (s.recordFault w c).getP j = s.getP j := rfl

theorem State.getP_setRun_outside (s : State) (b : Nat) (qs : List Poly) (j : Nat) (h : j < b ∨ b + qs.length ≤ j) :
    (s.setRun b qs).getP j = s.getP j := by
  induction qs generalizing s b with
  | nil => rfl
  | cons q qs ih =>
    simp only [List.length_cons] at h
    rw [State.setRun, ih _ _ (by omega), State.getP_setP_ne _ _ _ _ (by omega)]

theorem State.getP_setRun_inside (s : State) (b : Nat) (qs : List Poly) (k : Nat) (h : k < qs.length)
    (hb : b + qs.length ≤ 32) : (s.setRun b qs).getP (b + k) = qs.getD k polyZero := by
  induction qs generalizing s b k with
  | nil => simp at h
  | cons q qs ih =>
    simp only [List.length_cons] at h hb
    cases k with
    | zero =>
      rw [State.setRun, State.getP_setRun_outside _ _ _ _ (by omega), State.getP_setP]
      simp [show b < 32 by omega]
    | succ k =>
      rw [State.setRun, show b + (k + 1) = (b + 1) + k by omega, ih _ _ _ (by omega) (by omega)]
      simp

@[simp] theorem State.length_getRun (s : State) (b n : Nat) : (s.getRun b n).length = n := by simp [State.getRun]

theorem State.getD_getRun (s : State) (b n k : Nat) (h : k < n) : (s.getRun b n).getD k polyZero = s.getP (b + k) := by
  simp [State.getRun, h]

/-! ## Control registers -/

theorem State.faulted_congr {s t : State} (h : t.status = s.status) : t.faulted = s.faulted := by
  simp [State.faulted, h]

theorem State.profile?_congr {s t : State} (h0 : t.params0 = s.params0) (h1 : t.params1 = s.params1) :
    t.profile? = s.profile? := by
  simp [State.profile?, h0, h1]

@[simp] theorem State.faulted_recordFault (s : State) (w : CmdWord) (c : Cause) : (s.recordFault w c).faulted = true := by
  rw [State.faulted, State.recordFault_status]
  cases c <;> decide

@[simp] theorem State.causeField_recordFault (s : State) (w : CmdWord) (c : Cause) :
    (s.recordFault w c).causeField = c.code := by
  rw [State.causeField, State.recordFault_status]
  cases c <;> decide

theorem faultStatus_toNat (c : Cause) : (faultStatus c).toNat = 1 + 16 * c.code := by
  cases c <;> rfl

theorem Cause.code_range (c : Cause) : 1 ≤ c.code ∧ c.code ≤ 7 := by
  cases c <;> decide

end Sys2Proof.Machine
end

