-- ==== Sys2Proof/Laws/Poly.lean ====
section
/-! SUPPORT. The coefficients of every polynomial operation: a polynomial is its 256 coefficients, and no later proof opens a
vector. -/

namespace Sys2Proof.Machine

theorem coeff_eq (q : Poly) (j : Nat) (h : j < 256) : coeff q j = q[j] := by
  simp [coeff, h]

theorem coeff_tabulate (f : Nat → Word) (j : Nat) (h : j < 256) : coeff (tabulate f) j = f j := by
  simp [coeff, tabulate, h]

/-- Polynomials with the same 256 coefficients are equal. -/
theorem poly_ext {a b : Poly} (h : ∀ j, j < 256 → coeff a j = coeff b j) : a = b := by
  ext j hj
  have := h j hj
  rw [coeff_eq _ _ hj, coeff_eq _ _ hj] at this
  rw [this]

/-- A tabulated polynomial depends on the first 256 values only. -/
theorem tabulate_congr {f g : Nat → Word} (h : ∀ j, j < 256 → f j = g j) : tabulate f = tabulate g :=
  poly_ext fun j hj => by rw [coeff_tabulate _ _ hj, coeff_tabulate _ _ hj, h j hj]

@[simp] theorem tabulate_coeff (q : Poly) : tabulate (coeff q) = q :=
  poly_ext fun _ hj => coeff_tabulate _ _ hj

@[simp] theorem coeff_polyZero (j : Nat) : coeff polyZero j = 0#16 := by
  by_cases h : j < 256
  · rw [coeff_eq _ _ h]; simp [polyZero]
  · simp [coeff, h]

theorem coeff_polyAdd (a b : Poly) (j : Nat) (h : j < 256) : coeff (polyAdd a b) j = coeff a j + coeff b j :=
  coeff_tabulate _ _ h
theorem coeff_polySub (a b : Poly) (j : Nat) (h : j < 256) : coeff (polySub a b) j = coeff a j - coeff b j :=
  coeff_tabulate _ _ h
theorem coeff_polyShl (a : Poly) (sh j : Nat) (h : j < 256) : coeff (polyShl a sh) j = coeff a j <<< sh :=
  coeff_tabulate _ _ h
theorem coeff_polyShr (a : Poly) (sh j : Nat) (h : j < 256) : coeff (polyShr a sh) j = coeff a j >>> sh :=
  coeff_tabulate _ _ h
theorem coeff_polyMod (a : Poly) (k j : Nat) (h : j < 256) : coeff (polyMod a k) j = ringRed (coeff a j) k :=
  coeff_tabulate _ _ h
theorem coeff_polyConst (v : Word) (j : Nat) (h : j < 256) : coeff (polyConst v) j = v :=
  coeff_tabulate _ _ h
theorem coeff_polySet (a : Poly) (idx : Nat) (v : Word) (j : Nat) (h : j < 256) :
    coeff (polySet a idx v) j = if j = idx then v else coeff a j :=
  coeff_tabulate _ _ h
theorem coeff_polyMul (a b : Poly) (k : Nat) (h : k < 256) : coeff (polyMul a b) k = convLow a b k - convHigh a b k :=
  coeff_tabulate _ _ h

/-! ## The scalar operations as unsigned arithmetic (R101) -/

theorem toNat_ringAdd (a b : Word) : (ringAdd a b).toNat = (a.toNat + b.toNat) % 65536 := by
  simp [ringAdd]
theorem toNat_ringSub (a b : Word) : (ringSub a b).toNat = (a.toNat + (65536 - b.toNat)) % 65536 := by
  simp [ringSub, BitVec.toNat_sub, Nat.add_comm]
theorem toNat_ringMul (a b : Word) : (ringMul a b).toNat = a.toNat * b.toNat % 65536 := by
  simp [ringMul]
theorem toNat_ringShl (a : Word) (sh : Nat) : (ringShl a sh).toNat = a.toNat * 2 ^ sh % 65536 := by
  simp [ringShl, Nat.shiftLeft_eq]
theorem toNat_ringShr (a : Word) (sh : Nat) : (ringShr a sh).toNat = a.toNat / 2 ^ sh := by
  simp [ringShr, Nat.shiftRight_eq_div_pow]

theorem toNat_ringRed (a : Word) (k : Nat) (h : k ≤ 16) : (ringRed a k).toNat = a.toNat % 2 ^ k := by
  have h2 : 2 ^ k ≤ 2 ^ 16 := Nat.pow_le_pow_right (by decide) h
  have hp : 0 < 2 ^ k := Nat.two_pow_pos k
  simp only [ringRed, maskBits, BitVec.toNat_and, BitVec.toNat_ofNat]
  rw [Nat.mod_eq_of_lt (by omega), Nat.and_two_pow_sub_one_eq_mod]

/-! ## The little-endian 16-bit value -/

theorem toNat_wordOfBytes (lo hi : Byte) : (wordOfBytes lo hi).toNat = lo.toNat + 256 * hi.toNat := by
  have := lo.isLt; have := hi.isLt
  simp only [wordOfBytes, BitVec.toNat_ofNat]
  omega

theorem toNat_lowByte (v : Word) : (lowByte v).toNat = v.toNat % 256 := by
  simp [lowByte, BitVec.extractLsb'_toNat]

theorem toNat_highByte (v : Word) : (highByte v).toNat = v.toNat / 256 := by
  have := v.isLt
  simp only [highByte, BitVec.extractLsb'_toNat, Nat.shiftRight_eq_div_pow]
  omega

@[simp] theorem wordOfBytes_low_high (v : Word) : wordOfBytes (lowByte v) (highByte v) = v := by
  apply BitVec.eq_of_toNat_eq
  rw [toNat_wordOfBytes, toNat_lowByte, toNat_highByte]
  omega

theorem length_arrayOfPoly (q : Poly) : (arrayOfPoly q).length = 512 := by
  have : ∀ l : List Word, (l.flatMap bytesOfWord).length = 2 * l.length := by
    intro l
    induction l with
    | nil => rfl
    | cons w l ih => simp [bytesOfWord, ih]; omega
  simp [arrayOfPoly, this]

theorem byteAt_flatMap_bytesOfWord (l : List Word) (j : Nat) (h : j < l.length) :
    byteAt (l.flatMap bytesOfWord) (2 * j) = lowByte (l.getD j 0#16) ∧
    byteAt (l.flatMap bytesOfWord) (2 * j + 1) = highByte (l.getD j 0#16) := by
  induction l generalizing j with
  | nil => simp at h
  | cons w l ih =>
    cases j with
    | zero => exact ⟨rfl, rfl⟩
    | succ j =>
      have := ih j (by simpa using h)
      simpa [byteAt, bytesOfWord, Nat.mul_add] using this

theorem byteAt_arrayOfPoly (q : Poly) (j : Nat) (h : j < 256) :
    byteAt (arrayOfPoly q) (2 * j) = lowByte (coeff q j) ∧
    byteAt (arrayOfPoly q) (2 * j + 1) = highByte (coeff q j) :=
  byteAt_flatMap_bytesOfWord q.toList j (by simpa using h)

/-! ## Lists of polynomials -/

theorem elt_map_range (f : Nat → Poly) (n k : Nat) (h : k < n) : elt ((List.range n).map f) k = f k := by
  simp [elt, h]

@[simp] theorem length_transpose (A : List Poly) (L : Nat) : (transpose A L).length = L * L := by simp [transpose]
@[simp] theorem length_matVec (A v : List Poly) (L : Nat) : (matVec A v L).length = L := by simp [matVec]
@[simp] theorem length_vecDecode (b : Bytes) (r eps : Nat) : (vecDecode b r eps).length = r := by simp [vecDecode]
@[simp] theorem length_genMatrix (seed : Bytes) (L epsQ : Nat) : (genMatrix seed L epsQ).length = L * L := by simp [genMatrix]
@[simp] theorem length_genSecret (seed : Bytes) (L mu : Nat) (u : Bool) : (genSecret seed L mu u).length = L := by
  simp [genSecret]

theorem elt_transpose (A : List Poly) (L i j : Nat) (hi : i < L) (hj : j < L) :
    elt (transpose A L) (i * L + j) = elt A (j * L + i) := by
  have hlt : i * L + j < L * L := by
    calc i * L + j < i * L + L := by omega
      _ = (i + 1) * L := by rw [Nat.add_mul, Nat.one_mul]
      _ ≤ L * L := Nat.mul_le_mul_right L hi
  have hL : 0 < L := by omega
  rw [transpose, elt_map_range _ _ _ hlt]
  have h1 : (i * L + j) % L = j := by rw [Nat.mul_comm, Nat.mul_add_mod, Nat.mod_eq_of_lt hj]
  have h2 : (i * L + j) / L = i := by
    rw [Nat.mul_comm, Nat.mul_add_div hL, Nat.div_eq_of_lt hj, Nat.add_zero]
  rw [h1, h2]

theorem elt_matVec (A v : List Poly) (L i : Nat) (h : i < L) :
    elt (matVec A v L) i = polySum ((List.range L).map fun j => polyMul (elt A (i * L + j)) (elt v j)) :=
  elt_map_range _ _ _ h

theorem coeff_polySum (l : List Poly) (j : Nat) (h : j < 256) :
    coeff (polySum l) j = (l.map fun q => coeff q j).sum := by
  induction l with
  | nil => simp [polySum]
  | cons q l ih => simp [polySum, coeff_polyAdd _ _ _ h, ih]

end Sys2Proof.Machine
end

