-- ==== Sys2Proof/Laws/Bytes.lean ====
section
/-! SUPPORT. Byte strings as little-endian numbers, sub-strings, and the lengths of everything a command writes. -/

namespace Sys2Proof.Machine

/-! ## Little-endian numbers (R9) -/

@[simp] theorem length_leBytes (n v : Nat) : (leBytes n v).length = n := by
  induction n generalizing v with
  | zero => rfl
  | succ n ih => simp [leBytes, ih]

theorem le_leBytes (n v : Nat) : le (leBytes n v) = v % 256 ^ n := by
  induction n generalizing v with
  | zero => simp [leBytes, le, Nat.mod_one]
  | succ n ih =>
    rw [leBytes, le, ih, Nat.pow_succ, Nat.mul_comm (256 ^ n) 256, Nat.mod_mul]
    simp

theorem le_lt (b : Bytes) : le b < 256 ^ b.length := by
  induction b with
  | nil => simp [le]
  | cons x b ih =>
    have := x.isLt
    simp only [le, List.length_cons, Nat.pow_succ]
    omega

theorem leBytes_le (b : Bytes) : leBytes b.length (le b) = b := by
  induction b with
  | nil => rfl
  | cons x b ih =>
    have := x.isLt
    rw [List.length_cons, le, leBytes, show (x.toNat + 256 * le b) / 256 = le b by omega, ih]
    congr 1
    apply BitVec.eq_of_toNat_eq
    simp only [BitVec.toNat_ofNat]
    omega

/-- Strings of one length with one value are one string. -/
theorem le_injective {a b : Bytes} (hl : a.length = b.length) (h : le a = le b) : a = b := by
  rw [← leBytes_le a, ← leBytes_le b, hl, h]

theorem le_append (a b : Bytes) : le (a ++ b) = le a + 256 ^ a.length * le b := by
  induction a with
  | nil => simp [le]
  | cons x a ih =>
    simp only [List.cons_append, le, ih, List.length_cons, Nat.pow_succ]
    ring

theorem byteAt_cons_succ (x : Byte) (b : Bytes) (k : Nat) : byteAt (x :: b) (k + 1) = byteAt b k := by simp [byteAt]

/-- Byte `k` of a string is its digit `k` to the base 256. -/
theorem toNat_byteAt (b : Bytes) (k : Nat) : (byteAt b k).toNat = le b / 256 ^ k % 256 := by
  induction b generalizing k with
  | nil => simp [byteAt, le]
  | cons x b ih =>
    have hx := x.isLt
    cases k with
    | zero => simp only [byteAt, le, List.getD_cons_zero, Nat.pow_zero, Nat.div_one]; omega
    | succ k =>
      rw [byteAt_cons_succ, ih, le, Nat.pow_succ, Nat.mul_comm (256 ^ k) 256, ← Nat.div_div_eq_div_mul]
      rw [show (x.toNat + 256 * le b) / 256 = le b by omega]

/-- Bit `k` of the number is stream bit `k` of the string (R9). -/
theorem le_bit (b : Bytes) (k : Nat) : le b / 2 ^ k % 2 = streamBit b k := by
  have h8 : (256 : Nat) ^ (k / 8) = 2 ^ (8 * (k / 8)) := by rw [Nat.pow_mul]
  have hk : 2 ^ k = 2 ^ (8 * (k / 8)) * 2 ^ (k % 8) := by rw [← Nat.pow_add, Nat.div_add_mod]
  rw [streamBit, toNat_byteAt, h8, hk, ← Nat.div_div_eq_div_mul]
  generalize le b / 2 ^ (8 * (k / 8)) = v
  have hr : k % 8 < 8 := Nat.mod_lt _ (by decide)
  have h256 : 256 = 2 ^ (k % 8) * 2 ^ (8 - k % 8) := by rw [← Nat.pow_add, show k % 8 + (8 - k % 8) = 8 by omega]
  rw [h256, Nat.mod_mul_right_div_self, Nat.mod_mod_of_dvd]
  exact Dvd.dvd.trans (by norm_num) (Nat.pow_dvd_pow 2 (show 1 ≤ 8 - k % 8 by omega))

/-! ## Sub-strings -/

theorem length_slice (b : Bytes) (i j : Nat) (h : j ≤ b.length) : (slice b i j).length = j - i := by
  simp [slice]; omega

theorem slice_append_left (a b : Bytes) : slice (a ++ b) 0 a.length = a := by simp [slice]

theorem slice_append_right (a b : Bytes) (n : Nat) (h : n = b.length) :
    slice (a ++ b) a.length (a.length + n) = b := by subst h; simp [slice]

theorem byteAt_slice (b : Bytes) (i j k : Nat) (h : k < j - i) : byteAt (slice b i j) k = byteAt b (i + k) := by
  simp [byteAt, slice, h]

theorem byteAt_append (a b : Bytes) (k : Nat) :
    byteAt (a ++ b) k = if k < a.length then byteAt a k else byteAt b (k - a.length) := by
  simp only [byteAt, List.getD_eq_getElem?_getD, List.getElem?_append]
  split <;> rfl

/-! ## Lengths of what is written -/

@[simp] theorem length_encodePoly (q : Poly) (eps : Nat) : (encodePoly q eps).length = 32 * eps := by simp [encodePoly]

@[simp] theorem length_vecEncode (v : List Poly) (eps : Nat) : (vecEncode v eps).length = v.length * (32 * eps) := by
  induction v with
  | nil => simp [vecEncode]
  | cons q v ih =>
    simp only [vecEncode, List.flatMap_cons, List.length_append, length_encodePoly, List.length_cons] at ih ⊢
    rw [ih, Nat.add_mul, Nat.one_mul, Nat.add_comm]

/-- One complete transaction of a unit is one call of its function (R305). -/
theorem hashH_eq (x : Bytes) : hashH x = (Config.sha3_256 x).toList := rfl
theorem hashG_eq (x : Bytes) : hashG x = (Config.sha3_512 x).toList := rfl
theorem shake128_eq (x : Bytes) (n : Nat) : shake128 x n = (List.range n).map (Config.shake128 x) := by
  simp [shake128, squeezeTransaction, spongeAbsorb, spongeInitial, spongeFinalize, spongeSqueeze, outputOf]

@[simp] theorem length_hashH (x : Bytes) : (hashH x).length = 32 := by simp [hashH_eq]
@[simp] theorem length_hashG (x : Bytes) : (hashG x).length = 64 := by simp [hashG_eq]
@[simp] theorem length_shake128 (x : Bytes) (n : Nat) : (shake128 x n).length = n := by simp [shake128_eq]

@[simp] theorem length_pkeKeygen_pk (pr : Profile) (a b : Bytes) : (pkeKeygen pr a b).1.length = pr.pkLen := by
  simp [pkeKeygen, Profile.pkLen]; ring
@[simp] theorem length_pkeKeygen_sk (pr : Profile) (a b : Bytes) : (pkeKeygen pr a b).2.length = pr.pkeSkLen := by
  simp [pkeKeygen, Profile.pkeSkLen]; ring
@[simp] theorem length_pkeEncrypt (pr : Profile) (m r pk : Bytes) : (pkeEncrypt pr m r pk).length = pr.ctLen := by
  simp [pkeEncrypt, Profile.ctLen]; ring
@[simp] theorem length_pkeDecrypt (pr : Profile) (ct sk : Bytes) : (pkeDecrypt pr ct sk).length = 32 := by
  simp [pkeDecrypt]
@[simp] theorem length_kemKeygen_pk (pr : Profile) (a b z : Bytes) : (kemKeygen pr a b z).1.length = pr.pkLen := by
  simp [kemKeygen]
theorem length_kemKeygen_sk (pr : Profile) (a b z : Bytes) (hz : z.length = 32) :
    (kemKeygen pr a b z).2.length = pr.skLen := by
  simp [kemKeygen, hz, Profile.skLen]; omega
@[simp] theorem length_kemEncaps_ct (pr : Profile) (m pk : Bytes) : (kemEncaps pr m pk).1.length = pr.ctLen := by
  simp [kemEncaps]
@[simp] theorem length_kemEncaps_ss (pr : Profile) (m pk : Bytes) : (kemEncaps pr m pk).2.length = 32 := by
  simp [kemEncaps]
@[simp] theorem length_kemDecaps (pr : Profile) (ct sk : Bytes) : (kemDecaps pr ct sk).length = 32 := by
  simp [kemDecaps]

@[simp] theorem length_pkeKeygenBytes (pr : Profile) (b : Bytes) : (pkeKeygenBytes pr b).length = pr.pkLen + pr.pkeSkLen := by
  simp [pkeKeygenBytes]
@[simp] theorem length_pkeEncBytes (pr : Profile) (b : Bytes) : (pkeEncBytes pr b).length = pr.ctLen := by simp [pkeEncBytes]
@[simp] theorem length_pkeDecBytes (pr : Profile) (b : Bytes) : (pkeDecBytes pr b).length = 32 := by simp [pkeDecBytes]
theorem length_kemKeygenBytes (pr : Profile) (b : Bytes) (h : b.length = 96) :
    (kemKeygenBytes pr b).length = pr.pkLen + pr.skLen := by
  have hz : (slice b 64 96).length = 32 := length_slice b 64 96 (by omega)
  simp [kemKeygenBytes, length_kemKeygen_sk _ _ _ _ hz]
@[simp] theorem length_kemEncapsBytes (pr : Profile) (b : Bytes) : (kemEncapsBytes pr b).length = pr.ctLen + 32 := by
  simp [kemEncapsBytes]
@[simp] theorem length_kemDecapsBytes (pr : Profile) (b : Bytes) : (kemDecapsBytes pr b).length = 32 := by
  simp [kemDecapsBytes]

/-! ## The constant-time mask (R260, R262) -/

@[simp] theorem SelectFlag.ofWord?_word (f : SelectFlag) : SelectFlag.ofWord? f.word = some f := by cases f <;> decide

theorem SelectFlag.ofWord?_eq_some (w : Word) (f : SelectFlag) : SelectFlag.ofWord? w = some f ↔ w = f.word := by
  constructor
  · unfold SelectFlag.ofWord?
    split
    · rintro ⟨⟩; assumption
    · split
      · rintro ⟨⟩; assumption
      · rintro ⟨⟩
  · rintro rfl
    simp

/-- CTSEL accepts exactly the two flags. -/
theorem flagOk_iff (w : Word) : flagOk w = true ↔ w = 0xFFFF#16 ∨ w = 0x0000#16 := by
  simp only [flagOk, SelectFlag.ofWord?, maskTrue, maskFalse]
  by_cases h : w = 0xFFFF#16
  · simp [h]
  · by_cases h' : w = 0x0000#16 <;> simp [h, h']

@[simp] theorem length_ctSel (f : SelectFlag) (x y : Bytes) : (ctSel f x y).length = min x.length y.length := by simp [ctSel]

/-- `CtSel` returns x for all-ones and y for all-zeros. -/
theorem ctSel_eq (f : SelectFlag) {x y : Bytes} (h : x.length = y.length) :
    ctSel f x y = match f with
      | .allOnes => x
      | .allZeros => y := by
  have h1 : lowByte maskTrue = 0xFF#8 := by decide
  have h0 : lowByte maskFalse = 0x00#8 := by decide
  have hv (v : Byte) : 0xFF#8 &&& v = v := BitVec.allOnes_and
  cases f <;> apply List.ext_getElem <;> simp [ctSel, SelectFlag.word, h, h1, h0, hv]

/-- What decapsulation selects: x when the strings are equal, else y. -/
theorem ctSel_eqFlag (a b : Bytes) {x y : Bytes} (h : x.length = y.length) :
    ctSel (eqFlag a b) x y = if a = b then x else y := by
  rw [ctSel_eq _ h, eqFlag]
  split <;> simp_all

/-! ## Digits to a base -/

/-- A sum of digits in place is below the next power of the base. -/
theorem digits_lt (f : Nat → Nat) (B : Nat) (hf : ∀ i, f i < B) (n : Nat) :
    ((List.range n).map fun i => f i * B ^ i).sum < B ^ n := by
  induction n with
  | zero => simp
  | succ n ih =>
    rw [List.range_succ, List.map_append, List.sum_append, Nat.pow_succ]
    simp only [List.map_cons, List.map_nil, List.sum_cons, List.sum_nil, Nat.add_zero]
    have : f n * B ^ n + B ^ n ≤ B ^ n * B := by
      rw [← Nat.succ_mul, Nat.mul_comm]
      exact Nat.mul_le_mul_left _ (hf n)
    omega

/-- Digit `k` of a sum of digits in place. -/
theorem digits_get (f : Nat → Nat) (B : Nat) (hf : ∀ i, f i < B) (n k : Nat) (hk : k < n) :
    ((List.range n).map fun i => f i * B ^ i).sum / B ^ k % B = f k := by
  induction n with
  | zero => omega
  | succ n ih =>
    have hB : 0 < B := Nat.lt_of_le_of_lt (Nat.zero_le _) (hf 0)
    rw [List.range_succ, List.map_append, List.sum_append]
    simp only [List.map_cons, List.map_nil, List.sum_cons, List.sum_nil, Nat.add_zero]
    by_cases h : k = n
    · subst h
      rw [Nat.add_mul_div_right _ _ (Nat.pow_pos hB), Nat.div_eq_of_lt (digits_lt f B hf k), Nat.zero_add,
        Nat.mod_eq_of_lt (hf k)]
    · have hkn : k < n := by omega
      have : B ^ n = B ^ k * (B * B ^ (n - k - 1)) := by
        rw [← Nat.pow_succ', ← Nat.pow_add, show k + (n - k - 1).succ = n by omega]
      rw [this, show f n * (B ^ k * (B * B ^ (n - k - 1))) = (B * (f n * B ^ (n - k - 1))) * B ^ k by ring,
        Nat.add_mul_div_right _ _ (Nat.pow_pos hB), Nat.add_mul_mod_self_left, ih hkn]

/-- A number is the sum of its digits in place. -/
theorem digits_sum (v B n : Nat) : ((List.range n).map fun i => v / B ^ i % B * B ^ i).sum = v % B ^ n := by
  induction n with
  | zero => simp [Nat.mod_one]
  | succ n ih =>
    rw [List.range_succ, List.map_append, List.sum_append, ih, Nat.pow_succ, Nat.mod_mul]
    simp [Nat.mul_comm]

end Sys2Proof.Machine
end

