-- ==== Sys2Proof/Laws/Memory.lean ====
section
/-! SUPPORT. The list of written bytes: a read after a write, and that every memory operation keeps the canonical form. -/

namespace Sys2Proof.Machine

/-! ## Reading after writing -/

theorem Memory.find_put (m : Memory) (a x : Nat) (v : Byte) :
    Memory.find (Memory.put m a v) x = if x = a then some v else Memory.find m x := by
  induction m with
  | nil => simp [Memory.put, Memory.find]
  | cons c m ih =>
    obtain ⟨k, y⟩ := c
    simp only [Memory.put]
    split
    · simp [Memory.find]
    · split
      · subst_vars
        simp only [Memory.find]
        split <;> rfl
      · simp only [Memory.find, ih]
        split
        · rw [if_neg (by omega)]
        · rfl

theorem Memory.read_put (m : Memory) (a x : Nat) (v : Byte) :
    Memory.read (Memory.put m a v) x = if x = a then v else Memory.read m x := by
  simp only [Memory.read, Memory.find_put]
  split <;> simp

theorem Memory.read_writeRange_outside (m : Memory) (a x : Nat) (b : Bytes) (h : x < a ∨ a + b.length ≤ x) :
    Memory.read (Memory.writeRange m a b) x = Memory.read m x := by
  induction b generalizing m a with
  | nil => rfl
  | cons v b ih =>
    simp only [List.length_cons] at h
    rw [Memory.writeRange, ih _ _ (by omega), Memory.read_put, if_neg (by omega)]

theorem Memory.read_writeRange_inside (m : Memory) (a k : Nat) (b : Bytes) (h : k < b.length) :
    Memory.read (Memory.writeRange m a b) (a + k) = byteAt b k := by
  induction b generalizing m a k with
  | nil => simp at h
  | cons v b ih =>
    simp only [List.length_cons] at h
    cases k with
    | zero => rw [Memory.writeRange, Memory.read_writeRange_outside _ _ _ _ (by omega), Memory.read_put]; simp [byteAt]
    | succ k =>
      rw [Memory.writeRange, show a + (k + 1) = (a + 1) + k by omega, ih _ _ _ (by omega)]
      simp [byteAt]

@[simp] theorem Memory.length_readRange (m : Memory) (a n : Nat) : (Memory.readRange m a n).length = n := by
  simp [Memory.readRange]

theorem Memory.byteAt_readRange (m : Memory) (a n k : Nat) (h : k < n) :
    byteAt (Memory.readRange m a n) k = Memory.read m (a + k) := by
  simp [byteAt, Memory.readRange, h]

/-- A range read back after it was written is the string written. -/
theorem Memory.readRange_writeRange (m : Memory) (a : Nat) (b : Bytes) :
    Memory.readRange (Memory.writeRange m a b) a b.length = b := by
  apply List.ext_getElem
  · simp
  · intro k h1 h2
    have := Memory.read_writeRange_inside m a k b h2
    simp only [byteAt] at this
    simp [Memory.readRange, this, h2]

/-! ## In the state -/

theorem State.readByte_memWrite_outside (s : State) (a x : Nat) (b : Bytes) (h : x < a ∨ a + b.length ≤ x) :
    (s.memWrite a b).readByte x = s.readByte x :=
  Memory.read_writeRange_outside s.dmem a x b h

theorem State.readByte_memWrite_inside (s : State) (a k : Nat) (b : Bytes) (h : k < b.length) :
    (s.memWrite a b).readByte (a + k) = byteAt b k :=
  Memory.read_writeRange_inside s.dmem a k b h

@[simp] theorem State.length_memRead (s : State) (a n : Nat) : (s.memRead a n).length = n :=
  Memory.length_readRange s.dmem a n

theorem State.byteAt_memRead (s : State) (a n k : Nat) (h : k < n) : byteAt (s.memRead a n) k = s.readByte (a + k) :=
  Memory.byteAt_readRange s.dmem a n k h

@[simp] theorem State.readByte_setE (s : State) (i : SReg) (v : Word) (a : Nat) : (s.setE i v).readByte a = s.readByte a := rfl
@[simp] theorem State.readByte_setP (s : State) (i : Nat) (q : Poly) (a : Nat) : (s.setP i q).readByte a = s.readByte a := rfl
@[simp] theorem State.readByte_setRun (s : State) (b : Nat) (qs : List Poly) (a : Nat) :
    (s.setRun b qs).readByte a = s.readByte a := by simp [State.readByte]
@[simp] theorem State.readByte_recordFault (s : State) (w : CmdWord) (c : Cause) (a : Nat) :
    (s.recordFault w c).readByte a = s.readByte a := rfl

/-- Two states whose bytes read alike read the same ranges. -/
theorem State.memRead_congr {s t : State} {a n : Nat} (h : ∀ x, a ≤ x → x < a + n → s.readByte x = t.readByte x) :
    s.memRead a n = t.memRead a n := by
  simp only [State.memRead, Memory.readRange]
  apply List.map_congr_left
  intro k hk
  exact h _ (by omega) (by have := List.mem_range.mp hk; omega)

/-! ## The canonical form -/

theorem Memory.risesFrom_mono {m : Memory} {lo lo' : Nat} (h : Memory.risesFrom lo m = true) (hl : lo' ≤ lo) :
    Memory.risesFrom lo' m = true := by
  cases m with
  | nil => rfl
  | cons c m =>
    obtain ⟨k, y⟩ := c
    simp only [Memory.risesFrom, Bool.and_eq_true, decide_eq_true_eq] at h ⊢
    exact ⟨⟨by omega, h.1.2⟩, h.2⟩

theorem Memory.risesFrom_put {m : Memory} {lo a : Nat} {v : Byte} (h : Memory.risesFrom lo m = true) (hlo : lo ≤ a)
    (ha : a < 65536) : Memory.risesFrom lo (Memory.put m a v) = true := by
  induction m generalizing lo with
  | nil => simp [Memory.put, Memory.risesFrom, hlo, ha]
  | cons c m ih =>
    obtain ⟨k, y⟩ := c
    simp only [Memory.risesFrom, Bool.and_eq_true, decide_eq_true_eq] at h
    simp only [Memory.put]
    split
    · rename_i hk
      simp only [Memory.risesFrom, Bool.and_eq_true, decide_eq_true_eq]
      exact ⟨⟨hlo, ha⟩, ⟨⟨hk, h.1.2⟩, h.2⟩⟩
    · split
      · subst_vars
        simp only [Memory.risesFrom, Bool.and_eq_true, decide_eq_true_eq]
        exact ⟨⟨hlo, ha⟩, h.2⟩
      · simp only [Memory.risesFrom, Bool.and_eq_true, decide_eq_true_eq]
        exact ⟨h.1, ih h.2 (by omega)⟩

theorem Memory.wf_put {m : Memory} {a : Nat} {v : Byte} (h : Memory.wf m = true) (ha : a < 65536) :
    Memory.wf (Memory.put m a v) = true :=
  Memory.risesFrom_put h (Nat.zero_le _) ha

theorem Memory.wf_writeRange {m : Memory} {a : Nat} {b : Bytes} (h : Memory.wf m = true) (ha : a + b.length ≤ 65536) :
    Memory.wf (Memory.writeRange m a b) = true := by
  induction b generalizing m a with
  | nil => exact h
  | cons v b ih =>
    simp only [List.length_cons] at ha
    exact ih (Memory.wf_put h (by omega)) (by omega)

theorem Memory.wf_reset : Memory.wf State.reset.dmem = true := rfl

/-- In a canonical list no address is below `lo`. -/
theorem Memory.find_below {m : Memory} {lo x : Nat} (h : Memory.risesFrom lo m = true) (hx : x < lo) :
    Memory.find m x = none := by
  induction m generalizing lo with
  | nil => rfl
  | cons c m ih =>
    obtain ⟨k, y⟩ := c
    simp only [Memory.risesFrom, Bool.and_eq_true, decide_eq_true_eq] at h
    rw [Memory.find, if_neg (by omega)]
    exact ih h.2 (by omega)

/-- Canonical lists that store the same bytes are the same list. -/
theorem Memory.ext_of_risesFrom {m m' : Memory} {lo : Nat} (h : Memory.risesFrom lo m = true)
    (h' : Memory.risesFrom lo m' = true) (he : ∀ x, Memory.find m x = Memory.find m' x) : m = m' := by
  induction m generalizing lo m' with
  | nil =>
    cases m' with
    | nil => rfl
    | cons c m' => obtain ⟨k, y⟩ := c; have := he k; simp [Memory.find] at this
  | cons c m ih =>
    obtain ⟨k, y⟩ := c
    cases m' with
    | nil => have := he k; simp [Memory.find] at this
    | cons c' m' =>
      obtain ⟨k', y'⟩ := c'
      simp only [Memory.risesFrom, Bool.and_eq_true, decide_eq_true_eq] at h h'
      have e1 := he k
      have e2 := he k'
      simp only [Memory.find, if_true] at e1 e2
      have hk : k = k' := by
        rcases Nat.lt_trichotomy k k' with hlt | heq | hgt
        · rw [if_neg (by omega), Memory.find_below h'.2 (by omega)] at e1; simp at e1
        · exact heq
        · rw [if_neg (by omega), Memory.find_below h.2 (by omega)] at e2; simp at e2
      subst hk
      simp only [if_true, Option.some.injEq] at e1
      subst e1
      have : m = m' := by
        apply ih h.2 h'.2
        intro x
        by_cases hx : x = k
        · subst hx
          rw [Memory.find_below h.2 (by omega), Memory.find_below h'.2 (by omega)]
        · have := he x
          simpa [Memory.find, hx] using this
      rw [this]

end Sys2Proof.Machine
end

