-- ==== Sys2Proof/Laws/Ops.lean ====
section
/-! SUPPORT. What the shared shape of a command can do, said once: `retire`, `trap`, `firstFault`, `execute`, `withProfile`,
`bufferCommand`; then what any command whatever can do to the state. Later proofs cite these and open no meaning. -/

namespace Sys2Proof.Machine

/-! ## Ending a command -/

theorem retire_running {s : State} (t : State) (h : s.faulted = false) : retire s t = .next t := by simp [retire, h]

theorem retire_faulted {s : State} (t : State) (h : s.faulted = true) : retire s t = .refused .faultLatched := by
  simp [retire, h]

theorem trap_running {s : State} (w : CmdWord) (c : Cause) (h : s.faulted = false) :
    trap w c s = .next (s.recordFault w c) := retire_running _ h

theorem trap_faulted {s : State} (w : CmdWord) (c : Cause) (h : s.faulted = true) :
    trap w c s = .refused .faultLatched := retire_faulted _ h

@[simp] theorem firstFault_nil : firstFault [] = none := rfl

theorem firstFault_cons (ok : Bool) (c : Cause) (rest : List (Bool × Cause)) :
    firstFault ((ok, c) :: rest) = if ok then firstFault rest else some c := rfl

/-- No fault is raised exactly when every condition holds. -/
theorem firstFault_none (l : List (Bool × Cause)) : firstFault l = none ↔ ∀ x ∈ l, x.1 = true := by
  induction l with
  | nil => simp
  | cons x l ih =>
    obtain ⟨ok, c⟩ := x
    cases ok <;> simp [firstFault_cons, ih]

theorem execute_ok {i : Instr} {s t : State} {l : List (Bool × Cause)} (h : s.faulted = false)
    (hl : firstFault l = none) : execute i s l t = .next t := by
  simp [execute, hl, retire_running _ h]

theorem execute_fault {i : Instr} {s t : State} {l : List (Bool × Cause)} {c : Cause} (h : s.faulted = false)
    (hl : firstFault l = some c) : execute i s l t = .next (s.recordFault (encode i) c) := by
  simp [execute, hl, trap_running _ _ h]

theorem execute_faulted {i : Instr} {s t : State} {l : List (Bool × Cause)} (h : s.faulted = true) :
    execute i s l t = .refused .faultLatched := by
  unfold execute
  split
  · exact trap_faulted _ _ h
  · exact retire_faulted _ h

/-- Everything `execute` can answer. -/
theorem execute_cases (i : Instr) (s t : State) (l : List (Bool × Cause)) :
    (s.faulted = true ∧ execute i s l t = .refused .faultLatched) ∨
    (s.faulted = false ∧ firstFault l = none ∧ execute i s l t = .next t) ∨
    (s.faulted = false ∧ ∃ c, firstFault l = some c ∧ execute i s l t = .next (s.recordFault (encode i) c)) := by
  cases hf : s.faulted
  · cases hl : firstFault l with
    | none => exact .inr (.inl ⟨rfl, rfl, execute_ok hf hl⟩)
    | some c => exact .inr (.inr ⟨rfl, c, rfl, execute_fault hf hl⟩)
  · exact .inl ⟨rfl, execute_faulted hf⟩

theorem withProfile_some {i : Instr} {s : State} {k : Profile → Out} {pr : Profile} (h : s.profile? = some pr) :
    withProfile i s k = k pr := by simp [withProfile, h]

theorem withProfile_none {i : Instr} {s : State} {k : Profile → Out} (h : s.profile? = none) :
    withProfile i s k = trap (encode i) .profile s := by simp [withProfile, h]

theorem bufferCommand_ok {i : Instr} {ed es : SReg} {nin nout : Profile → Nat} {f : Profile → Bytes → Bytes} {s : State}
    {pr : Profile} (h : s.faulted = false) (hp : s.profile? = some pr) (hs : s.addr es + nin pr ≤ 65536)
    (hd : s.addr ed + nout pr ≤ 65536) :
    bufferCommand i ed es nin nout f s = .next (s.memWrite (s.addr ed) (f pr (s.memRead (s.addr es) (nin pr)))) := by
  rw [bufferCommand, withProfile_some hp]
  exact execute_ok h (by simp [firstFault_cons, rangeOk, hs, hd])

/-! ## What any command can do -/

/-- The ways a command that takes effect may change the state: one scalar register, one run of polynomial registers, one
range of DMEM inside its 65536 bytes, or the profile by a legal tuple (R56: each command writes one destination). -/
inductive Effect (s : State) : State → Prop where
  | scalar (d : SReg) (v : Word) : Effect s (s.setE d v)
  | poly (d : Nat) (q : Poly) : Effect s (s.setP d q)
  | polys (b : Nat) (qs : List Poly) : Effect s (s.setRun b qs)
  | bytes (a : Nat) (b : Bytes) (h : a + b.length ≤ 65536) : Effect s (s.memWrite a b)
  | profile (pr : Profile) : Effect s { s with params0 := packParams0 pr.tuple, params1 := packParams1 pr.tuple }

/-- Everything the execution of a command can answer: the refusal of R314, the fault of its own word, or an effect. -/
inductive Answer (i : Instr) (s : State) : Out → Prop where
  | refused (h : s.faulted = true) : Answer i s (.refused .faultLatched)
  | faulted (h : s.faulted = false) (c : Cause) : Answer i s (.next (s.recordFault (encode i) c))
  | done (h : s.faulted = false) {t : State} (e : Effect s t) : Answer i s (.next t)

theorem answer_execute {i : Instr} {s t : State} {l : List (Bool × Cause)} (he : firstFault l = none → Effect s t) :
    Answer i s (execute i s l t) := by
  rcases execute_cases i s t l with ⟨h, e⟩ | ⟨h, hl, e⟩ | ⟨h, c, _, e⟩
  · exact e ▸ .refused h
  · exact e ▸ .done h (he hl)
  · exact e ▸ .faulted h c

theorem answer_trap (i : Instr) (s : State) (c : Cause) : Answer i s (trap (encode i) c s) := by
  cases h : s.faulted
  · exact trap_running _ _ h ▸ .faulted h c
  · exact trap_faulted _ _ h ▸ .refused h

theorem answer_withProfile {i : Instr} {s : State} {k : Profile → Out} (hk : ∀ pr, Answer i s (k pr)) :
    Answer i s (withProfile i s k) := by
  unfold withProfile
  split
  · exact answer_trap i s _
  · exact hk _

theorem addr_lt (s : State) (ea : SReg) : s.addr ea < 65536 := (s.getE ea).isLt

theorem answer_bufferCommand {i : Instr} {ed es : SReg} {nin nout : Profile → Nat} {f : Profile → Bytes → Bytes} {s : State}
    (hf : ∀ pr b, b.length = nin pr → (f pr b).length = nout pr) :
    Answer i s (bufferCommand i ed es nin nout f s) := by
  refine answer_withProfile fun pr => answer_execute fun hl => .bytes _ _ ?_
  have hl := (firstFault_none _).mp hl _ (List.mem_singleton.mpr rfl)
  simp only [rangeOk, Bool.and_eq_true, decide_eq_true_eq] at hl
  rw [hf _ _ (State.length_memRead _ _ _)]
  exact hl.2

/-- A tuple that is one of the six rows is the tuple of a profile. -/
theorem tupleOk_iff (t : ParamTuple) : tupleOk t = true ↔ ∃ pr : Profile, pr.tuple = t := by
  rw [tupleOk, Profile.ofTuple?, List.find?_isSome]
  constructor
  · rintro ⟨pr, -, h⟩
    exact ⟨pr, of_decide_eq_true h⟩
  · rintro ⟨pr, h⟩
    exact ⟨pr, by cases pr <;> decide, decide_eq_true h⟩

end Sys2Proof.Machine
end

