-- ==== Sys2Proof/Laws/Exec.lean ====
section
/-! SUPPORT. The inversion of `exec`, `issue` and `step`: everything they can answer, said once. Invariant and frame proofs
split on these and open no meaning. -/

namespace Sys2Proof.Machine

/-- A command that lists no condition raises no fault. -/
theorem answer_plain {i : Instr} {s t : State} (e : Effect s t) : Answer i s (execute i s [] t) :=
  answer_execute fun _ => e

/-- The one-byte store stays inside DMEM at every address. -/
theorem addr_add_one_le (s : State) (ea : SReg) : s.addr ea + 1 ≤ 65536 := addr_lt s ea

theorem rangeOk_iff (a n : Nat) : rangeOk a n = true ↔ a + n ≤ 65536 := by simp [rangeOk]

/-- The last condition of a list that all holds. -/
theorem firstFault_mem {l : List (Bool × Cause)} (h : firstFault l = none) {ok : Bool} {c : Cause} (hm : (ok, c) ∈ l) :
    ok = true := (firstFault_none l).mp h _ hm

/-- Everything a command can answer. -/
theorem answer_exec (i : Instr) (s : State) : Answer i s (exec i s) := by
  cases i with
  | setprof L eq ep et mu u =>
    refine answer_execute fun h => ?_
    obtain ⟨pr, hpr⟩ := (tupleOk_iff _).mp (firstFault_mem h (List.mem_singleton.mpr rfl))
    rw [← hpr]
    exact .profile pr
  | rdcsr ed csr =>
    simp only [exec, execRdcsr]
    split
    · exact answer_trap _ _ _
    · rename_i v _
      cases h : s.faulted
      · exact retire_running _ h ▸ .done h (.scalar ed v)
      · exact retire_faulted _ h ▸ .refused h
  | eli | eadd | esub | eneg | emul | eshl | eshr | ered | eldb | pgetc => exact answer_plain (.scalar _ _)
  | eld | cteq => exact answer_execute fun _ => .scalar _ _
  | pzero | pmov | padd | pacc | psub | pmul | pshl | pshr | pmod | psetc => exact answer_plain (.poly _ _)
  | pldc | pdec | pcbd | puni | minner =>
    simp only [exec, execPldc, execPdec, execPcbd, execPuni, execMinner]
    exact answer_execute fun _ => .poly _ _
  | madd | mshl | mshr | mmod | mtrn | mvmul | mdec => exact answer_execute fun _ => .polys _ _
  | genmat | gensec => exact answer_withProfile fun _ => answer_execute fun _ => .polys _ _
  | estb es ea => exact answer_plain (.bytes _ _ (addr_add_one_le s ea))
  | est es ea =>
    refine answer_execute fun h => .bytes _ _ ?_
    exact (rangeOk_iff _ 2).mp (firstFault_mem (c := .memRange) h (by simp only [List.mem_singleton]))
  | pstc ps ea =>
    simp only [exec, execPstc]
    refine answer_execute fun h => .bytes _ _ ?_
    rw [length_arrayOfPoly]
    exact (rangeOk_iff _ _).mp (firstFault_mem (c := .memRange) h (by simp only [List.mem_singleton]))
  | penc ps ea w =>
    refine answer_execute fun h => .bytes _ _ ?_
    rw [length_encodePoly]
    exact (rangeOk_iff _ _).mp (firstFault_mem (c := .memRange) h (by simp))
  | menc ps ea w r c =>
    refine answer_execute fun h => .bytes _ _ ?_
    rw [length_vecEncode, State.length_getRun]
    exact (rangeOk_iff _ _).mp (firstFault_mem (c := .memRange) h (by simp [packedLen]))
  | pkeKeygen ed es => exact answer_bufferCommand fun pr b _ => length_pkeKeygenBytes pr b
  | pkeEnc ed es => exact answer_bufferCommand fun pr b _ => length_pkeEncBytes pr b
  | pkeDec ed es => exact answer_bufferCommand fun pr b _ => length_pkeDecBytes pr b
  | kemKeygen ed es => exact answer_bufferCommand fun pr b h => length_kemKeygenBytes pr b h
  | kemEncaps ed es => exact answer_bufferCommand fun pr b _ => length_kemEncapsBytes pr b
  | kemDecaps ed es => exact answer_bufferCommand fun pr b _ => length_kemDecapsBytes pr b
  | ctsel ed ef ex ey el =>
    refine answer_execute fun h => ?_
    have := firstFault_mem h (List.mem_cons_self ..)
    simp only [Bool.and_eq_true, rangeOk_iff] at this
    obtain ⟨f, hf⟩ := Option.isSome_iff_exists.mp (firstFault_mem (c := .flag) (ok := flagOk (s.getE ef)) h (by simp))
    rw [hf]
    refine .bytes _ _ ?_
    rw [length_ctSel, State.length_memRead, State.length_memRead, Nat.min_self]
    exact this.1.1

/-- Every command that has taken effect leaves the host's moves, its reply and the fault registers as they were. -/
theorem Effect.frame {s t : State} (e : Effect s t) :
    t.moves = s.moves ∧ t.reply = s.reply ∧ t.status = s.status ∧ t.finfoLo = s.finfoLo ∧ t.finfoHi = s.finfoHi := by
  cases e <;> simp

/-! ## Issue, moves and steps -/

theorem issue_instr {w : CmdWord} {i : Instr} (s : State) (h : decode w = .instr i) : issue w s = exec i s := by
  simp [issue, h]

theorem issue_rejected {w : CmdWord} {r : DecodeReject} (s : State) (h : decode w = .rejected r) :
    issue w s = trap w .illegal s := by
  simp [issue, h]

theorem step_idle {s : State} (h : s.moves = []) : step s = .next s := by simp [step, stepMove, h]

theorem step_move {s : State} {m : HostMove} {rest : List HostMove} (h : s.moves = m :: rest) :
    step s = hostMove m (s.afterTaking rest) := by simp [step, stepMove, h]

/-- Everything a host move that is answered by a next state can do. -/
theorem hostMove_cases {m : HostMove} {s t : State} (h : hostMove m s = .next t) :
    t = s.afterReset ∨ (∃ w c, t = s.recordFault w c) ∨ Effect s t ∨
    (∃ a b, a + b.length ≤ 65536 ∧ t = s.memWrite a b) ∨ (∃ r, t = { s with reply := some r }) := by
  cases m with
  | reset => exact .inl (Host.Outcome.next.inj h).symm
  | issue w =>
    simp only [hostMove, issue] at h
    split at h
    · rename_i i _
      have ha := answer_exec i s
      rw [h] at ha
      cases ha with
      | faulted _ c => exact .inr (.inl ⟨_, c, rfl⟩)
      | done _ e => exact .inr (.inr (.inl e))
    · cases hf : s.faulted
      · rw [trap_running _ _ hf] at h
        exact .inr (.inl ⟨w, .illegal, (Host.Outcome.next.inj h).symm⟩)
      · rw [trap_faulted _ _ hf] at h
        cases h
  | writeDmem a b =>
    simp only [hostMove] at h
    split at h
    · exact .inr (.inr (.inr (.inl ⟨a, b, ‹_›, (Host.Outcome.next.inj h).symm⟩)))
    · cases h
  | readDmem a n =>
    simp only [hostMove] at h
    split at h
    · exact .inr (.inr (.inr (.inr ⟨_, (Host.Outcome.next.inj h).symm⟩)))
    · cases h
  | readCsr n => exact .inr (.inr (.inr (.inr ⟨_, (Host.Outcome.next.inj h).symm⟩)))

end Sys2Proof.Machine
end

