-- ==== Sys2Proof/Laws/Frames.lean ====
section
/-! SUPPORT. From "exec answers this updated state" to the forms claims are stated in: what each update leaves unchanged, and
the value it writes. One lemma an update; a claim about a command needs no more than its next state and its value. -/

namespace Sys2Proof.Machine

open Sys2Proof.Safety

/-! ## Frames -/

theorem frameScalar_setE (s : State) (d : SReg) (v : Word) : FrameScalar s (s.setE d v) d :=
  ⟨fun i h => State.getE_setE_ne s d i v h, fun _ => rfl, fun _ => rfl, ⟨⟨rfl, rfl⟩, rfl, rfl, rfl⟩, rfl, rfl⟩

theorem framePolys_setRun (s : State) (b : Nat) (qs : List Poly) : FramePolys s (s.setRun b qs) b qs.length :=
  ⟨fun _ => by simp, fun i h => State.getP_setRun_outside s b qs i h, fun _ => by simp, by simp [SameControl, SameParams, SameFaultRegs],
    by simp [SameHost]⟩

theorem framePolys_setP (s : State) (d : PReg) (q : Poly) : FramePolys s (s.setP d q) d 1 :=
  framePolys_setRun s d [q]

theorem frameDmem_memWrite (s : State) (a : Nat) (b : Bytes) : FrameDmem s (s.memWrite a b) a b.length :=
  ⟨fun _ => rfl, fun _ => rfl, fun x h => State.readByte_memWrite_outside s a x b h, ⟨⟨rfl, rfl⟩, rfl, rfl, rfl⟩, rfl, rfl⟩

theorem holdsBytes_memWrite (s : State) (a : Nat) (b : Bytes) : HoldsBytes (s.memWrite a b) a b :=
  fun k h => State.readByte_memWrite_inside s a k b h

theorem faultRecorded_recordFault (s : State) (w : CmdWord) (c : Cause) : FaultRecorded s (s.recordFault w c) c.code w := by
  refine ⟨by simp, by simp, by simp [faultStatus_toNat], ?_, ?_, fun _ => rfl, fun _ => rfl, fun _ => rfl, ⟨rfl, rfl⟩, rfl, rfl⟩
  · simp [finfoLoOf, BitVec.extractLsb'_toNat]
  · have := w.isLt
    simp only [State.recordFault_finfoHi, finfoHiOf, BitVec.extractLsb'_toNat, Nat.shiftRight_eq_div_pow]
    omega

/-! ## Commands that complete -/

theorem writesScalar_of_exec {i : Instr} {s : State} {d : SReg} {v : Word} {x : Int} (h : exec i s = .next (s.setE d v))
    (hv : (v.toNat : Int) = x) : WritesScalar i s d x :=
  ⟨_, h, by simpa [num] using hv, frameScalar_setE s d v⟩

theorem writesPoly_of_exec {i : Instr} {s : State} {d : PReg} {q : Poly} {f : Nat → Int} (h : exec i s = .next (s.setP d q))
    (hv : ∀ j, j < 256 → val q j = f j) : WritesPoly i s d f :=
  ⟨_, h, by simpa using hv, framePolys_setP s d q⟩

theorem writesRun_of_exec {i : Instr} {s : State} {b n : Nat} {qs : List Poly} {f : Nat → Nat → Int}
    (h : exec i s = .next (s.setRun b qs)) (hn : qs.length = n) (hb : b + n ≤ 32)
    (hv : ∀ k, k < n → ∀ j, j < 256 → val (elt qs k) j = f k j) : WritesRun i s b n f := by
  subst hn
  refine ⟨_, h, fun k hk j hj => ?_, framePolys_setRun s b qs⟩
  rw [State.getP_setRun_inside s b qs k hk hb]
  exact hv k hk j hj

theorem stores_of_exec {i : Instr} {s : State} {a : Nat} {b : Bytes} (h : exec i s = .next (s.memWrite a b)) : Stores i s a b :=
  ⟨_, h, holdsBytes_memWrite s a b, frameDmem_memWrite s a b⟩

/-! ## Commands that fault -/

theorem faults_of_exec {i : Instr} {s : State} {c : Cause} (h : exec i s = .next (s.recordFault (encode i) c)) :
    Faults i s c.code :=
  ⟨_, h, faultRecorded_recordFault s (encode i) c⟩

/-- A command is in no two of: a fault of one code, a fault of another, an end without a fault. -/
theorem faults_unique {i : Instr} {s : State} {c d : Nat} (h : Faults i s c) (h' : Faults i s d) : c = d := by
  obtain ⟨t, e, -, hc, -⟩ := h
  obtain ⟨t', e', -, hd, -⟩ := h'
  rw [e] at e'
  cases e'
  rw [← hc, ← hd]

theorem not_faults_of_running {i : Instr} {s t : State} {c : Nat} (h : exec i s = .next t) (ht : t.faulted = false) :
    ¬Faults i s c := by
  rintro ⟨t', e, hf, -⟩
  rw [h] at e
  cases e
  rw [ht] at hf
  cases hf

/-! ## The profile -/

/-- The profile PARAMS0 and PARAMS1 hold is the one a command reads (R27). -/
theorem profile?_eq_some (s : State) (pr : Profile) : s.profile? = some pr ↔ HoldsProfile s pr := by
  have key : ∀ pr : Profile, (packParams0 pr.tuple = s.params0 ∧ packParams1 pr.tuple = s.params1) ↔ HoldsProfile s pr := by
    intro pr
    have e0 : (packParams0 pr.tuple).toNat = pr.L + 16 * pr.epsQ + 256 * pr.epsP + 4096 * pr.epsT := by cases pr <;> decide
    have e1 : (packParams1 pr.tuple).toNat = pr.mu + 16 * pr.uniform.toNat := by cases pr <;> decide
    rw [HoldsProfile, ← e0, ← e1]
    constructor
    · rintro ⟨h0, h1⟩; exact ⟨by rw [h0], by rw [h1]⟩
    · rintro ⟨h0, h1⟩; exact ⟨BitVec.eq_of_toNat_eq h0.symm, BitVec.eq_of_toNat_eq h1.symm⟩
  have inj : ∀ pr pr' : Profile, packParams0 pr.tuple = packParams0 pr'.tuple → packParams1 pr.tuple = packParams1 pr'.tuple →
      pr = pr' := by
    intro pr pr'
    cases pr <;> cases pr' <;> decide
  rw [← key, State.profile?, Profile.ofParams?]
  constructor
  · intro h
    simpa using List.find?_some h
  · rintro ⟨h0, h1⟩
    cases hf : Profile.all.find? fun pr => decide (packParams0 pr.tuple = s.params0 ∧ packParams1 pr.tuple = s.params1) with
    | none =>
      have := List.find?_eq_none.mp hf pr (by cases pr <;> decide)
      simp [h0, h1] at this
    | some pr' =>
      have hp : packParams0 pr'.tuple = s.params0 ∧ packParams1 pr'.tuple = s.params1 := by simpa using List.find?_some hf
      rw [inj pr' pr (hp.1.trans h0.symm) (hp.2.trans h1.symm)]

theorem profile?_eq_none (s : State) : s.profile? = none ↔ NoProfile s := by
  constructor
  · intro h pr hp
    rw [(profile?_eq_some s pr).mpr hp] at h
    cases h
  · intro h
    cases hp : s.profile? with
    | none => rfl
    | some pr => exact absurd ((profile?_eq_some s pr).mp hp) (h pr)

end Sys2Proof.Machine
end

