-- ==== Sys2Proof/Laws/Equations.lean ====
section
/-! SUPPORT. What each command is in terms of the shared operations: one equation a command, and for the commands that need a
profile what they are once one is held. Proofs about a command rewrite with its equation and go on with the lemmas of Ops and
Frames. -/

namespace Sys2Proof.Machine

theorem exec_setprof (L : Fin 8) (eq ep : Fin 16) (et : Fin 8) (mu : Fin 16) (u : Fin 2) (s : State) :
    exec (.setprof L eq ep et mu u) s =
      execute (.setprof L eq ep et mu u) s [(tupleOk (setprofTuple L eq ep et mu u), .profile)]
        { s with
          params0 := packParams0 (setprofTuple L eq ep et mu u)
          params1 := packParams1 (setprofTuple L eq ep et mu u) } := rfl

theorem exec_rdcsr (ed : SReg) (csr : Fin 16) (s : State) :
    exec (.rdcsr ed csr) s =
      match s.csr? csr with
      | none => trap (encode (.rdcsr ed csr)) .illegal s
      | some v => retire s (s.setE ed v) := rfl

theorem exec_eli (ed : SReg) (imm16 : Word) (s : State) :
    exec (.eli ed imm16) s =
      execute (.eli ed imm16) s [] (s.setE ed imm16) := rfl

theorem exec_eadd (ed ea eb : SReg) (s : State) :
    exec (.eadd ed ea eb) s =
      execute (.eadd ed ea eb) s [] (s.setE ed (ringAdd (s.getE ea) (s.getE eb))) := rfl

theorem exec_esub (ed ea eb : SReg) (s : State) :
    exec (.esub ed ea eb) s =
      execute (.esub ed ea eb) s [] (s.setE ed (ringSub (s.getE ea) (s.getE eb))) := rfl

theorem exec_eneg (ed ea : SReg) (s : State) :
    exec (.eneg ed ea) s =
      execute (.eneg ed ea) s [] (s.setE ed (ringNeg (s.getE ea))) := rfl

theorem exec_emul (ed ea eb : SReg) (s : State) :
    exec (.emul ed ea eb) s =
      execute (.emul ed ea eb) s [] (s.setE ed (ringMul (s.getE ea) (s.getE eb))) := rfl

theorem exec_eshl (ed ea : SReg) (sh : Fin 16) (s : State) :
    exec (.eshl ed ea sh) s =
      execute (.eshl ed ea sh) s [] (s.setE ed (ringShl (s.getE ea) sh)) := rfl

theorem exec_eshr (ed ea : SReg) (sh : Fin 16) (s : State) :
    exec (.eshr ed ea sh) s =
      execute (.eshr ed ea sh) s [] (s.setE ed (ringShr (s.getE ea) sh)) := rfl

theorem exec_ered (ed ea : SReg) (k : Fin 16) (s : State) :
    exec (.ered ed ea k) s =
      execute (.ered ed ea k) s [] (s.setE ed (ringRed (s.getE ea) k)) := rfl

theorem exec_eld (ed ea : SReg) (s : State) :
    exec (.eld ed ea) s =
      execute (.eld ed ea) s [(rangeOk (s.addr ea) 2, .memRange)]
        (s.setE ed (wordOfBytes (byteAt (s.memRead (s.addr ea) 2) 0) (byteAt (s.memRead (s.addr ea) 2) 1))) := rfl

theorem exec_est (es ea : SReg) (s : State) :
    exec (.est es ea) s =
      execute (.est es ea) s [(rangeOk (s.addr ea) 2, .memRange)]
        (s.memWrite (s.addr ea) (bytesOfWord (s.getE es))) := rfl

theorem exec_eldb (ed ea : SReg) (s : State) :
    exec (.eldb ed ea) s =
      execute (.eldb ed ea) s []
        (s.setE ed ((byteAt (s.memRead (s.addr ea) 1) 0).setWidth 16)) := rfl

theorem exec_estb (es ea : SReg) (s : State) :
    exec (.estb es ea) s =
      execute (.estb es ea) s [] (s.memWrite (s.addr ea) [lowByte (s.getE es)]) := rfl

theorem exec_pzero (pd : PReg) (s : State) :
    exec (.pzero pd) s =
      execute (.pzero pd) s [] (s.setP pd polyZero) := rfl

theorem exec_pmov (pd pa : PReg) (s : State) :
    exec (.pmov pd pa) s =
      execute (.pmov pd pa) s [] (s.setP pd (s.getP pa)) := rfl

theorem exec_padd (pd pa pb : PReg) (s : State) :
    exec (.padd pd pa pb) s =
      execute (.padd pd pa pb) s [] (s.setP pd (polyAdd (s.getP pa) (s.getP pb))) := rfl

theorem exec_pacc (pd pa : PReg) (s : State) :
    exec (.pacc pd pa) s =
      execute (.pacc pd pa) s [] (s.setP pd (polyAdd (s.getP pd) (s.getP pa))) := rfl

theorem exec_psub (pd pa pb : PReg) (s : State) :
    exec (.psub pd pa pb) s =
      execute (.psub pd pa pb) s [] (s.setP pd (polySub (s.getP pa) (s.getP pb))) := rfl

theorem exec_pmul (pd pa pb : PReg) (s : State) :
    exec (.pmul pd pa pb) s =
      execute (.pmul pd pa pb) s [] (s.setP pd (polyMul (s.getP pa) (s.getP pb))) := rfl

theorem exec_pshl (pd pa : PReg) (sh : Fin 16) (s : State) :
    exec (.pshl pd pa sh) s =
      execute (.pshl pd pa sh) s [] (s.setP pd (polyShl (s.getP pa) sh)) := rfl

theorem exec_pshr (pd pa : PReg) (sh : Fin 16) (s : State) :
    exec (.pshr pd pa sh) s =
      execute (.pshr pd pa sh) s [] (s.setP pd (polyShr (s.getP pa) sh)) := rfl

theorem exec_pmod (pd pa : PReg) (k : Fin 16) (s : State) :
    exec (.pmod pd pa k) s =
      execute (.pmod pd pa k) s [] (s.setP pd (polyMod (s.getP pa) k)) := rfl

theorem exec_pldc (pd : PReg) (ea : SReg) (s : State) :
    exec (.pldc pd ea) s =
      execute (.pldc pd ea) s [(rangeOk (s.addr ea) 512, .memRange)]
        (s.setP pd (polyOfArray (s.memRead (s.addr ea) 512))) := rfl

theorem exec_pstc (ps : PReg) (ea : SReg) (s : State) :
    exec (.pstc ps ea) s =
      execute (.pstc ps ea) s [(rangeOk (s.addr ea) 512, .memRange)]
        (s.memWrite (s.addr ea) (arrayOfPoly (s.getP ps))) := rfl

theorem exec_pgetc (ed : SReg) (pa : PReg) (idx : Fin 256) (s : State) :
    exec (.pgetc ed pa idx) s =
      execute (.pgetc ed pa idx) s [] (s.setE ed (coeff (s.getP pa) idx)) := rfl

theorem exec_psetc (pd : PReg) (idx : Fin 256) (es : SReg) (s : State) :
    exec (.psetc pd idx es) s =
      execute (.psetc pd idx es) s [] (s.setP pd (polySet (s.getP pd) idx (s.getE es))) := rfl

theorem exec_penc (ps : PReg) (ea : SReg) (w : Fin 16) (s : State) :
    exec (.penc ps ea w) s =
      execute (.penc ps ea w) s
        [(codecWidthOk w, .width), (rangeOk (s.addr ea) (32 * w), .memRange)]
        (s.memWrite (s.addr ea) (encodePoly (s.getP ps) w)) := rfl

theorem exec_pdec (pd : PReg) (ea : SReg) (w : Fin 16) (s : State) :
    exec (.pdec pd ea w) s =
      execute (.pdec pd ea w) s
        [(codecWidthOk w, .width), (rangeOk (s.addr ea) (32 * w), .memRange)]
        (s.setP pd (decodePoly (s.memRead (s.addr ea) (32 * w)) w)) := rfl

theorem exec_madd (pd pa pb : PReg) (r c : Fin 8) (s : State) :
    exec (.madd pd pa pb r c) s =
      execute (.madd pd pa pb r c) s
        [(shapeOk r c, .shape), (runFits pd (r * c) && runFits pa (r * c) && runFits pb (r * c), .pregRange)]
        (s.setRun pd (List.zipWith polyAdd (s.getRun pa (r * c)) (s.getRun pb (r * c)))) := rfl

theorem exec_mshl (pd pa : PReg) (r c : Fin 8) (sh : Fin 16) (s : State) :
    exec (.mshl pd pa r c sh) s =
      execute (.mshl pd pa r c sh) s
        [(shapeOk r c, .shape), (runFits pd (r * c) && runFits pa (r * c), .pregRange)]
        (s.setRun pd ((s.getRun pa (r * c)).map fun q => polyShl q sh)) := rfl

theorem exec_mshr (pd pa : PReg) (r c : Fin 8) (sh : Fin 16) (s : State) :
    exec (.mshr pd pa r c sh) s =
      execute (.mshr pd pa r c sh) s
        [(shapeOk r c, .shape), (runFits pd (r * c) && runFits pa (r * c), .pregRange)]
        (s.setRun pd ((s.getRun pa (r * c)).map fun q => polyShr q sh)) := rfl

theorem exec_mmod (pd pa : PReg) (r c : Fin 8) (k : Fin 16) (s : State) :
    exec (.mmod pd pa r c k) s =
      execute (.mmod pd pa r c k) s
        [(shapeOk r c, .shape), (runFits pd (r * c) && runFits pa (r * c), .pregRange)]
        (s.setRun pd ((s.getRun pa (r * c)).map fun q => polyMod q k)) := rfl

theorem exec_mtrn (pd pa : PReg) (r c : Fin 8) (s : State) :
    exec (.mtrn pd pa r c) s =
      execute (.mtrn pd pa r c) s
        [(squareOk r c, .shape), (runFits pd (r * r) && runFits pa (r * r), .pregRange)]
        (s.setRun pd (transpose (s.getRun pa (r * r)) r)) := rfl

theorem exec_mvmul (pd pa pb : PReg) (r c : Fin 8) (s : State) :
    exec (.mvmul pd pa pb r c) s =
      execute (.mvmul pd pa pb r c) s
        [(squareOk r c, .shape), (runFits pa (r * r) && runFits pb r && runFits pd r, .pregRange)]
        (s.setRun pd (matVec (s.getRun pa (r * r)) (s.getRun pb r) r)) := rfl

theorem exec_minner (pd pa pb : PReg) (r c : Fin 8) (s : State) :
    exec (.minner pd pa pb r c) s =
      execute (.minner pd pa pb r c) s
        [(columnOk r c, .shape), (runFits pa r && runFits pb r, .pregRange)]
        (s.setP pd (inner (s.getRun pa r) (s.getRun pb r) r)) := rfl

theorem exec_menc (ps : PReg) (ea : SReg) (w : Fin 16) (r c : Fin 8) (s : State) :
    exec (.menc ps ea w r c) s =
      execute (.menc ps ea w r c) s
        [(codecWidthOk w, .width), (columnOk r c, .shape), (runFits ps r, .pregRange),
          (rangeOk (s.addr ea) (packedLen r w), .memRange)]
        (s.memWrite (s.addr ea) (vecEncode (s.getRun ps r) w)) := rfl

theorem exec_mdec (pd : PReg) (ea : SReg) (w : Fin 16) (r c : Fin 8) (s : State) :
    exec (.mdec pd ea w r c) s =
      execute (.mdec pd ea w r c) s
        [(codecWidthOk w, .width), (columnOk r c, .shape), (runFits pd r, .pregRange),
          (rangeOk (s.addr ea) (packedLen r w), .memRange)]
        (s.setRun pd (vecDecode (s.memRead (s.addr ea) (packedLen r w)) r w)) := rfl

theorem exec_genmat (pd : PReg) (ea : SReg) (s : State) :
    exec (.genmat pd ea) s =
      withProfile (.genmat pd ea) s fun pr =>
        execute (.genmat pd ea) s
          [(runFits pd (pr.L * pr.L), .pregRange), (rangeOk (s.addr ea) 32, .memRange)]
          (s.setRun pd (genMatrix (s.memRead (s.addr ea) 32) pr.L pr.epsQ)) := rfl

theorem exec_gensec (pd : PReg) (ea : SReg) (s : State) :
    exec (.gensec pd ea) s =
      withProfile (.gensec pd ea) s fun pr =>
        execute (.gensec pd ea) s
          [(runFits pd pr.L, .pregRange), (rangeOk (s.addr ea) 32, .memRange)]
          (s.setRun pd (genSecret (s.memRead (s.addr ea) 32) pr.L pr.mu pr.uniform)) := rfl

theorem exec_pcbd (pd : PReg) (ea : SReg) (mu : Fin 16) (s : State) :
    exec (.pcbd pd ea mu) s =
      execute (.pcbd pd ea mu) s
        [(cbdWidthOk mu, .width), (rangeOk (s.addr ea) (32 * mu), .memRange)]
        (s.setP pd (cbd (s.memRead (s.addr ea) (32 * mu)) mu)) := rfl

theorem exec_puni (pd : PReg) (ea : SReg) (s : State) :
    exec (.puni pd ea) s =
      execute (.puni pd ea) s [(rangeOk (s.addr ea) 64, .memRange)]
        (s.setP pd (uni (s.memRead (s.addr ea) 64))) := rfl

theorem exec_pkeKeygen (ed es : SReg) (s : State) :
    exec (.pkeKeygen ed es) s =
      bufferCommand (.pkeKeygen ed es) ed es (fun _ => 64) (fun pr => pr.pkLen + pr.pkeSkLen) pkeKeygenBytes s := rfl

theorem exec_pkeEnc (ed es : SReg) (s : State) :
    exec (.pkeEnc ed es) s =
      bufferCommand (.pkeEnc ed es) ed es (fun pr => 64 + pr.pkLen) (fun pr => pr.ctLen) pkeEncBytes s := rfl

theorem exec_pkeDec (ed es : SReg) (s : State) :
    exec (.pkeDec ed es) s =
      bufferCommand (.pkeDec ed es) ed es (fun pr => pr.ctLen + pr.pkeSkLen) (fun _ => 32) pkeDecBytes s := rfl

theorem exec_kemKeygen (ed es : SReg) (s : State) :
    exec (.kemKeygen ed es) s =
      bufferCommand (.kemKeygen ed es) ed es (fun _ => 96) (fun pr => pr.pkLen + pr.skLen) kemKeygenBytes s := rfl

theorem exec_kemEncaps (ed es : SReg) (s : State) :
    exec (.kemEncaps ed es) s =
      bufferCommand (.kemEncaps ed es) ed es (fun pr => 32 + pr.pkLen) (fun pr => pr.ctLen + 32) kemEncapsBytes s := rfl

theorem exec_kemDecaps (ed es : SReg) (s : State) :
    exec (.kemDecaps ed es) s =
      bufferCommand (.kemDecaps ed es) ed es (fun pr => pr.ctLen + pr.skLen) (fun _ => 32) kemDecapsBytes s := rfl

theorem exec_cteq (ed ea eb el : SReg) (s : State) :
    exec (.cteq ed ea eb el) s =
      execute (.cteq ed ea eb el) s
        [(rangeOk (s.addr ea) (s.len el) && rangeOk (s.addr eb) (s.len el), .memRange)]
        (s.setE ed (ctEq (s.memRead (s.addr ea) (s.len el)) (s.memRead (s.addr eb) (s.len el)))) := rfl

theorem exec_ctsel (ed ef ex ey el : SReg) (s : State) :
    exec (.ctsel ed ef ex ey el) s =
      execute (.ctsel ed ef ex ey el) s
        [(rangeOk (s.addr ed) (s.len el) && rangeOk (s.addr ex) (s.len el) && rangeOk (s.addr ey) (s.len el), .memRange),
          (flagOk (s.getE ef), .flag)]
        (match SelectFlag.ofWord? (s.getE ef) with
          | some f =>
            s.memWrite (s.addr ed) (ctSel f (s.memRead (s.addr ex) (s.len el)) (s.memRead (s.addr ey) (s.len el)))
          | none => s) := rfl

/-- CTSEL with a legal flag: the range condition alone is left. -/
theorem exec_ctsel_flag (ed ex ey el : SReg) {ef : SReg} {s : State} {f : SelectFlag} (h : s.getE ef = f.word) :
    exec (.ctsel ed ef ex ey el) s =
      execute (.ctsel ed ef ex ey el) s
        [(rangeOk (s.addr ed) (s.len el) && rangeOk (s.addr ex) (s.len el) && rangeOk (s.addr ey) (s.len el), .memRange)]
        (s.memWrite (s.addr ed) (ctSel f (s.memRead (s.addr ex) (s.len el)) (s.memRead (s.addr ey) (s.len el)))) := by
  simp [exec_ctsel, h, flagOk, execute, firstFault_cons]

/-! ## With a profile held -/

theorem exec_genmat_held (pd : PReg) (ea : SReg) {s : State} {pr : Profile} (h : s.profile? = some pr) :
    exec (.genmat pd ea) s =
      execute (.genmat pd ea) s [(runFits pd (pr.L * pr.L), .pregRange), (rangeOk (s.addr ea) 32, .memRange)]
        (s.setRun pd (genMatrix (s.memRead (s.addr ea) 32) pr.L pr.epsQ)) :=
  withProfile_some h

theorem exec_gensec_held (pd : PReg) (ea : SReg) {s : State} {pr : Profile} (h : s.profile? = some pr) :
    exec (.gensec pd ea) s =
      execute (.gensec pd ea) s [(runFits pd pr.L, .pregRange), (rangeOk (s.addr ea) 32, .memRange)]
        (s.setRun pd (genSecret (s.memRead (s.addr ea) 32) pr.L pr.mu pr.uniform)) :=
  withProfile_some h

theorem bufferCommand_held (i : Instr) (ed es : SReg) (nin nout : Profile → Nat) (f : Profile → Bytes → Bytes) {s : State}
    {pr : Profile} (h : s.profile? = some pr) :
    bufferCommand i ed es nin nout f s =
      execute i s [(rangeOk (s.addr es) (nin pr) && rangeOk (s.addr ed) (nout pr), .memRange)]
        (s.memWrite (s.addr ed) (f pr (s.memRead (s.addr es) (nin pr)))) :=
  withProfile_some h

theorem bufferCommand_none (i : Instr) (ed es : SReg) (nin nout : Profile → Nat) (f : Profile → Bytes → Bytes) {s : State}
    (h : s.profile? = none) : bufferCommand i ed es nin nout f s = trap (encode i) .profile s :=
  withProfile_none h

end Sys2Proof.Machine
end

