-- ==== Sys2Proof/Laws/PerInstr.lean ====
section
/-! SUPPORT. Statements about every command, as syntax. Family `EncodedOpcode`: the word of a command carries in bits [31:24]
the opcode byte of its row of the opcode map (spec/30_encoding.md R70, R88). -/

namespace Sys2Proof.Laws

/-- The opcode byte of each command, the first column of the map of R88. -/
def opcodeByte : Instr → Nat
  | .setprof .. => 0x01
  | .rdcsr .. => 0x02
  | .eli .. => 0x10
  | .eadd .. => 0x11
  | .esub .. => 0x12
  | .eneg .. => 0x13
  | .emul .. => 0x14
  | .eshl .. => 0x15
  | .eshr .. => 0x16
  | .ered .. => 0x17
  | .eld .. => 0x18
  | .est .. => 0x19
  | .eldb .. => 0x1A
  | .estb .. => 0x1B
  | .pzero .. => 0x20
  | .pmov .. => 0x21
  | .padd .. => 0x22
  | .pacc .. => 0x23
  | .psub .. => 0x24
  | .pmul .. => 0x25
  | .pshl .. => 0x26
  | .pshr .. => 0x27
  | .pmod .. => 0x28
  | .pldc .. => 0x29
  | .pstc .. => 0x2A
  | .pgetc .. => 0x2B
  | .psetc .. => 0x2C
  | .penc .. => 0x30
  | .pdec .. => 0x31
  | .madd .. => 0x40
  | .mshl .. => 0x41
  | .mshr .. => 0x42
  | .mmod .. => 0x43
  | .mtrn .. => 0x44
  | .mvmul .. => 0x45
  | .minner .. => 0x46
  | .menc .. => 0x47
  | .mdec .. => 0x48
  | .genmat .. => 0x49
  | .gensec .. => 0x4A
  | .pcbd .. => 0x50
  | .puni .. => 0x51
  | .pkeKeygen .. => 0x60
  | .pkeEnc .. => 0x61
  | .pkeDec .. => 0x62
  | .kemKeygen .. => 0x70
  | .kemEncaps .. => 0x71
  | .kemDecaps .. => 0x72
  | .cteq .. => 0x80
  | .ctsel .. => 0x81

/-! One lemma a format: the opcode is above every field. -/

theorem opcodeOf_encSP (op : Nat) (L : Fin 8) (eq : Fin 16) (ep : Fin 16) (et : Fin 8) (mu : Fin 16) (u : Fin 2) (h : op < 256) :
    opcodeOf (encSP op L eq ep et mu u) = op := by
  have := L.isLt; have := eq.isLt; have := ep.isLt; have := et.isLt; have := mu.isLt; have := u.isLt
  simp only [opcodeOf, bitsAt, encSP, BitVec.toNat_ofNat]
  omega

theorem opcodeOf_encCR (op : Nat) (ed : Fin 16) (csr : Fin 16) (h : op < 256) :
    opcodeOf (encCR op ed csr) = op := by
  have := ed.isLt; have := csr.isLt
  simp only [opcodeOf, bitsAt, encCR, BitVec.toNat_ofNat]
  omega

theorem opcodeOf_encSI (op : Nat) (ed : Fin 16) (imm16 : Word) (h : op < 256) :
    opcodeOf (encSI op ed imm16) = op := by
  have := ed.isLt; have := imm16.isLt
  simp only [opcodeOf, bitsAt, encSI, BitVec.toNat_ofNat]
  omega

theorem opcodeOf_encS3 (op : Nat) (ed : Fin 16) (ea : Fin 16) (eb : Fin 16) (h : op < 256) :
    opcodeOf (encS3 op ed ea eb) = op := by
  have := ed.isLt; have := ea.isLt; have := eb.isLt
  simp only [opcodeOf, bitsAt, encS3, BitVec.toNat_ofNat]
  omega

theorem opcodeOf_encS2 (op : Nat) (ed : Fin 16) (ea : Fin 16) (h : op < 256) :
    opcodeOf (encS2 op ed ea) = op := by
  have := ed.isLt; have := ea.isLt
  simp only [opcodeOf, bitsAt, encS2, BitVec.toNat_ofNat]
  omega

theorem opcodeOf_encS2Imm (op : Nat) (ed : Fin 16) (ea : Fin 16) (imm : Fin 16) (h : op < 256) :
    opcodeOf (encS2Imm op ed ea imm) = op := by
  have := ed.isLt; have := ea.isLt; have := imm.isLt
  simp only [opcodeOf, bitsAt, encS2Imm, BitVec.toNat_ofNat]
  omega

theorem opcodeOf_encPXGet (op : Nat) (ed : Fin 16) (pa : Fin 32) (idx : Fin 256) (h : op < 256) :
    opcodeOf (encPXGet op ed pa idx) = op := by
  have := ed.isLt; have := pa.isLt; have := idx.isLt
  simp only [opcodeOf, bitsAt, encPXGet, BitVec.toNat_ofNat]
  omega

theorem opcodeOf_encPXSet (op : Nat) (pd : Fin 32) (idx : Fin 256) (es : Fin 16) (h : op < 256) :
    opcodeOf (encPXSet op pd idx es) = op := by
  have := pd.isLt; have := idx.isLt; have := es.isLt
  simp only [opcodeOf, bitsAt, encPXSet, BitVec.toNat_ofNat]
  omega

theorem opcodeOf_encP3 (op : Nat) (pd : Fin 32) (pa : Fin 32) (pb : Fin 32) (h : op < 256) :
    opcodeOf (encP3 op pd pa pb) = op := by
  have := pd.isLt; have := pa.isLt; have := pb.isLt
  simp only [opcodeOf, bitsAt, encP3, BitVec.toNat_ofNat]
  omega

theorem opcodeOf_encP1 (op : Nat) (pd : Fin 32) (h : op < 256) :
    opcodeOf (encP1 op pd) = op := by
  have := pd.isLt
  simp only [opcodeOf, bitsAt, encP1, BitVec.toNat_ofNat]
  omega

theorem opcodeOf_encP2 (op : Nat) (pd : Fin 32) (pa : Fin 32) (h : op < 256) :
    opcodeOf (encP2 op pd pa) = op := by
  have := pd.isLt; have := pa.isLt
  simp only [opcodeOf, bitsAt, encP2, BitVec.toNat_ofNat]
  omega

theorem opcodeOf_encP2Imm (op : Nat) (pd : Fin 32) (pa : Fin 32) (imm : Fin 16) (h : op < 256) :
    opcodeOf (encP2Imm op pd pa imm) = op := by
  have := pd.isLt; have := pa.isLt; have := imm.isLt
  simp only [opcodeOf, bitsAt, encP2Imm, BitVec.toNat_ofNat]
  omega

theorem opcodeOf_encPM (op : Nat) (pd : Fin 32) (ea : Fin 16) (h : op < 256) :
    opcodeOf (encPM op pd ea) = op := by
  have := pd.isLt; have := ea.isLt
  simp only [opcodeOf, bitsAt, encPM, BitVec.toNat_ofNat]
  omega

theorem opcodeOf_encPMW (op : Nat) (pd : Fin 32) (ea : Fin 16) (w : Fin 16) (h : op < 256) :
    opcodeOf (encPMW op pd ea w) = op := by
  have := pd.isLt; have := ea.isLt; have := w.isLt
  simp only [opcodeOf, bitsAt, encPMW, BitVec.toNat_ofNat]
  omega

theorem opcodeOf_encM3 (op : Nat) (pd : Fin 32) (pa : Fin 32) (pb : Fin 32) (r : Fin 8) (c : Fin 8) (h : op < 256) :
    opcodeOf (encM3 op pd pa pb r c) = op := by
  have := pd.isLt; have := pa.isLt; have := pb.isLt; have := r.isLt; have := c.isLt
  simp only [opcodeOf, bitsAt, encM3, BitVec.toNat_ofNat]
  omega

theorem opcodeOf_encM2 (op : Nat) (pd : Fin 32) (pa : Fin 32) (r : Fin 8) (c : Fin 8) (h : op < 256) :
    opcodeOf (encM2 op pd pa r c) = op := by
  have := pd.isLt; have := pa.isLt; have := r.isLt; have := c.isLt
  simp only [opcodeOf, bitsAt, encM2, BitVec.toNat_ofNat]
  omega

theorem opcodeOf_encM2Imm (op : Nat) (pd : Fin 32) (pa : Fin 32) (r : Fin 8) (c : Fin 8) (imm : Fin 16) (h : op < 256) :
    opcodeOf (encM2Imm op pd pa r c imm) = op := by
  have := pd.isLt; have := pa.isLt; have := r.isLt; have := c.isLt; have := imm.isLt
  simp only [opcodeOf, bitsAt, encM2Imm, BitVec.toNat_ofNat]
  omega

theorem opcodeOf_encMM (op : Nat) (pd : Fin 32) (ea : Fin 16) (h : op < 256) :
    opcodeOf (encMM op pd ea) = op := by
  have := pd.isLt; have := ea.isLt
  simp only [opcodeOf, bitsAt, encMM, BitVec.toNat_ofNat]
  omega

theorem opcodeOf_encMMW (op : Nat) (pd : Fin 32) (ea : Fin 16) (w : Fin 16) (r : Fin 8) (c : Fin 8) (h : op < 256) :
    opcodeOf (encMMW op pd ea w r c) = op := by
  have := pd.isLt; have := ea.isLt; have := w.isLt; have := r.isLt; have := c.isLt
  simp only [opcodeOf, bitsAt, encMMW, BitVec.toNat_ofNat]
  omega

theorem opcodeOf_encKK (op : Nat) (ed : Fin 16) (es : Fin 16) (h : op < 256) :
    opcodeOf (encKK op ed es) = op := by
  have := ed.isLt; have := es.isLt
  simp only [opcodeOf, bitsAt, encKK, BitVec.toNat_ofNat]
  omega

theorem opcodeOf_encCQ (op : Nat) (ed : Fin 16) (ea : Fin 16) (eb : Fin 16) (el : Fin 16) (h : op < 256) :
    opcodeOf (encCQ op ed ea eb el) = op := by
  have := ed.isLt; have := ea.isLt; have := eb.isLt; have := el.isLt
  simp only [opcodeOf, bitsAt, encCQ, BitVec.toNat_ofNat]
  omega

theorem opcodeOf_encCS (op : Nat) (ed : Fin 16) (ef : Fin 16) (ex : Fin 16) (ey : Fin 16) (el : Fin 16) (h : op < 256) :
    opcodeOf (encCS op ed ef ex ey el) = op := by
  have := ed.isLt; have := ef.isLt; have := ex.isLt; have := ey.isLt; have := el.isLt
  simp only [opcodeOf, bitsAt, encCS, BitVec.toNat_ofNat]
  omega

/-- The family's statement: the opcode byte of the encoded word is the command's own. -/
def EncodedOpcode.Statement (i : Instr) : Prop := opcodeOf (encode i) = opcodeByte i

theorem EncodedOpcode.setprof (L : Fin 8) (eq ep : Fin 16) (et : Fin 8) (mu : Fin 16) (u : Fin 2) :
    EncodedOpcode.Statement (.setprof L eq ep et mu u) := opcodeOf_encSP 0x01 _ _ _ _ _ _ (by decide)
theorem EncodedOpcode.rdcsr (ed : SReg) (csr : Fin 16) :
    EncodedOpcode.Statement (.rdcsr ed csr) := opcodeOf_encCR 0x02 _ _ (by decide)
theorem EncodedOpcode.eli (ed : SReg) (imm16 : Word) :
    EncodedOpcode.Statement (.eli ed imm16) := opcodeOf_encSI 0x10 _ _ (by decide)
theorem EncodedOpcode.eadd (ed ea eb : SReg) :
    EncodedOpcode.Statement (.eadd ed ea eb) := opcodeOf_encS3 0x11 _ _ _ (by decide)
theorem EncodedOpcode.esub (ed ea eb : SReg) :
    EncodedOpcode.Statement (.esub ed ea eb) := opcodeOf_encS3 0x12 _ _ _ (by decide)
theorem EncodedOpcode.eneg (ed ea : SReg) :
    EncodedOpcode.Statement (.eneg ed ea) := opcodeOf_encS2 0x13 _ _ (by decide)
theorem EncodedOpcode.emul (ed ea eb : SReg) :
    EncodedOpcode.Statement (.emul ed ea eb) := opcodeOf_encS3 0x14 _ _ _ (by decide)
theorem EncodedOpcode.eshl (ed ea : SReg) (sh : Fin 16) :
    EncodedOpcode.Statement (.eshl ed ea sh) := opcodeOf_encS2Imm 0x15 _ _ _ (by decide)
theorem EncodedOpcode.eshr (ed ea : SReg) (sh : Fin 16) :
    EncodedOpcode.Statement (.eshr ed ea sh) := opcodeOf_encS2Imm 0x16 _ _ _ (by decide)
theorem EncodedOpcode.ered (ed ea : SReg) (k : Fin 16) :
    EncodedOpcode.Statement (.ered ed ea k) := opcodeOf_encS2Imm 0x17 _ _ _ (by decide)
theorem EncodedOpcode.eld (ed ea : SReg) :
    EncodedOpcode.Statement (.eld ed ea) := opcodeOf_encS2 0x18 _ _ (by decide)
theorem EncodedOpcode.est (es ea : SReg) :
    EncodedOpcode.Statement (.est es ea) := opcodeOf_encS2 0x19 _ _ (by decide)
theorem EncodedOpcode.eldb (ed ea : SReg) :
    EncodedOpcode.Statement (.eldb ed ea) := opcodeOf_encS2 0x1A _ _ (by decide)
theorem EncodedOpcode.estb (es ea : SReg) :
    EncodedOpcode.Statement (.estb es ea) := opcodeOf_encS2 0x1B _ _ (by decide)
theorem EncodedOpcode.pzero (pd : PReg) :
    EncodedOpcode.Statement (.pzero pd) := opcodeOf_encP1 0x20 _ (by decide)
theorem EncodedOpcode.pmov (pd pa : PReg) :
    EncodedOpcode.Statement (.pmov pd pa) := opcodeOf_encP2 0x21 _ _ (by decide)
theorem EncodedOpcode.padd (pd pa pb : PReg) :
    EncodedOpcode.Statement (.padd pd pa pb) := opcodeOf_encP3 0x22 _ _ _ (by decide)
theorem EncodedOpcode.pacc (pd pa : PReg) :
    EncodedOpcode.Statement (.pacc pd pa) := opcodeOf_encP2 0x23 _ _ (by decide)
theorem EncodedOpcode.psub (pd pa pb : PReg) :
    EncodedOpcode.Statement (.psub pd pa pb) := opcodeOf_encP3 0x24 _ _ _ (by decide)
theorem EncodedOpcode.pmul (pd pa pb : PReg) :
    EncodedOpcode.Statement (.pmul pd pa pb) := opcodeOf_encP3 0x25 _ _ _ (by decide)
theorem EncodedOpcode.pshl (pd pa : PReg) (sh : Fin 16) :
    EncodedOpcode.Statement (.pshl pd pa sh) := opcodeOf_encP2Imm 0x26 _ _ _ (by decide)
theorem EncodedOpcode.pshr (pd pa : PReg) (sh : Fin 16) :
    EncodedOpcode.Statement (.pshr pd pa sh) := opcodeOf_encP2Imm 0x27 _ _ _ (by decide)
theorem EncodedOpcode.pmod (pd pa : PReg) (k : Fin 16) :
    EncodedOpcode.Statement (.pmod pd pa k) := opcodeOf_encP2Imm 0x28 _ _ _ (by decide)
theorem EncodedOpcode.pldc (pd : PReg) (ea : SReg) :
    EncodedOpcode.Statement (.pldc pd ea) := opcodeOf_encPM 0x29 _ _ (by decide)
theorem EncodedOpcode.pstc (ps : PReg) (ea : SReg) :
    EncodedOpcode.Statement (.pstc ps ea) := opcodeOf_encPM 0x2A _ _ (by decide)
theorem EncodedOpcode.pgetc (ed : SReg) (pa : PReg) (idx : Fin 256) :
    EncodedOpcode.Statement (.pgetc ed pa idx) := opcodeOf_encPXGet 0x2B _ _ _ (by decide)
theorem EncodedOpcode.psetc (pd : PReg) (idx : Fin 256) (es : SReg) :
    EncodedOpcode.Statement (.psetc pd idx es) := opcodeOf_encPXSet 0x2C _ _ _ (by decide)
theorem EncodedOpcode.penc (ps : PReg) (ea : SReg) (w : Fin 16) :
    EncodedOpcode.Statement (.penc ps ea w) := opcodeOf_encPMW 0x30 _ _ _ (by decide)
theorem EncodedOpcode.pdec (pd : PReg) (ea : SReg) (w : Fin 16) :
    EncodedOpcode.Statement (.pdec pd ea w) := opcodeOf_encPMW 0x31 _ _ _ (by decide)
theorem EncodedOpcode.madd (pd pa pb : PReg) (r c : Fin 8) :
    EncodedOpcode.Statement (.madd pd pa pb r c) := opcodeOf_encM3 0x40 _ _ _ _ _ (by decide)
theorem EncodedOpcode.mshl (pd pa : PReg) (r c : Fin 8) (sh : Fin 16) :
    EncodedOpcode.Statement (.mshl pd pa r c sh) := opcodeOf_encM2Imm 0x41 _ _ _ _ _ (by decide)
theorem EncodedOpcode.mshr (pd pa : PReg) (r c : Fin 8) (sh : Fin 16) :
    EncodedOpcode.Statement (.mshr pd pa r c sh) := opcodeOf_encM2Imm 0x42 _ _ _ _ _ (by decide)
theorem EncodedOpcode.mmod (pd pa : PReg) (r c : Fin 8) (k : Fin 16) :
    EncodedOpcode.Statement (.mmod pd pa r c k) := opcodeOf_encM2Imm 0x43 _ _ _ _ _ (by decide)
theorem EncodedOpcode.mtrn (pd pa : PReg) (r c : Fin 8) :
    EncodedOpcode.Statement (.mtrn pd pa r c) := opcodeOf_encM2 0x44 _ _ _ _ (by decide)
theorem EncodedOpcode.mvmul (pd pa pb : PReg) (r c : Fin 8) :
    EncodedOpcode.Statement (.mvmul pd pa pb r c) := opcodeOf_encM3 0x45 _ _ _ _ _ (by decide)
theorem EncodedOpcode.minner (pd pa pb : PReg) (r c : Fin 8) :
    EncodedOpcode.Statement (.minner pd pa pb r c) := opcodeOf_encM3 0x46 _ _ _ _ _ (by decide)
theorem EncodedOpcode.menc (ps : PReg) (ea : SReg) (w : Fin 16) (r c : Fin 8) :
    EncodedOpcode.Statement (.menc ps ea w r c) := opcodeOf_encMMW 0x47 _ _ _ _ _ (by decide)
theorem EncodedOpcode.mdec (pd : PReg) (ea : SReg) (w : Fin 16) (r c : Fin 8) :
    EncodedOpcode.Statement (.mdec pd ea w r c) := opcodeOf_encMMW 0x48 _ _ _ _ _ (by decide)
theorem EncodedOpcode.genmat (pd : PReg) (ea : SReg) :
    EncodedOpcode.Statement (.genmat pd ea) := opcodeOf_encMM 0x49 _ _ (by decide)
theorem EncodedOpcode.gensec (pd : PReg) (ea : SReg) :
    EncodedOpcode.Statement (.gensec pd ea) := opcodeOf_encMM 0x4A _ _ (by decide)
theorem EncodedOpcode.pcbd (pd : PReg) (ea : SReg) (mu : Fin 16) :
    EncodedOpcode.Statement (.pcbd pd ea mu) := opcodeOf_encPMW 0x50 _ _ _ (by decide)
theorem EncodedOpcode.puni (pd : PReg) (ea : SReg) :
    EncodedOpcode.Statement (.puni pd ea) := opcodeOf_encPM 0x51 _ _ (by decide)
theorem EncodedOpcode.pkeKeygen (ed es : SReg) :
    EncodedOpcode.Statement (.pkeKeygen ed es) := opcodeOf_encKK 0x60 _ _ (by decide)
theorem EncodedOpcode.pkeEnc (ed es : SReg) :
    EncodedOpcode.Statement (.pkeEnc ed es) := opcodeOf_encKK 0x61 _ _ (by decide)
theorem EncodedOpcode.pkeDec (ed es : SReg) :
    EncodedOpcode.Statement (.pkeDec ed es) := opcodeOf_encKK 0x62 _ _ (by decide)
theorem EncodedOpcode.kemKeygen (ed es : SReg) :
    EncodedOpcode.Statement (.kemKeygen ed es) := opcodeOf_encKK 0x70 _ _ (by decide)
theorem EncodedOpcode.kemEncaps (ed es : SReg) :
    EncodedOpcode.Statement (.kemEncaps ed es) := opcodeOf_encKK 0x71 _ _ (by decide)
theorem EncodedOpcode.kemDecaps (ed es : SReg) :
    EncodedOpcode.Statement (.kemDecaps ed es) := opcodeOf_encKK 0x72 _ _ (by decide)
theorem EncodedOpcode.cteq (ed ea eb el : SReg) :
    EncodedOpcode.Statement (.cteq ed ea eb el) := opcodeOf_encCQ 0x80 _ _ _ _ (by decide)
theorem EncodedOpcode.ctsel (ed ef ex ey el : SReg) :
    EncodedOpcode.Statement (.ctsel ed ef ex ey el) := opcodeOf_encCS 0x81 _ _ _ _ _ (by decide)

end Sys2Proof.Laws
end

