-- ==== Sys2Proof/Tests/Slice0.lean ====
section
/-! SUPPORT. Tests. Words and expected values are those of the spec: the example lines beside the rules (spec/30 to spec/49) and
the vectors of spec/95_test_vectors.md; each theorem names its section. The second half shows, for every statement with
hypotheses, a concrete state and operands that meet them, clause by clause. -/

set_option Elab.async false

namespace Sys2Proof.Tests

open Sys2Proof.Machine Sys2Proof.Safety

/-! ## Decoding and encoding, a word for every command -/

/-- The word decodes to the command and the command encodes to the word. -/
def reads (x : CmdWord × Instr) : Bool := decide (decode x.1 = .instr x.2) && decide (encode x.2 = x.1)

/-- spec/30_encoding.md R93, spec/49_params_system.md R272. -/
theorem test_words_system : [
    (0x015B4E80#32, .setprof 2 13 10 3 10 0), (0x017B5200#32, .setprof 3 13 10 4 8 0),
    (0x019B5980#32, .setprof 4 13 10 6 6 0), (0x01594CA0#32, .setprof 2 12 10 3 2 1),
    (0x017950A0#32, .setprof 3 12 10 4 2 1), (0x019958A0#32, .setprof 4 12 10 6 2 1),
    (0x02130000#32, .rdcsr 1 3), (0x021A0000#32, .rdcsr 1 10)].all reads = true := by decide +kernel

/-- spec/40_ring_element.md R102 to R114. -/
theorem test_words_ring_element : [
    (0x10301234#32, .eli 3 0x1234#16), (0x11201000#32, .eadd 2 0 1), (0x12201000#32, .esub 2 0 1),
    (0x13100000#32, .eneg 1 0), (0x14201000#32, .emul 2 0 1), (0x15109000#32, .eshl 1 0 9),
    (0x16103000#32, .eshr 1 0 3), (0x1710A000#32, .ered 1 0 10), (0x18210000#32, .eld 2 1),
    (0x19100000#32, .est 1 0), (0x1A100000#32, .eldb 1 0), (0x1B100000#32, .estb 1 0)].all reads = true := by decide +kernel

/-- spec/41_polynomial.md R131 to R142, spec/42_karatsuba.md R160, spec/95_test_vectors.md section 3. -/
theorem test_words_polynomial : [
    (0x20280000#32, .pzero 5), (0x21080000#32, .pmov 1 0), (0x22100200#32, .padd 2 0 1), (0x2308C000#32, .pacc 1 3),
    (0x24100200#32, .psub 2 0 1), (0x25100200#32, .pmul 2 0 1), (0x26082400#32, .pshl 1 0 9), (0x27080C00#32, .pshr 1 0 3),
    (0x28082800#32, .pmod 1 0 10), (0x29008000#32, .pldc 0 1), (0x2A008000#32, .pstc 0 1), (0x2B1180FF#32, .pgetc 1 3 255),
    (0x2C200001#32, .psetc 0 1 2)].all reads = true := by decide +kernel

/-- spec/43_bitpack_codec.md R173, R174; spec/45_sampling.md R212, R214. -/
theorem test_words_codec_sampling : [
    (0x3000E800#32, .penc 0 1 13), (0x3100D000#32, .pdec 0 1 10), (0x5000C000#32, .pcbd 0 1 8),
    (0x51008000#32, .puni 0 1)].all reads = true := by decide +kernel

/-- spec/44_polymatrix.md R183 to R195; spec/95_test_vectors.md section 12.3 for GENSEC. -/
theorem test_words_matrix : [
    (0x40400890#32, .madd 8 0 4 2 2), (0x41201930#32, .mshl 4 0 3 1 3), (0x42201930#32, .mshr 4 0 3 1 3),
    (0x432119A0#32, .mmod 4 4 3 1 10), (0x44201200#32, .mtrn 4 0 2 2), (0x45300890#32, .mvmul 6 0 4 2 2),
    (0x464806C8#32, .minner 9 0 3 3 1), (0x4720D320#32, .menc 4 1 10 3 1), (0x4800EA20#32, .mdec 0 1 13 2 1),
    (0x49008000#32, .genmat 0 1), (0x4A4A0000#32, .gensec 9 4)].all reads = true := by decide +kernel

/-- spec/46_pke.md R225, spec/47_kem.md R245 to R249, spec/95_test_vectors.md section 11. -/
theorem test_words_key_commands : [
    (0x60100000#32, .pkeKeygen 1 0), (0x61120000#32, .pkeEnc 1 2), (0x62120000#32, .pkeDec 1 2),
    (0x70120000#32, .kemKeygen 1 2), (0x71120000#32, .kemEncaps 1 2), (0x72120000#32, .kemDecaps 1 2)].all reads = true := by
  decide +kernel

/-- spec/48_constant_time.md R261, R263. -/
theorem test_words_constant_time : [
    (0x80412300#32, .cteq 4 1 2 3), (0x81541230#32, .ctsel 5 4 1 2 3)].all reads = true := by decide +kernel

/-- spec/95_test_vectors.md section 11: words that are no command. -/
theorem test_words_rejected :
    [0x00000000#32, 0xFFFFFFFF#32, 0x03000000#32, 0x1C000000#32, 0x2D000000#32, 0x32000000#32, 0x4B000000#32, 0x63000000#32,
      0x82000000#32].all (fun w => decide (decode w = .rejected .unassignedOpcode)) = true ∧
    [0x15000001#32, 0x15000800#32, 0x10010000#32, 0x13001000#32, 0x20000001#32, 0x20040000#32, 0x21000001#32, 0x2B000100#32,
      0x29000800#32, 0x51000800#32, 0x49000020#32, 0x60000001#32, 0x80000001#32].all
      (fun w => decide (decode w = .rejected .reservedBitSet)) = true := by decide +kernel

/-! ## Well-formedness: an ill-formed command for each check (spec/30_encoding.md R87) -/

theorem test_illformed_system : [
    .setprof 3 13 10 4 10 0, .setprof 0 0 0 0 0 0, .setprof 3 13 10 4 8 1, .setprof 3 12 10 4 2 0, .setprof 5 13 10 4 8 0,
    .rdcsr 1 10, .rdcsr 1 15].all (fun i => !WellFormed i) = true := by decide +kernel

theorem test_illformed_width : [
    .penc 3 1 2, .penc 3 1 0, .pdec 3 1 7, .pdec 3 1 15, .pcbd 5 1 2, .pcbd 5 1 7, .menc 0 1 11 2 1, .mdec 0 1 9 2 1].all
    (fun i => !WellFormed i) = true := by decide +kernel

theorem test_illformed_shape : [
    .madd 8 0 2 0 1, .madd 8 0 2 1 5, .mshl 8 0 5 1 0, .mshr 8 0 1 0 0, .mmod 8 0 6 6 0, .mtrn 8 0 2 1, .mtrn 8 0 5 5,
    .mvmul 8 0 4 2 1, .mvmul 8 0 4 0 0, .minner 8 0 4 2 2, .minner 8 0 4 5 1, .menc 0 1 10 2 2, .mdec 0 1 10 0 1].all
    (fun i => !WellFormed i) = true := by decide +kernel

theorem test_illformed_run : [
    .madd 29 0 4 2 2, .madd 0 29 4 2 2, .madd 0 4 29 2 2, .mshl 31 0 2 1 1, .mshl 0 31 2 1 1, .mshr 31 0 2 1 1, .mshr 0 31 1 2 1,
    .mmod 17 0 4 4 1, .mmod 0 17 4 4 1, .mtrn 17 0 4 4, .mtrn 0 17 4 4, .mvmul 8 17 4 4 4, .mvmul 8 0 29 4 4, .mvmul 29 0 4 4 4,
    .minner 0 31 4 2 1, .minner 0 4 31 2 1, .menc 30 1 10 3 1, .mdec 30 1 10 3 1].all
    (fun i => !WellFormed i) = true := by decide +kernel

/-- The boundary forms of spec/95_test_vectors.md section 6 that are legal. -/
theorem test_wellformed : [
    .madd 28 0 4 2 2, .minner 31 30 30 2 1, .mvmul 8 0 4 1 1, .mtrn 16 0 4 4, .menc 29 1 10 3 1, .mdec 28 1 13 4 1, .penc 3 1 1,
    .pdec 3 1 13, .pcbd 5 1 6, .rdcsr 1 9, .setprof 4 12 10 6 2 1].all WellFormed = true := by decide +kernel

/-! ## Helpers -/

/-- The reset state with some scalar registers set. -/
def regs (l : List (SReg × Word)) : State := l.foldl (fun s x => s.setE x.1 x.2) State.reset

/-- The polynomial with the listed coefficients, the others 0. -/
def sparse (l : List (Nat × Word)) : Poly := l.foldl (fun q x => q.setIfInBounds x.1 x.2) polyZero

/-- The reset state with some polynomial registers set. -/
def polys (l : List (Nat × Poly)) : State := l.foldl (fun s x => s.setP x.1 x.2) State.reset

/-- What the next state shows; nothing for an outcome that is no next state. -/
def seen {α : Type} (o : Out) (f : State → α) : Option α :=
  match o with
  | .next t => some (f t)
  | .fault _ => none
  | .refused _ => none

/-- The state after, the state itself when there is none. -/
def thenState (o : Out) (s : State) : State :=
  match o with
  | .next t => t
  | .fault _ => s
  | .refused _ => s

/-- Reset, then SETPROF for Saber. -/
def saberState : State := { State.reset with params0 := 0x4AD3#16, params1 := 0x0008#16 }

/-- Reset, then SETPROF for FireSaber. -/
def fireState : State := { State.reset with params0 := 0x6AD4#16, params1 := 0x0006#16 }

/-- The outcome is the refusal of a command while a fault is recorded. -/
def isLatched (o : Out) : Bool :=
  match o with
  | .next _ => false
  | .fault _ => false
  | .refused r => decide (r = .faultLatched)

/-- STATUS, FINFO_HI, FINFO_LO. -/
def faultRegs (t : State) : Word × Word × Word := (t.status, t.finfoHi, t.finfoLo)

/-! ## RingElement commands (spec/95_test_vectors.md section 2) -/

theorem test_eadd : seen (issue 0x11312000#32 (regs [(1, 0xFFFF#16), (2, 0x0001#16)])) (·.getE 3) = some 0x0000#16 ∧
    seen (issue 0x11111000#32 (regs [(1, 0x1234#16)])) (·.getE 1) = some 0x2468#16 := by decide +kernel
theorem test_esub : seen (issue 0x12312000#32 (regs [(2, 0x0001#16)])) (·.getE 3) = some 0xFFFF#16 := by decide +kernel
theorem test_eneg : seen (issue 0x13210000#32 (regs [(1, 0x0001#16)])) (·.getE 2) = some 0xFFFF#16 ∧
    seen (issue 0x13210000#32 (regs [(1, 0x8000#16)])) (·.getE 2) = some 0x8000#16 := by decide +kernel
theorem test_emul : seen (issue 0x14312000#32 (regs [(1, 0x1FFF#16), (2, 0x1FFF#16)])) (·.getE 3) = some 0xC001#16 := by
  decide +kernel
theorem test_eshl : seen (issue 0x1521F000#32 (regs [(1, 0x0003#16)])) (·.getE 2) = some 0x8000#16 := by decide +kernel
theorem test_eshr : seen (issue 0x16213000#32 (regs [(1, 0xFFFF#16)])) (·.getE 2) = some 0x1FFF#16 := by decide +kernel
theorem test_ered : seen (issue 0x1721D000#32 (regs [(1, 0xFFFF#16)])) (·.getE 2) = some 0x1FFF#16 ∧
    seen (issue 0x17210000#32 (regs [(1, 0xFFFF#16)])) (·.getE 2) = some 0x0000#16 := by decide +kernel
theorem test_eli : seen (issue 0x1090FFFF#32 (regs [(9, 0x1111#16)])) (·.getE 9) = some 0xFFFF#16 := by decide +kernel

/-- The start state of the load and store rows. -/
def loadState (l : List (SReg × Word)) : State := ((regs l).memWrite 0x0100 [0x34#8, 0x12#8]).memWrite 0xFFFE [0x00#8, 0xAB#8]

theorem test_eld : seen (issue 0x18210000#32 (loadState [(1, 0x0100#16)])) (·.getE 2) = some 0x1234#16 ∧
    seen (issue 0x18210000#32 (loadState [(1, 0xFFFE#16)])) (·.getE 2) = some 0xAB00#16 := by decide +kernel
theorem test_eld_range : seen (issue 0x18210000#32 (loadState [(1, 0xFFFF#16), (2, 0x7777#16)]))
    (fun t => (t.status, t.getE 2)) = some (0x0061#16, 0x7777#16) := by decide +kernel
theorem test_eldb : seen (issue 0x1A210000#32 (loadState [(1, 0xFFFF#16)])) (·.getE 2) = some 0x00AB#16 := by decide +kernel
theorem test_est : seen (issue 0x19210000#32 (loadState [(1, 0x0200#16), (2, 0xCAFE#16)])) (·.memRead 0x0200 2) =
    some [0xFE#8, 0xCA#8] := by decide +kernel
theorem test_est_range : seen (issue 0x19210000#32 (loadState [(1, 0xFFFF#16), (2, 0xCAFE#16)]))
    (fun t => (t.status, t.readByte 0xFFFF)) = some (0x0061#16, 0xAB#8) := by decide +kernel
theorem test_estb : seen (issue 0x1B210000#32 (loadState [(1, 0x0100#16), (2, 0xCAFE#16)])) (·.memRead 0x0100 2) =
    some [0xFE#8, 0x12#8] := by decide +kernel

/-! ## Polynomial commands (spec/95_test_vectors.md section 3) -/

/-- TA. -/
def tA : Poly := tabulate fun j => BitVec.ofNat 16 (7 * j + 3)
/-- TB. -/
def tB : Poly := tabulate fun j => BitVec.ofNat 16 ((j * j + 1) % 2 ^ 13)
/-- TC. -/
def tC : Poly := tabulate fun j => BitVec.ofNat 16 (0x9E37 * (j + 1))
/-- P1 = TA, P2 = TB, P3 = TC. -/
def tABC : State := polys [(1, tA), (2, tB), (3, tC)]
/-- Coefficients 0, 127 and 255 of a register. -/
def three (i : Nat) (t : State) : Word × Word × Word := (coeff (t.getP i) 0, coeff (t.getP i) 127, coeff (t.getP i) 255)

theorem test_padd : seen (issue 0x22204400#32 tABC) (three 4) = some (0x0004#16, 0x227E#16, 0x24FE#16) := by decide +kernel
theorem test_psub : seen (issue 0x24204400#32 tABC) (three 4) = some (0x0002#16, 0xE47A#16, 0xE8FA#16) ∧
    seen (issue 0x24084200#32 tABC) (three 1) = some (0x0000#16, 0x0000#16, 0x0000#16) := by decide +kernel
theorem test_pacc : seen (issue 0x2308C000#32 tABC) (three 1) = some (0x9E3A#16, 0x1EFC#16, 0x3DFC#16) ∧
    seen (issue 0x2318C000#32 tABC) (three 3) = some (0x3C6E#16, 0x3700#16, 0x6E00#16) := by decide +kernel
theorem test_pmov : seen (issue 0x2120C000#32 tABC) (three 4) = some (0x9E37#16, 0x1B80#16, 0x3700#16) := by decide +kernel
theorem test_pzero : seen (issue 0x20180000#32 tABC) (three 3) = some (0x0000#16, 0x0000#16, 0x0000#16) := by decide +kernel
theorem test_pshl : seen (issue 0x2620CC00#32 tABC) (three 4) = some (0xF1B8#16, 0xDC00#16, 0xB800#16) := by decide +kernel
theorem test_pshr : seen (issue 0x2720CC00#32 tABC) (three 4) = some (0x13C6#16, 0x0370#16, 0x06E0#16) := by decide +kernel
theorem test_pmod : seen (issue 0x2820F400#32 tABC) (three 4) = some (0x1E37#16, 0x1B80#16, 0x1700#16) := by decide +kernel
theorem test_pmul : seen (issue 0x25204400#32 tABC) (fun t => coeff (t.getP 4) 2) = some 0x1668#16 := by decide +kernel
/-- Section 12.2: the product of 1 + 2x + 0x1F00·x^255 and 3 + x. -/
theorem test_pmul_wraps : seen (issue 0x25100200#32 (polys [(0, sparse [(0, 1#16), (1, 2#16), (255, 0x1F00#16)]),
    (1, sparse [(0, 3#16), (1, 1#16)])])) (fun t => coeff (t.getP 2) 0) = some 0xE103#16 := by decide +kernel
theorem test_pgetc : seen (issue 0x2B1180FF#32 tABC) (·.getE 1) = some 0x3700#16 := by decide +kernel
theorem test_psetc : seen (issue 0x2C200007#32 ((regs [(2, 0xBEEF#16)]).setP 0 tA))
    (fun t => (coeff (t.getP 0) 7, coeff (t.getP 0) 6)) = some (0xBEEF#16, 45#16) := by decide +kernel
theorem test_pstc : (arrayOfPoly tC).take 8 = [0x37#8, 0x9E#8, 0x6E#8, 0x3C#8, 0xA5#8, 0xDA#8, 0xDC#8, 0x78#8] ∧
    (arrayOfPoly tC).drop 510 = [0x00#8, 0x37#8] ∧
    seen (issue 0x2A188000#32 (tABC.setE 1 0xFE00#16)) (·.status) = some 0x0000#16 ∧
    seen (issue 0x2A188000#32 (tABC.setE 1 0xFE01#16)) (·.status) = some 0x0061#16 := by decide +kernel
theorem test_pldc : seen (issue 0x29208000#32
    { regs [(1, 0xFE00#16)] with dmem := [(0xFE00, 0x37#8), (0xFE01, 0x9E#8), (0xFFFE, 0x00#8), (0xFFFF, 0x37#8)] })
    (fun t => (coeff (t.getP 4) 0, coeff (t.getP 4) 255)) = some (0x9E37#16, 0x3700#16) := by decide +kernel
theorem test_pldc_range : seen (issue 0x29208000#32 (regs [(1, 0xFE01#16)])) (·.status) = some 0x0061#16 := by decide +kernel

/-- The Karatsuba procedure on the arrays [3, 7, 11, 2] and [1, 4, 9, 0x1000] against the sums done by hand. -/
theorem test_kara : kara 2 [3#16, 7#16, 11#16, 2#16] [1#16, 4#16, 9#16, 0x1000#16] =
    [3#16, 19#16, 66#16, 12397#16, 28779#16, 45074#16, 8192#16, 0#16] := by decide +kernel

/-! ## The codec (section 4) -/

/-- Coefficients 1, 2, 3, 4, 5, 6, 7, then zeros. -/
def counting : Poly := tabulate fun j => if j < 7 then BitVec.ofNat 16 (j + 1) else 0#16

theorem test_penc : (encodePoly counting 3).take 4 = [0xD1#8, 0x58#8, 0x1F#8, 0x00#8] ∧
    (encodePoly counting 13).take 13 =
      [0x01#8, 0x40#8, 0x00#8, 0x0C#8, 0x00#8, 0x02#8, 0x50#8, 0x00#8, 0x0C#8, 0xC0#8, 0x01#8, 0x00#8, 0x00#8] ∧
    seen (issue 0x3018E800#32 (tABC.setE 1 0xFE60#16)) (·.memRead 0xFE60 8) =
      some [0x37#8, 0xDE#8, 0x8D#8, 0x97#8, 0x6A#8, 0x6E#8, 0x3C#8, 0x71#8] := by decide +kernel
theorem test_penc_faults : seen (issue 0x30189000#32 tABC) (·.status) = some 0x0031#16 ∧
    seen (issue 0x3018E800#32 (tABC.setE 1 0xFE61#16)) (·.status) = some 0x0061#16 := by decide +kernel

/-- The byte string with byte i = (31·i + 7) mod 256. -/
def pattern (n : Nat) : Bytes := (List.range n).map fun i => BitVec.ofNat 8 (31 * i + 7)

/-- The written bytes of a string at an address, in canonical form. -/
def filled (a : Nat) (b : Bytes) : Memory := b.zipIdx.map fun x => (a + x.2, x.1)

theorem test_pdec : [0, 1, 2, 255].map (coeff (decodePoly (pattern 320) 10)) = [0x0207#16, 0x0149#16, 0x0244#16, 0x02A2#16] ∧
    seen (exec (.pdec 4 1 3) { regs [(1, 0x2000#16)] with dmem := filled 0x2000 (pattern 96) })
      (fun t => [0, 1, 2, 255].map (coeff (t.getP 4))) = some [7#16, 0#16, 0#16, 4#16] := by decide +kernel

/-! ## Sampling (section 5) -/

theorem test_pcbd : [0, 1, 2, 3, 255].map (coeff (cbd (pattern 256) 8)) = [3#16, 1#16, 1#16, 0xFFFF#16, 0xFFFE#16] ∧
    seen (exec (.pcbd 5 1 6) { regs [(1, 0x2000#16)] with dmem := filled 0x2000 (pattern 192) })
      (fun t => [0, 1, 2, 3, 255].map (coeff (t.getP 5))) = some [3#16, 0xFFFE#16, 0#16, 0#16, 0#16] := by decide +kernel
theorem test_pcbd_width : seen (issue 0x50289000#32 State.reset) (·.status) = some 0x0031#16 := by decide +kernel
theorem test_puni : seen (issue 0x51288000#32 ((regs [(1, 0xFFC0#16)]).memWrite 0xFFC0 (pattern 64)))
    (fun t => [0, 1, 2, 3, 255].map (coeff (t.getP 5))) = some [0#16, 1#16, 0#16, 0#16, 0xFFFF#16] := by decide +kernel
theorem test_puni_range : seen (issue 0x51288000#32 (regs [(1, 0xFFC1#16)])) (·.status) = some 0x0061#16 := by decide +kernel

/-! ## PolyMatrix commands (section 6) -/

/-- P0 = 1, P1 = x, P2 = 2, P3 = 3, P4 = x, P5 = 1. -/
def matState : State := polys [(0, sparse [(0, 1#16)]), (1, sparse [(1, 1#16)]), (2, sparse [(0, 2#16)]),
  (3, sparse [(0, 3#16)]), (4, sparse [(1, 1#16)]), (5, sparse [(0, 1#16)])]
/-- Coefficients 0 and 1 of the registers listed. -/
def lowTwo (l : List Nat) (t : State) : List (Word × Word) := l.map fun i => (coeff (t.getP i) 0, coeff (t.getP i) 1)

theorem test_mvmul : seen (issue 0x45400890#32 matState) (fun t => coeff (t.getP 9) 1) = some 2#16 := by decide +kernel
theorem test_mtrn : seen (issue 0x44001200#32 matState) (lowTwo [0, 1, 2, 3]) =
    some [(1#16, 0#16), (2#16, 0#16), (0#16, 1#16), (3#16, 0#16)] := by decide +kernel
theorem test_minner : seen (issue 0x46408888#32 matState) (fun t => coeff (t.getP 8) 0) = some 3#16 := by decide +kernel
theorem test_madd : seen (issue 0x40080488#32 matState) (lowTwo [0, 1, 2, 3]) =
    some [(1#16, 0#16), (3#16, 0#16), (3#16, 1#16), (3#16, 0#16)] := by decide +kernel
theorem test_mshl : seen (issue 0x41401290#32 matState) (lowTwo [8, 9, 10, 11]) =
    some [(0x200#16, 0#16), (0#16, 0x200#16), (0x400#16, 0#16), (0x600#16, 0#16)] := by decide +kernel
theorem test_mshr : seen (issue 0x42401210#32 matState) (lowTwo [8, 9, 10, 11]) =
    some [(0#16, 0#16), (0#16, 0#16), (1#16, 0#16), (1#16, 0#16)] := by decide +kernel
theorem test_mmod : seen (issue 0x43401210#32 matState) (lowTwo [8, 9, 10, 11]) =
    some [(1#16, 0#16), (0#16, 1#16), (0#16, 0#16), (1#16, 0#16)] := by decide +kernel
theorem test_menc : (vecEncode (matState.getRun 0 2) 10).take 2 = [0x01#8, 0x00#8] ∧
    slice (vecEncode (matState.getRun 0 2) 10) 320 323 = [0x00#8, 0x04#8, 0x00#8] ∧
    seen (exec (.menc 0 1 1 2 1) (matState.setE 1 0x4000#16)) (fun t => (t.memRead 0x4000 2, t.memRead 0x4020 2)) =
      some ([0x01#8, 0x00#8], [0x02#8, 0x00#8]) := by decide +kernel
theorem test_mdec : seen (exec (.mdec 8 1 1 2 1)
    { regs [(1, 0x4000#16)] with dmem := filled 0x4000 (1#8 :: List.replicate 31 0#8 ++ 2#8 :: List.replicate 31 0#8) })
    (lowTwo [8, 9]) = some [(1#16, 0#16), (0#16, 1#16)] := by decide +kernel

/-- The fault rows of section 6: STATUS after each word from the start state of that section. -/
theorem test_matrix_faults : [0x44401100#32, 0x45400888#32, 0x46400890#32, 0x4700D240#32, 0x40400408#32, 0x40400548#32,
      0x40E80890#32, 0x40E00890#32, 0x45444920#32, 0x46FFBC88#32, 0x4607C888#32, 0x47F09520#32, 0x47F0D520#32, 0x47F0D320#32,
      0x44401210#32, 0x40400489#32, 0x49008000#32].map (fun w => seen (issue w matState) (·.status)) =
    [0x41#16, 0x41#16, 0x41#16, 0x41#16, 0x41#16, 0x41#16, 0x51#16, 0#16, 0x51#16, 0#16, 0x51#16, 0x31#16, 0x41#16, 0x51#16,
      0x11#16, 0x11#16, 0x21#16].map some := by decide +kernel

/-! ## SETPROF and RDCSR (section 7) -/

theorem test_setprof : seen (issue 0x017950A0#32 fireState) (fun t => [0, 1, 2, 3, 4, 5, 6, 7, 8, 9].map t.csr?) =
    some ([0x4AC3#16, 0x0012#16, 5#16, 0x03E0#16, 0x08A0#16, 0x0440#16, 0x0480#16, 0#16, 0#16, 0#16].map some) := by decide +kernel
theorem test_setprof_faults : seen (issue 0x017B5280#32 saberState) (fun t => (t.params0, t.params1, faultRegs t)) =
    some (0x4AD3#16, 0x0008#16, 0x0021#16, 0x017B#16, 0x5280#16) := by decide +kernel
theorem test_rdcsr : [0x02100000#32, 0x02110000#32, 0x02120000#32, 0x02130000#32, 0x02140000#32, 0x02150000#32, 0x02160000#32,
      0x02170000#32].map (fun w => seen (issue w fireState) (·.getE 1)) =
    [0x6AD4#16, 0x0006#16, 3#16, 0x0520#16, 0x0BE0#16, 0x05C0#16, 0x0680#16, 0#16].map some := by decide +kernel
theorem test_rdcsr_reserved : seen (issue 0x021A0000#32 fireState) (·.status) = some 0x0011#16 := by decide +kernel

/-! ## Constant-time commands (section 8) -/

/-- The start state of section 8, with registers changed after it. -/
def ctState (l : List (SReg × Word)) : State :=
  (((regs ([(1, 0x0100#16), (2, 0x0200#16), (3, 0x0300#16), (4, 4#16), (5, 0x0400#16), (7, 3#16)] ++ l)).memWrite 0x0100
    [1#8, 2#8, 3#8, 4#8]).memWrite 0x0200 [1#8, 2#8, 3#8, 4#8]).memWrite 0x0300 [1#8, 2#8, 3#8, 5#8]

theorem test_cteq : [0x80812400#32, 0x80813400#32, 0x80813700#32, 0x80813600#32].map
      (fun w => seen (issue w (ctState [])) (·.getE 8)) =
    [0xFFFF#16, 0x0000#16, 0xFFFF#16, 0xFFFF#16].map some := by decide +kernel
theorem test_cteq_range : seen (issue 0x80812400#32 (ctState [(1, 0xFFFD#16)])) (fun t => (t.status, t.getE 8)) =
    some (0x0061#16, 0x0000#16) := by decide +kernel
theorem test_ctsel : seen (issue 0x81581340#32 (ctState [(8, 0xFFFF#16)])) (·.memRead 0x0400 4) = some [1#8, 2#8, 3#8, 4#8] ∧
    seen (issue 0x81161340#32 (ctState [])) (·.memRead 0x0100 4) = some [1#8, 2#8, 3#8, 5#8] := by decide +kernel
theorem test_ctsel_faults : seen (issue 0x81571340#32 (ctState [])) (·.status) = some 0x0071#16 ∧
    seen (issue 0x81541360#32 (ctState [])) (·.status) = some 0x0071#16 ∧
    seen (issue 0x81561360#32 (ctState [])) (·.status) = some 0x0000#16 ∧
    seen (issue 0x81571340#32 (ctState [(5, 0xFFFD#16)])) (·.status) = some 0x0061#16 := by decide +kernel

/-- R262, R263: 0xFFFF and 0x0000 are flags; 0x0001 and 0x00FF are none. -/
theorem test_select_flag : [0xFFFF#16, 0x0000#16, 0x0001#16, 0x00FF#16].map SelectFlag.ofWord? =
    [some .allOnes, some .allZeros, none, none] := by decide +kernel

/-! ## GENMAT, GENSEC, PKE and KEM (section 11; the bytes are free values, so the outcomes are tested) -/

theorem test_genmat_gensec : seen (issue 0x49008000#32 saberState) (·.status) = some 0#16 ∧
    seen (issue 0x4A4A0000#32 saberState) (·.status) = some 0#16 ∧
    seen (exec (.genmat 24 1) saberState) (·.status) = some 0x51#16 ∧
    seen (exec (.gensec 30 1) saberState) (·.status) = some 0x51#16 ∧
    seen (exec (.gensec 29 1) (saberState.setE 1 0xFFE1#16)) (·.status) = some 0x61#16 := by decide +kernel

theorem test_key_commands_range : [
      (0x70120000#32, 0xEF01#16, 0x0000#16), (0x70120000#32, 0xEF00#16, 0x0000#16), (0x70120000#32, 0x1000#16, 0xFFA1#16),
      (0x71120000#32, 0xFA21#16, 0x0000#16), (0x72120000#32, 0x0000#16, 0xEE61#16), (0x72120000#32, 0xFFE1#16, 0x0000#16),
      (0x60120000#32, 0xF461#16, 0x0000#16), (0x61120000#32, 0x0000#16, 0xFAA1#16), (0x62120000#32, 0x0000#16, 0xF3C1#16),
      (0x62120000#32, 0x0000#16, 0xF3C0#16)].map
      (fun x => seen (issue x.1 ((fireState.setE 1 x.2.1).setE 2 x.2.2)) (·.status)) =
    [0x61#16, 0#16, 0x61#16, 0x61#16, 0x61#16, 0x61#16, 0x61#16, 0x61#16, 0x61#16, 0#16].map some := by decide +kernel

theorem test_key_commands_profile : [0x60000000#32, 0x72000000#32].map (fun w => seen (issue w State.reset) faultRegs) =
    [(0x21#16, 0x6000#16, 0#16), (0x21#16, 0x7200#16, 0#16)].map some := by decide +kernel

/-! ## Faults and the host (section 11) -/

/-- Steps 1 to 3: the faulting store. -/
def stuck : State := thenState (issue 0x19210000#32 (regs [(1, 0xFFFF#16), (2, 0xAAAA#16)])) State.reset

theorem test_sticky_fault : faultRegs stuck = (0x0061#16, 0x1921#16, 0x0000#16) ∧ stuck.getE 2 = 0xAAAA#16 ∧
    [0x10205555#32, 0x02370000#32, 0x1B210000#32, 0xFFFFFFFF#32].all
      (fun w => isLatched (issue w stuck)) = true := by decide +kernel

theorem test_host_after_fault : seen (step { stuck with moves := [.readCsr 7] }) (·.reply) = some (some (.csr 0x0061#16)) ∧
    seen (step { stuck with moves := [.reset] }) (fun t => (faultRegs t, t.getE 2)) =
      some ((0#16, 0#16, 0#16), 0#16) := by decide +kernel

/-- Section 12.1, EST and the host's read: the bytes lie low byte first. -/
theorem test_run : seen (run 2 { regs [(1, 0x0100#16), (2, 0x1234#16)] with moves := [.issue 0x19210000#32, .readDmem 0x0100 2] })
    (·.reply) = some (some (.bytes [0x34#8, 0x12#8])) := by decide +kernel

theorem test_fetch : decodeTableWord 32 0x10301234 = some (.eli 3 0x1234#16) ∧ decodeTableWord 32 0 = none ∧
    seen (step (State.reset.withFetchWord 32 0x10301234)) (·.getE 3) = some 0x1234#16 := by decide +kernel

theorem test_sponge_absorbs_in_pieces : [[1#8, 2#8], [], [3#8]].foldlM spongeAbsorb spongeInitial =
    some (.absorbing [1#8, 2#8, 3#8]) ∧ spongeAbsorb (.finalized [1#8] 0) [2#8] = none := by decide +kernel

/-! ## Witnesses: for each statement with hypotheses, a concrete state and operands that meet them, clause by clause, at the
boundary of each range. -/

/-- The reset state with moves of the host waiting. -/
def told (l : List HostMove) : State := { State.reset with moves := l }
/-- The state with the recorded fault, with moves of the host waiting. -/
def stuckTold (l : List HostMove) : State := { stuck with moves := l }
/-- The reset state with one scalar register set. -/
def at1 (v : Word) : State := State.reset.setE 1 v

theorem reset_running : Running State.reset := by decide
theorem noProfile_reset : NoProfile State.reset := by intro pr; cases pr <;> (unfold HoldsProfile; decide)
theorem saber_holds : HoldsProfile saberState .saber := by unfold HoldsProfile; decide
theorem fire_holds : HoldsProfile fireState .fireSaber := by unfold HoldsProfile; decide

theorem witness_EncodeOfDecodeIsTheWord : decode 0x017B5200#32 = .instr (.setprof 3 13 10 4 8 0) := by decide +kernel

theorem witness_DecodeAgreesWithMatchAndMask : Running State.reset ∧
    (0x01000000#32, 0xFF00001F#32) ∈ matchRows ∧ 0x017B5200#32 &&& 0xFF00001F#32 = 0x01000000#32 ∧
    ∀ row ∈ matchRows, 0x82000000#32 &&& row.2 ≠ row.1 := by
  refine ⟨reset_running, ?_, by decide, ?_⟩ <;> simp [matchRows, matchRowsA, matchRowsB]

theorem witness_IllegalEncodingsFault : Running State.reset ∧
    (∀ row ∈ matchRows, row.1.toNat / 2 ^ 24 ≠ (0x82000000#32).toNat / 2 ^ 24) ∧
    ((0x15000000#32, 0xFF000FFF#32) ∈ matchRows ∧ (0x15000000#32).toNat / 2 ^ 24 = (0x15000001#32).toNat / 2 ^ 24 ∧
      0x15000001#32 &&& 0xFF000FFF#32 ≠ 0x15000000#32) ∧
    WellFormed (.madd 29 0 4 2 2) = false := by
  refine ⟨reset_running, ?_, ?_, by decide +kernel⟩ <;> simp [matchRows, matchRowsA, matchRowsB]

theorem witness_OnlySixSetprofWordsAreAccepted : Running State.reset ∧ (0x017B5280#32).toNat / 2 ^ 24 = 0x01 ∧
    (0x017B5200#32).toNat / 2 ^ 24 = 0x01 := by decide +kernel

theorem witness_StepRunsTheDecodedCommand :
    ((told [.issue 0x15000000#32]).moves = [.issue 0x15000000#32] ∧ decode 0x15000000#32 = .instr (.eshl 0 0 0)) ∧
    ((told [.issue 0xFFFFFFFF#32]).moves = [.issue 0xFFFFFFFF#32] ∧ decode 0xFFFFFFFF#32 = .rejected .unassignedOpcode) ∧
    decode (encode (.eshl 0 0 0)) = .instr (.eshl 0 0 0) := by decide +kernel

theorem witness_ResetMoveClearsEverything : (stuckTold [.reset]).moves = [.reset] ∧ (stuckTold [.reset]).faulted = true ∧
    step (stuckTold [.reset]) = .next State.reset ∧ Running State.reset :=
  ⟨rfl, by decide +kernel, rfl, by decide⟩

theorem witness_HostReachesDmemAndControlRegistersOnly :
    ((told [.writeDmem 0xFFFE [1#8, 2#8]]).moves = [.writeDmem 0xFFFE [1#8, 2#8]] ∧ 0xFFFE + [1#8, 2#8].length ≤ 65536) ∧
    ((told [.readDmem 0xFFFE 2]).moves = [.readDmem 0xFFFE 2] ∧ 0xFFFE + 2 ≤ 65536) ∧
    (told [.readCsr 9]).moves = [.readCsr 9] ∧
    ((told [.readDmem 0xFFFF 2]).moves = [.readDmem 0xFFFF 2] ∧ 65536 < 0xFFFF + 2) ∧
    ((told [.writeDmem 0xFFFF [1#8, 2#8]]).moves = [.writeDmem 0xFFFF [1#8, 2#8]] ∧ 65536 < 0xFFFF + [1#8, 2#8].length) ∧
    (told []).moves = [] := by decide +kernel

theorem saber_inv : StateInv saberState := by
  unfold StateInv ParamsLegal FaultRegsLegal
  exact ⟨by decide, by decide, .inl (by decide)⟩

/-- Before and after: a state with a profile, and a state with a recorded fault whose host reads a register. -/
theorem witness_EveryStepKeepsTheInvariant : StateInv saberState ∧ step saberState = .next saberState ∧
    StateInv { saberState with moves := [.issue 0x00000000#32] } ∧
    step { saberState with moves := [.issue 0x00000000#32] } = .next (saberState.recordFault 0x00000000#32 .illegal) :=
  ⟨saber_inv, rfl, saber_inv, rfl⟩

theorem witness_FaultsArePreciseAndRecorded : Running State.reset ∧
    issue 0xFFFFFFFF#32 State.reset = .next (State.reset.recordFault 0xFFFFFFFF#32 .illegal) ∧
    (State.reset.recordFault 0xFFFFFFFF#32 .illegal).faulted = true ∧
    issue 0x20000000#32 State.reset = .next (State.reset.setP 0 polyZero) ∧ Running (State.reset.setP 0 polyZero) :=
  ⟨by decide, rfl, by decide, rfl, by decide⟩

theorem witness_RecordedFaultRefusesCommands : stuck.faulted = true ∧
    (stuckTold [.readDmem 0xFFFE 2]).moves = [.readDmem 0xFFFE 2] ∧ 0xFFFE + 2 ≤ 65536 ∧
    (stuckTold [.readCsr 7]).moves = [.readCsr 7] ∧ (stuckTold [.readCsr 7]).faulted = true ∧
    seen (step (stuckTold [.readCsr 7])) (·.faulted) = some true := by decide +kernel

theorem witness_FaultTableAndPriority : Running State.reset ∧ (∀ code, ¬Raises (.eshl 0 0 0) State.reset code) ∧
    Raises (.genmat 32 0) (at1 0xFFFF#16) 2 ∧ Raises (.eld 2 1) (at1 0xFFFF#16) 6 ∧
    decode 0x15000001#32 = .rejected .reservedBitSet := by
  refine ⟨by decide, ?_, ⟨_, List.mem_cons_self, ?_⟩, ⟨_, List.mem_cons_self, ?_⟩, by decide +kernel⟩
  · rintro code ⟨p, hp, -⟩
    simp [faultConditions] at hp
  · intro pr; cases pr <;> (unfold HoldsProfile; decide)
  · unfold PastEnd; decide +kernel

theorem witness_AFaultIsNeverLostInARun : (∀ m ∈ (told [.readCsr 7, .issue 0x20000000#32]).moves, m ≠ .reset) ∧
    run 3 (told [.readCsr 7, .issue 0x20000000#32]) = .next (State.reset.setP 0 polyZero) ∧
    EndedWell (State.reset.setP 0 polyZero) :=
  ⟨by decide, rfl, rfl, by decide⟩

theorem witness_CommandsTouchOnlyWhatTheSpecLists :
    exec (.pzero 0) State.reset = .next (State.reset.setP 0 polyZero) ∧ writesScalars (.pzero 0) = false ∧
    writesDmem (.pzero 0) = false ∧ writesParams (.pzero 0) = false ∧ readsDmem (.pzero 0) = false ∧
    (∃ t, exec (.eldb 0 0) State.reset = .next t) ∧ writesPolys (.eldb 0 0) = false :=
  ⟨rfl, rfl, rfl, rfl, rfl, ⟨_, rfl⟩, rfl⟩

/-- The statements whose only hypothesis is that no fault is recorded: ScalarAddSubtractNegateMultiply,
ScalarShiftReduceImmediate, PolyZeroMoveElementwise, PolyCoefficientAccess, PolyMultiplyIsTheNegacyclicSum. -/
theorem witness_running : Running State.reset := by decide

theorem witness_ScalarLoads : Running (at1 0xFFFF#16) ∧ ((at1 0xFFFF#16).getE 1).toNat = 0xFFFF ∧
    Running (at1 0xFFFE#16) ∧ ((at1 0xFFFE#16).getE 1).toNat ≠ 0xFFFF := by decide +kernel

theorem witness_ScalarStores : Running (at1 0xFFFF#16) ∧ ((at1 0xFFFF#16).getE 1).toNat = 0xFFFF ∧
    Running (at1 0xFFFE#16) ∧ ((at1 0xFFFE#16).getE 1).toNat ≠ 0xFFFF := by decide +kernel

theorem witness_PolyCoefficientArray : Running (at1 0xFE01#16) ∧ 65536 < ((at1 0xFE01#16).getE 1).toNat + 512 ∧
    Running (at1 0xFE00#16) ∧ ((at1 0xFE00#16).getE 1).toNat + 512 ≤ 65536 := by decide +kernel

theorem witness_PolyMultiplyRingLaws : 255 < 256 ∧ 16 ≤ 16 := by decide

theorem witness_KaratsubaAgreesWithTheSchoolbookSum : [5#16].length = 2 ^ 0 ∧ 1 < 2 * 2 ^ 0 ∧
    tA.toList.length = 2 ^ 8 ∧ 511 < 2 * 2 ^ 8 := ⟨rfl, by decide, by simp, by decide⟩

theorem witness_PackUnpackPolynomial : Running (at1 0xFE61#16) ∧ (2 : Fin 16).val ∉ widths ∧ (13 : Fin 16).val ∈ widths ∧
    65536 < ((at1 0xFE61#16).getE 1).toNat + 32 * (13 : Fin 16).val ∧ Running (at1 0xFE60#16) ∧
    ((at1 0xFE60#16).getE 1).toNat + 32 * (13 : Fin 16).val ≤ 65536 := by decide +kernel

theorem witness_CodecRoundTrips : 13 ∈ widths ∧ (List.replicate 416 0#8).length = 32 * 13 ∧
    (List.replicate 832 0#8).length = 2 * (32 * 13) ∧ 0 < [tA].length ∧ 255 < 256 := by decide +kernel

theorem witness_SampleCentredBinomial : Running (at1 0xFEC1#16) ∧ (2 : Fin 16).val ∉ [6, 8, 10] ∧
    (10 : Fin 16).val ∈ [6, 8, 10] ∧ 65536 < ((at1 0xFEC1#16).getE 1).toNat + 32 * (10 : Fin 16).val ∧
    Running (at1 0xFEC0#16) ∧ ((at1 0xFEC0#16).getE 1).toNat + 32 * (10 : Fin 16).val ≤ 65536 := by decide +kernel

theorem witness_SampleUniform : Running (at1 0xFFC1#16) ∧ 65536 < ((at1 0xFFC1#16).getE 1).toNat + 64 ∧
    Running (at1 0xFFC0#16) ∧ ((at1 0xFFC0#16).getE 1).toNat + 64 ≤ 65536 := by decide +kernel

/-- MADD, MSHL, MSHR, MMOD: shapes 0 and 5; a run of 4 from P29 and from P28. -/
theorem witness_MatrixElementwise : Running State.reset ∧ BadDim (0 : Fin 8) ∧ BadDim (5 : Fin 8) ∧ ¬BadDim (1 : Fin 8) ∧
    ¬BadDim (4 : Fin 8) ∧ 32 < (29 : PReg).val + (4 : Fin 8).val * (1 : Fin 8).val ∧
    (28 : PReg).val + (4 : Fin 8).val * (1 : Fin 8).val ≤ 32 := by unfold BadDim; decide

/-- MTRN: not square; 16 registers from P17 and from P16. -/
theorem witness_MatrixTranspose : Running State.reset ∧ BadDim (5 : Fin 8) ∧ (2 : Fin 8) ≠ 1 ∧ ¬BadDim (4 : Fin 8) ∧
    32 < (17 : PReg).val + (4 : Fin 8).val * (4 : Fin 8).val ∧ (16 : PReg).val + (4 : Fin 8).val * (4 : Fin 8).val ≤ 32 := by
  unfold BadDim; decide

theorem witness_MatrixVectorProduct : Running State.reset ∧ BadDim (0 : Fin 8) ∧ (2 : Fin 8) ≠ 1 ∧ ¬BadDim (4 : Fin 8) ∧
    32 < (17 : PReg).val + (4 : Fin 8).val * (4 : Fin 8).val ∧ 32 < (29 : PReg).val + (4 : Fin 8).val ∧
    (16 : PReg).val + (4 : Fin 8).val * (4 : Fin 8).val ≤ 32 ∧ (28 : PReg).val + (4 : Fin 8).val ≤ 32 := by
  unfold BadDim; decide

theorem witness_VectorInnerProduct : Running State.reset ∧ BadDim (5 : Fin 8) ∧ (2 : Fin 8) ≠ 1 ∧ ¬BadDim (2 : Fin 8) ∧
    32 < (31 : PReg).val + (2 : Fin 8).val ∧ (30 : PReg).val + (2 : Fin 8).val ≤ 32 := by unfold BadDim; decide

/-- MENC and MDEC: two rows at width 10 are 640 bytes. -/
theorem witness_PackUnpackVector : Running (at1 0xFD81#16) ∧ (2 : Fin 16).val ∉ widths ∧ (10 : Fin 16).val ∈ widths ∧
    BadDim (5 : Fin 8) ∧ (2 : Fin 8) ≠ 1 ∧ ¬BadDim (2 : Fin 8) ∧ 32 < (31 : PReg).val + (2 : Fin 8).val ∧
    (30 : PReg).val + (2 : Fin 8).val ≤ 32 ∧
    65536 < ((at1 0xFD81#16).getE 1).toNat + (2 : Fin 8).val * (32 * (10 : Fin 16).val) ∧
    Running (at1 0xFD80#16) ∧ ((at1 0xFD80#16).getE 1).toNat + (2 : Fin 8).val * (32 * (10 : Fin 16).val) ≤ 65536 := by
  unfold BadDim; decide +kernel

theorem witness_GenerateMatrix : Running State.reset ∧ NoProfile State.reset ∧ Running saberState ∧
    HoldsProfile (saberState.setE 1 0xFFE0#16) .saber ∧ HoldsProfile (saberState.setE 1 0xFFE1#16) .saber ∧
    32 < (24 : PReg).val + Profile.saber.L * Profile.saber.L ∧ (23 : PReg).val + Profile.saber.L * Profile.saber.L ≤ 32 ∧
    65536 < ((saberState.setE 1 0xFFE1#16).getE 1).toNat + 32 ∧ ((saberState.setE 1 0xFFE0#16).getE 1).toNat + 32 ≤ 65536 :=
  ⟨reset_running, noProfile_reset, by decide, saber_holds, saber_holds, by decide +kernel⟩

theorem witness_GenerateSecret : Running State.reset ∧ NoProfile State.reset ∧ Running saberState ∧
    HoldsProfile (saberState.setE 1 0xFFE0#16) .saber ∧ HoldsProfile (saberState.setE 1 0xFFE1#16) .saber ∧
    32 < (30 : PReg).val + Profile.saber.L ∧ (29 : PReg).val + Profile.saber.L ≤ 32 ∧
    65536 < ((saberState.setE 1 0xFFE1#16).getE 1).toNat + 32 ∧ ((saberState.setE 1 0xFFE0#16).getE 1).toNat + 32 ≤ 65536 :=
  ⟨reset_running, noProfile_reset, by decide, saber_holds, saber_holds, by decide +kernel⟩

theorem witness_ParameterTables : 255 < 256 := by decide

/-- R93's row of Saber and R271's word with another mu. -/
theorem witness_SelectProfile : Running State.reset ∧
    Profile.saber.tuple = ⟨(3 : Fin 8).val, (13 : Fin 16).val, (10 : Fin 16).val, (4 : Fin 8).val, (8 : Fin 16).val,
      decide ((0 : Fin 2) = 1)⟩ ∧
    ∀ pr : Profile, pr.tuple ≠ ⟨(3 : Fin 8).val, (13 : Fin 16).val, (10 : Fin 16).val, (4 : Fin 8).val, (10 : Fin 16).val,
      decide ((0 : Fin 2) = 1)⟩ :=
  ⟨reset_running, by decide, by intro pr; cases pr <;> decide⟩

theorem witness_ReadControlRegister : Running State.reset ∧ Running saberState ∧ 9 < (10 : Fin 16).val ∧
    (9 : Fin 16).val ≤ 9 ∧ HoldsProfile saberState .saber ∧ NoProfile State.reset ∧ 2 ≤ (2 : Fin 16).val ∧
    (6 : Fin 16).val ≤ 6 ∧ StateInv saberState :=
  ⟨reset_running, by decide, by decide, by decide, saber_holds, noProfile_reset, by decide, by decide, saber_inv⟩

theorem witness_SpongeTransactions : 0 ≤ 32 := by decide

theorem witness_PkeEncryptFunction : (List.replicate 32 0#8).length = 32 ∧
    (List.replicate 992 0#8).length = Profile.saber.pkLen := by decide +kernel

theorem witness_PkeDecryptFunction : (List.replicate 1088 0#8).length = Profile.saber.ctLen ∧
    (List.replicate 1248 0#8).length = Profile.saber.pkeSkLen := by decide +kernel

/-- FireSaber with the source address in register 1 and the destination in register 2. -/
def kk (src dst : Word) : State := (fireState.setE 1 src).setE 2 dst

theorem kk_holds (src dst : Word) : Running (kk src dst) ∧ HoldsProfile (kk src dst) .fireSaber := ⟨(by decide : fireState.faulted = false), fire_holds⟩

/-- The boundaries of the six commands: each of the two ranges one byte too long, and both ending at 0xFFFF. -/
theorem witness_KeyCommands : Running State.reset ∧ NoProfile State.reset ∧
    (∀ src dst, Running (kk src dst) ∧ HoldsProfile (kk src dst) .fireSaber) ∧
    [(Instr.pkeKeygen 2 1, 0xFFC0#16, 0xF460#16), (.pkeEnc 2 1, 0xFAA0#16, 0xFA40#16), (.pkeDec 2 1, 0xF3C0#16, 0xFFE0#16),
      (.kemKeygen 2 1, 0xFFA0#16, 0xEF00#16), (.kemEncaps 2 1, 0xFAC0#16, 0xFA20#16),
      (.kemDecaps 2 1, 0xEE60#16, 0xFFE0#16)].all (fun x =>
      match kkBuffers x.1 with
      | some (ed, es, nin, nout) =>
        decide (((kk x.2.1 x.2.2).getE es).toNat + nin .fireSaber = 65536) &&
        decide (((kk x.2.1 x.2.2).getE ed).toNat + nout .fireSaber = 65536) &&
        decide (65536 < ((kk (x.2.1 + 1#16) x.2.2).getE es).toNat + nin .fireSaber) &&
        decide (65536 < ((kk x.2.1 (x.2.2 + 1#16)).getE ed).toNat + nout .fireSaber)
      | none => false) = true :=
  ⟨reset_running, noProfile_reset, kk_holds, by decide +kernel⟩

/-- Two states with the same source range and different registers elsewhere. -/
theorem witness_KeyCommandsNeverFaultOnContent :
    kkBuffers (.kemDecaps 2 1) = some (2, 1, fun pr => pr.ctLen + pr.skLen, fun _ => 32) ∧
    (Running (kk 0xEE60#16 0xFFE0#16) ∧ HoldsProfile (kk 0xEE60#16 0xFFE0#16) .fireSaber) ∧
    (Running ((kk 0xEE60#16 0xFFE0#16).setE 3 7#16) ∧ HoldsProfile ((kk 0xEE60#16 0xFFE0#16).setE 3 7#16) .fireSaber) ∧
    ((kk 0xEE60#16 0xFFE0#16).setE 3 7#16).getE 2 = (kk 0xEE60#16 0xFFE0#16).getE 2 ∧
    ((kk 0xEE60#16 0xFFE0#16).setE 3 7#16).getE 1 = (kk 0xEE60#16 0xFFE0#16).getE 1 ∧
    ((kk 0xEE60#16 0xFFE0#16).getE 1).toNat + (Profile.fireSaber.ctLen + Profile.fireSaber.skLen) ≤ 65536 ∧
    ((kk 0xEE60#16 0xFFE0#16).getE 2).toNat + 32 ≤ 65536 ∧
    (∀ a, ((kk 0xEE60#16 0xFFE0#16).setE 3 7#16).readByte a = (kk 0xEE60#16 0xFFE0#16).readByte a) :=
  ⟨rfl, kk_holds _ _, ⟨by decide, fire_holds⟩, by decide +kernel, by decide +kernel, by decide +kernel, by decide +kernel, fun _ => rfl⟩

theorem witness_KemRoundTripReducesToPke : (List.replicate 32 0#8).length = 32 := by decide

theorem witness_CompareRanges : Running (ctState [(1, 0xFFFD#16)]) ∧
    65536 < ((ctState [(1, 0xFFFD#16)]).getE 1).toNat + ((ctState [(1, 0xFFFD#16)]).getE 4).toNat ∧
    Running (ctState [(1, 0xFFFC#16)]) ∧ ((ctState [(1, 0xFFFC#16)]).getE 1).toNat + ((ctState []).getE 4).toNat ≤ 65536 ∧
    (∀ k, k < 4 → (ctState []).readByte (0x0100 + k) = (ctState []).readByte (0x0200 + k)) ∧
    (∃ k, k < 4 ∧ (ctState []).readByte (0x0100 + k) ≠ (ctState []).readByte (0x0300 + k)) :=
  ⟨by decide +kernel, by decide +kernel, by decide +kernel, by decide +kernel, by decide +kernel, 3, by decide +kernel⟩

theorem witness_SelectRange : Running (ctState [(5, 0xFFFD#16)]) ∧
    65536 < ((ctState [(5, 0xFFFD#16)]).getE 5).toNat + ((ctState []).getE 4).toNat ∧
    Running (ctState [(5, 0xFFFC#16)]) ∧ ((ctState [(5, 0xFFFC#16)]).getE 5).toNat + ((ctState []).getE 4).toNat ≤ 65536 ∧
    ((ctState []).getE 1).toNat + 4 ≤ 65536 ∧ ((ctState []).getE 3).toNat + 4 ≤ 65536 ∧
    ((ctState []).getE 7 ≠ 0xFFFF#16 ∧ (ctState []).getE 7 ≠ 0x0000#16) ∧ (ctState [(8, 0xFFFF#16)]).getE 8 = 0xFFFF#16 ∧
    (ctState []).getE 6 = 0x0000#16 := by decide +kernel

/-! ### ImplicitRejection: a cipher text that is accepted and one that is rejected, for whatever the hash functions are. With
a zero public key, secret key and message every step of the decryption is zero. -/

/-- `n` zero bytes. -/
abbrev zeros (n : Nat) : Bytes := List.replicate n 0#8

theorem slice_zeros (n i j : Nat) : slice (zeros n) i j = zeros (min (j - i) (n - i)) := by
  simp [slice, zeros, List.drop_replicate, List.take_replicate]

theorem le_zeros (n : Nat) : le (zeros n) = 0 := by
  induction n with
  | zero => rfl
  | succ n ih => simpa [zeros, List.replicate_succ, le] using ih

theorem decode_zeros (n eps : Nat) : decodePoly (zeros n) eps = polyZero := by
  refine poly_ext fun j hj => ?_
  simp only [decodePoly, coeff_tabulate _ _ hj, le_zeros, coeff_polyZero]
  simp

theorem leBytes_zero (n : Nat) : leBytes n 0 = zeros n := by
  induction n with
  | zero => rfl
  | succ n ih => simpa [leBytes, zeros, List.replicate_succ] using ih

theorem sum_zeros {α : Type} [AddMonoid α] (l : List Nat) (f : Nat → α) (h : ∀ i, f i = 0) : (l.map f).sum = 0 := by
  induction l with
  | nil => rfl
  | cons i l ih => rw [List.map_cons, List.sum_cons, h, ih, zero_add]

theorem encode_zero (eps : Nat) : encodePoly polyZero eps = zeros (32 * eps) := by
  rw [encodePoly, packedStream, sum_zeros _ _ fun i => by rw [coeff_polyZero]; simp, leBytes_zero]

theorem polyMul_zero_left (q : Poly) : polyMul polyZero q = polyZero := by
  refine poly_ext fun k hk => ?_
  rw [coeff_polyMul _ _ _ hk, convLow, convHigh, sum_zeros _ _ fun i => by simp [ringMul],
    sum_zeros _ _ fun i => by simp [ringMul], coeff_polyZero]
  rfl

theorem polyMul_zero_right (q : Poly) : polyMul q polyZero = polyZero := by
  refine poly_ext fun k hk => ?_
  rw [coeff_polyMul _ _ _ hk, convLow, convHigh, sum_zeros _ _ fun i => by simp [ringMul],
    sum_zeros _ _ fun i => by simp [ringMul], coeff_polyZero]
  rfl

theorem polySum_zero (l : List Poly) (h : ∀ q ∈ l, q = polyZero) : polySum l = polyZero := by
  refine poly_ext fun k hk => ?_
  rw [coeff_polySum _ _ hk, coeff_polyZero]
  induction l with
  | nil => rfl
  | cons q l ih => simp_all

theorem polyMod_zero (k : Nat) : polyMod polyZero k = polyZero := by
  refine poly_ext fun j hj => ?_
  simp [coeff_polyMod _ _ _ hj, ringRed]

theorem polyShl_zero (k : Nat) : polyShl polyZero k = polyZero := by
  refine poly_ext fun j hj => ?_
  simp [coeff_polyShl _ _ _ hj]

theorem elt_vecDecode_zeros (n r eps i : Nat) : elt (vecDecode (zeros n) r eps) i = polyZero := by
  by_cases h : i < r
  · rw [vecDecode, elt_map_range _ _ _ h, slice_zeros, decode_zeros]
  · simp [elt, vecDecode, h]

/-- With a zero secret the ciphertext's first part has no influence and a zero second part decrypts to zero bytes. -/
theorem decrypt_zero (x : Bytes) (hx : x.length = 640) :
    pkeDecrypt .lightSaber (x ++ zeros 96) (zeros 832) = zeros 32 := by
  have hc : slice (x ++ zeros 96) 640 736 = zeros 96 := by
    rw [slice, List.drop_append_of_le_length (by omega), List.drop_of_length_le (by omega)]
    rfl
  have hv : ∀ A : List Poly, inner A ((vecDecode (zeros 832) 2 13).map fun q => polyMod q 10) 2 = polyZero := by
    intro A
    refine polySum_zero _ fun q hq => ?_
    obtain ⟨i, hi, rfl⟩ := List.mem_map.mp hq
    have : elt ((vecDecode (zeros 832) 2 13).map fun q => polyMod q 10) i = polyZero := by
      have hi : i < 2 := by simpa using hi
      have := elt_vecDecode_zeros 832 2 13 i
      simp only [elt, List.getD_eq_getElem?_getD, List.getElem?_map] at this ⊢
      have hl : i < (vecDecode (zeros 832) 2 13).length := by simpa using hi
      simp only [List.getElem?_eq_getElem hl, Option.map_some, Option.getD_some] at this ⊢
      rw [this, polyMod_zero]
    rw [this, polyMul_zero_right]
  show encodePoly (polyMod (polyShr (polyAdd (polySub (inner _ ((vecDecode (zeros 832) 2 13).map fun q => polyMod q 10) 2)
    (polyMod (polyShl (decodePoly (slice (x ++ zeros 96) 640 736) 3) 7) 10)) (h2 .lightSaber)) 9) 1) 1 = _
  rw [hv, hc, decode_zeros, polyShl_zero, polyMod_zero]
  have : polyMod (polyShr (polyAdd (polySub polyZero polyZero) (h2 .lightSaber)) 9) 1 = polyZero := by
    refine poly_ext fun j hj => ?_
    rw [coeff_polyMod _ _ _ hj, coeff_polyShr _ _ _ hj, coeff_polyAdd _ _ _ hj, coeff_polySub _ _ _ hj, h2,
      coeff_polyConst _ _ hj, coeff_polyZero]
    decide
  rw [this, encode_zero]

/-- With a zero public key and message the ciphertext's second part is zero. -/
theorem encrypt_zero (r : Bytes) : ∃ x : Bytes, x.length = 640 ∧
    pkeEncrypt .lightSaber (zeros 32) r (zeros 672) = x ++ zeros 96 := by
  refine ⟨vecEncode ((matVec (genMatrix (slice (zeros 672) 640 672) 2 13) (genSecret r 2 10 false) 2).map
    (roundToP .lightSaber)) 10, by simp [length_vecEncode], ?_⟩
  have hv : ∀ s : List Poly, inner (vecDecode (slice (zeros 672) 0 640) 2 10) s 2 = polyZero := by
    intro s
    refine polySum_zero _ fun q hq => ?_
    obtain ⟨i, hi, rfl⟩ := List.mem_map.mp hq
    rw [slice_zeros, elt_vecDecode_zeros, polyMul_zero_left]
  show _ ++ encodePoly (polyMod (polyShr (polyAdd (polySub (polyMod (inner (vecDecode (slice (zeros 672) 0 640) 2 10) _ 2) 10)
    (polyMod (polyShl (decodePoly (zeros 32) 1) 9) 10)) (h1 .lightSaber)) 7) 3) 3 = _
  rw [hv, decode_zeros, polyShl_zero, polyMod_zero]
  have : polyMod (polyShr (polyAdd (polySub polyZero polyZero) (h1 .lightSaber)) 7) 3 = polyZero := by
    refine poly_ext fun j hj => ?_
    rw [coeff_polyMod _ _ _ hj, coeff_polyShr _ _ _ hj, coeff_polyAdd _ _ _ hj, coeff_polySub _ _ _ hj, h1,
      coeff_polyConst _ _ hj, coeff_polyZero]
    decide
  rw [this, encode_zero]
  rfl

/-- A cipher text the re-encryption equals, and one it does not, of the right lengths. -/
theorem witness_ImplicitRejection : ∃ ct ct₂ : Bytes, ct.length = Profile.lightSaber.ctLen ∧
    ct₂.length = Profile.lightSaber.ctLen ∧ (zeros 832).length = Profile.lightSaber.pkeSkLen ∧
    (zeros 672).length = Profile.lightSaber.pkLen ∧ (zeros 32).length = 32 ∧
    pkeEncrypt .lightSaber (pkeDecrypt .lightSaber ct (zeros 832))
      ((hashG (pkeDecrypt .lightSaber ct (zeros 832) ++ zeros 32)).drop 32) (zeros 672) = ct ∧
    pkeEncrypt .lightSaber (pkeDecrypt .lightSaber ct₂ (zeros 832))
      ((hashG (pkeDecrypt .lightSaber ct₂ (zeros 832) ++ zeros 32)).drop 32) (zeros 672) ≠ ct₂ := by
  obtain ⟨x, hx, e⟩ := encrypt_zero ((hashG (zeros 32 ++ zeros 32)).drop 32)
  match x, hx with
  | v :: y, hx =>
    have h2 : ((~~~v) :: y).length = 640 := by simpa using hx
    refine ⟨(v :: y) ++ zeros 96, ((~~~v) :: y) ++ zeros 96, ?_, ?_, List.length_replicate.trans rfl, List.length_replicate.trans rfl, List.length_replicate, ?_, ?_⟩
    · rw [List.length_append, hx]; rfl
    · rw [List.length_append, h2]; rfl
    · rw [decrypt_zero _ hx, e]
    · rw [decrypt_zero _ h2, e]
      intro h
      have hv : v = ~~~v := by simpa using congrArg List.head? h
      revert hv
      bv_omega

end Sys2Proof.Tests
end

section
/-! PROOFS. The scope's statements: the table of profiles with the constants of R220 (O42), and the transactions of the
sponge units (O45). -/

namespace Sys2Proof.Machine

/-! ## Profiles and rounding constants (R7, R8, R220) -/

theorem mem_profileAll (pr : Profile) : pr ∈ Profile.all := by cases pr <;> decide

theorem one_le_epsT (pr : Profile) : 1 ≤ pr.epsT := by cases pr <;> decide

theorem h1Value_lt (pr : Profile) : h1Value pr < 2 ^ 16 := by cases pr <;> decide

theorem h2Value_lt (pr : Profile) : h2Value pr < 2 ^ 16 := by cases pr <;> decide

/-- The subtraction in h₂ does not go below zero, because 1 ≤ εt: it is the integers' one. -/
theorem h2Value_cast (pr : Profile) : (h2Value pr : Int) =
    2 ^ (pr.epsP - 2) - 2 ^ (pr.epsP - pr.epsT - 1) + 2 ^ (pr.epsQ - pr.epsP - 1) := by
  have ht := one_le_epsT pr
  have hle : 2 ^ (pr.epsP - pr.epsT - 1) ≤ 2 ^ (pr.epsP - 2) := Nat.pow_le_pow_right (by decide) (by omega)
  rw [h2Value, Nat.cast_add, Nat.cast_sub hle]
  simp only [Nat.cast_pow, Nat.cast_ofNat]

theorem val_polyConst_of_lt {n j : Nat} (hn : n < 2 ^ 16) (hj : j < 256) :
    Safety.val (polyConst (BitVec.ofNat 16 n)) j = n := by
  rw [Safety.val, coeff_polyConst _ _ hj, BitVec.toNat_ofNat, Nat.mod_eq_of_lt hn]

/-- Settles O42: the tables by evaluation, the constants' formulas and coefficients by the lemmas above. -/
theorem parameterTables : Obligations.ParameterTables := by
  unfold Obligations.ParameterTables
  refine ⟨rfl, rfl, rfl, fun pr => ?_⟩
  have h1Cast : (h1Value pr : Int) = 2 ^ (pr.epsQ - pr.epsP - 1) := by simp [h1Value]
  exact ⟨mem_profileAll pr, rfl, rfl, rfl, rfl, h1Cast, h2Value_cast pr, fun j hj =>
    ⟨val_polyConst_of_lt (h1Value_lt pr) hj, val_polyConst_of_lt (h2Value_lt pr) hj⟩⟩

/-! ## The sponge units (R300 to R305) -/

/-- Absorb calls concatenate (R301). -/
theorem foldlM_spongeAbsorb (x : Bytes) (pieces : List Bytes) :
    pieces.foldlM spongeAbsorb (.absorbing x) = some (.absorbing (x ++ pieces.flatten)) := by
  induction pieces generalizing x with
  | nil => simp
  | cons p ps ih =>
    calc (p :: ps).foldlM spongeAbsorb (.absorbing x)
        = ps.foldlM spongeAbsorb (.absorbing (x ++ p)) := rfl
      _ = some (.absorbing (x ++ (p :: ps).flatten)) := by rw [ih, List.flatten_cons, List.append_assoc]

/-- A squeeze of `m` bytes after `n` bytes continues the stream (R304). -/
theorem shake128_append (x : Bytes) (n m : Nat) :
    shake128 x n ++ (List.range m).map (fun j => Config.shake128 x (n + j)) = shake128 x (n + m) := by
  simp [shake128_eq, List.range_add]

/-- A shorter output is the start of a longer one (R11). -/
theorem shake128_take (x : Bytes) {n m : Nat} (h : n ≤ m) : shake128 x n = (shake128 x m).take n := by
  rw [shake128_eq, shake128_eq, ← List.map_take, List.take_range, Nat.min_eq_left h]

/-- The first squeeze of a finalized unit. -/
theorem spongeSqueeze_first (x : Bytes) (n : Nat) :
    spongeSqueeze (.finalized x 0) n = some (shake128 x n, .finalized x n) := by
  simp [spongeSqueeze, shake128_eq]

theorem squeezeTransaction_eq (x : Bytes) (n : Nat) :
    squeezeTransaction x n = some (shake128 x n, spongeInitial) := rfl

/-- Settles O45: the unit after the absorb calls is the one that absorbed the concatenation, and both squeezes of it are
parts of one SHAKE128 stream. -/
theorem spongeTransactions : Obligations.SpongeTransactions := by
  unfold Obligations.SpongeTransactions
  constructor
  · intro h pieces
    refine ⟨.absorbing pieces.flatten, .finalized pieces.flatten 0, foldlM_spongeAbsorb [] pieces, rfl, rfl, rfl,
      fun n m => ?_, rfl⟩
    exact ⟨_, _, _, _, spongeSqueeze_first _ n, rfl, shake128_append _ n m, rfl⟩
  · intro x
    exact ⟨hashH_eq x, hashG_eq x, length_hashH x, length_hashG x, rfl, rfl, fun n m hnm =>
      ⟨length_shake128 x n, shake128_take x hnm, squeezeTransaction_eq x n⟩⟩

end Sys2Proof.Machine
end

section
/-! PROOFS. The invariant of every step (O12, O11): each way a state may change keeps it, and a step changes the state in one
of these ways. -/

namespace Sys2Proof.Machine

open Sys2Proof.Safety

/-! ## Each update keeps the invariant -/

/-- The invariant speaks of DMEM and the stored control registers only. -/
theorem stateInv_congr {s t : State} (hd : t.dmem = s.dmem) (hp : SameParams s t) (hf : SameFaultRegs s t) :
    StateInv t ↔ StateInv s := by
  obtain ⟨h0, h1⟩ := hp
  obtain ⟨hs, hl, hh⟩ := hf
  simp only [StateInv, ParamsLegal, FaultRegsLegal, hd, h0, h1, hs, hl, hh]

/-- Settles O11: nothing is written to DMEM, no profile is packed and the fault registers are 0. -/
theorem resetMeetsTheInvariant : Obligations.ResetMeetsTheInvariant :=
  ⟨Memory.wf_reset, List.mem_cons_self, .inl ⟨rfl, rfl, rfl⟩⟩

theorem stateInv_afterReset (s : State) : StateInv s.afterReset :=
  (stateInv_congr (s := State.reset) rfl ⟨rfl, rfl⟩ ⟨rfl, rfl, rfl⟩).mpr resetMeetsTheInvariant

/-- The packing of a row of R7 is one of the legal pairs (R25, R26). -/
theorem paramsLegal_of_profile {s : State} (pr : Profile) (h0 : s.params0 = packParams0 pr.tuple)
    (h1 : s.params1 = packParams1 pr.tuple) : ParamsLegal s := by
  rw [ParamsLegal, h0, h1]
  cases pr <;> decide

theorem stateInv_recordFault {s : State} (h : StateInv s) (w : CmdWord) (c : Cause) : StateInv (s.recordFault w c) := by
  obtain ⟨hwf, hparams, -⟩ := h
  exact ⟨hwf, hparams, .inr ⟨c.code, c.code_range.1, c.code_range.2, faultStatus_toNat c⟩⟩

theorem stateInv_memWrite {s : State} (h : StateInv s) {a : Nat} {b : Bytes} (hb : a + b.length ≤ 65536) :
    StateInv (s.memWrite a b) := by
  obtain ⟨hwf, hparams, hfault⟩ := h
  exact ⟨Memory.wf_writeRange hwf hb, hparams, hfault⟩

theorem stateInv_effect {s t : State} (h : StateInv s) (e : Effect s t) : StateInv t := by
  cases e with
  | scalar d v => exact h
  | poly d q => exact h
  | polys b qs => exact (stateInv_congr (by simp) (by simp [SameParams]) (by simp [SameFaultRegs])).mpr h
  | bytes a b hb => exact stateInv_memWrite h hb
  | profile pr =>
    obtain ⟨hwf, -, hfault⟩ := h
    exact ⟨hwf, paramsLegal_of_profile pr rfl rfl, hfault⟩

/-! ## Each move and each step keeps it -/

/-- Everything a step that is answered by a next state can be: idle, or the host's next move. -/
theorem step_cases {s t : State} (h : step s = .next t) :
    (s.moves = [] ∧ t = s) ∨ ∃ m rest, s.moves = m :: rest ∧ hostMove m (s.afterTaking rest) = .next t := by
  cases hmoves : s.moves with
  | nil => exact .inl ⟨rfl, (Host.Outcome.next.inj ((step_idle hmoves).symm.trans h)).symm⟩
  | cons m rest => exact .inr ⟨m, rest, rfl, (step_move hmoves).symm.trans h⟩

theorem stateInv_hostMove {m : HostMove} {s t : State} (h : StateInv s) (hm : hostMove m s = .next t) : StateInv t := by
  rcases hostMove_cases hm with rfl | ⟨w, c, rfl⟩ | e | ⟨a, b, hb, rfl⟩ | ⟨r, rfl⟩
  · exact stateInv_afterReset s
  · exact stateInv_recordFault h w c
  · exact stateInv_effect h e
  · exact stateInv_memWrite h hb
  · exact h

/-- Settles O12: an idle step answers the same state, every other step is a move on a state with the same registers. -/
theorem everyStepKeepsTheInvariant : Obligations.EveryStepKeepsTheInvariant := by
  unfold Obligations.EveryStepKeepsTheInvariant
  intro s t h hstep
  obtain ⟨-, rfl⟩ | ⟨m, rest, -, hm⟩ := step_cases hstep
  · exact h
  · exact stateInv_hostMove (s := s.afterTaking rest) h hm

end Sys2Proof.Machine
end

section
/-! PROOFS. Steps, reset and runs: a step that issues a word runs its command (O7), the reset state and the reset move (O10,
O8), and no move but reset loses a recorded fault, so a run that ends well met none (O16). -/

namespace Sys2Proof.Machine

open Sys2Proof.Safety

/-! ## A step runs the command of the word it issues (R22, R330) -/

theorem step_issue {s : State} {w : CmdWord} {rest : List HostMove} (h : s.moves = .issue w :: rest) :
    step s = issue w { s with moves := rest, reply := none } := step_move h

theorem withFetchWord_toNat (s : State) (w : CmdWord) : s.withFetchWord 32 w.toNat = s.offer w := by
  rw [State.withFetchWord, Nat.mod_eq_of_lt w.isLt, BitVec.ofNat_toNat, BitVec.setWidth_eq]

/-- Settles O7: the step is the issue of the word, and the word decides between `exec` and the fault. -/
theorem stepRunsTheDecodedCommand : Obligations.StepRunsTheDecodedCommand := by
  unfold Obligations.StepRunsTheDecodedCommand
  refine ⟨fun s w rest i hmoves hw => ?_, fun s w rest r hmoves hw => ?_, fun s i hw => ?_⟩
  · exact (step_issue hmoves).trans (issue_instr _ hw)
  · exact (step_issue hmoves).trans (issue_rejected _ hw)
  · rw [withFetchWord_toNat]
    exact (step_issue rfl).trans (issue_instr _ hw)

/-! ## The reset state (R42) -/

theorem profile?_reset : State.reset.profile? = none := by decide

theorem profileWord_none {s : State} (h : s.profile? = none) (f : Profile → Nat) : s.profileWord f = 0#16 := by
  simp [State.profileWord, h]

theorem getP_reset (i : PReg) : State.reset.getP i = polyZero := by
  rw [State.getP_eq _ _ i.isLt, State.reset, Vector.getElem_replicate, polyZero]

/-- Control registers 2 to 6 read 0 with no profile held. -/
theorem csr?_noProfile {s : State} (h : NoProfile s) {n : Nat} (h2 : 2 ≤ n) (h6 : n ≤ 6) : s.csr? n = some 0#16 := by
  have hword := profileWord_none ((profile?_eq_none s).mpr h)
  interval_cases n <;> exact congrArg some (hword _)

theorem csr?_reset {n : Nat} (hn : n ≤ 9) : State.reset.csr? n = some 0#16 := by
  by_cases hprofile : 2 ≤ n ∧ n ≤ 6
  · exact csr?_noProfile ((profile?_eq_none _).mp profile?_reset) hprofile.1 hprofile.2
  · obtain rfl | rfl | rfl | rfl | rfl : n = 0 ∨ n = 1 ∨ n = 7 ∨ n = 8 ∨ n = 9 := by omega
    all_goals rfl

/-- Settles O10: each register's reset value by the lemma about reading it. -/
theorem resetState : Obligations.ResetState :=
  ⟨State.getE_reset, fun i j _ => getP_reset i ▸ coeff_polyZero j, fun _ => csr?_reset,
    (profile?_eq_none _).mp profile?_reset, rfl, fun _ => rfl⟩

/-! ## What a move other than reset does to the fault registers (R313, R314) -/

/-- A word that is answered by a next state was issued with no fault recorded, and records one or leaves the fault registers. -/
theorem issue_faultRegs {w : CmdWord} {s t : State} (h : issue w s = .next t) :
    Running s ∧ (t.faulted = true ∨ SameFaultRegs s t) := by
  cases hw : decode w with
  | instr i =>
    rw [issue_instr s hw] at h
    have ha := answer_exec i s
    rw [h] at ha
    cases ha with
    | faulted hs c => exact ⟨hs, .inl (State.faulted_recordFault _ _ _)⟩
    | done hs e => exact ⟨hs, .inr e.frame.2.2⟩
  | rejected r =>
    rw [issue_rejected s hw] at h
    cases hs : s.faulted
    · rw [trap_running _ _ hs] at h
      cases h
      exact ⟨hs, .inl (State.faulted_recordFault _ _ _)⟩
    · rw [trap_faulted _ _ hs] at h
      cases h

/-- A move other than reset that leaves no fault recorded met none: STATUS and FINFO are as before. -/
theorem hostMove_faultRegs {m : HostMove} {s t : State} (hm : m ≠ .reset) (h : hostMove m s = .next t) (ht : Running t) :
    SameFaultRegs s t := by
  cases m with
  | reset => exact absurd rfl hm
  | issue w =>
    obtain ⟨-, hfault | hsame⟩ := issue_faultRegs (w := w) h
    · rw [ht] at hfault
      cases hfault
    · exact hsame
  | writeDmem a b =>
    simp only [hostMove] at h
    split at h
    · cases h
      exact ⟨rfl, rfl, rfl⟩
    · cases h
  | readDmem a n =>
    simp only [hostMove] at h
    split at h
    · cases h
      exact ⟨rfl, rfl, rfl⟩
    · cases h
  | readCsr n =>
    cases h
    exact ⟨rfl, rfl, rfl⟩

/-- The same of a step whose move is no reset. -/
theorem step_faultRegs {s t : State} (hreset : ∀ rest, s.moves ≠ .reset :: rest) (h : step s = .next t) (ht : Running t) :
    SameFaultRegs s t := by
  obtain ⟨-, rfl⟩ | ⟨m, rest, hmoves, hm⟩ := step_cases h
  · exact ⟨rfl, rfl, rfl⟩
  · have hne : m ≠ .reset := fun e => hreset rest (e ▸ hmoves)
    exact hostMove_faultRegs (s := s.afterTaking rest) hne hm ht

theorem running_of_sameFaultRegs {s t : State} (h : SameFaultRegs s t) (ht : Running t) : Running s :=
  (State.faulted_congr h.1).symm.trans ht

/-! ## The reset move (R340) -/

theorem step_reset {s : State} {rest : List HostMove} (h : s.moves = .reset :: rest) :
    step s = .next (s.afterTaking rest).afterReset := step_move h

/-- Settles O8: the state after a reset move reads as the reset state, and no other move loses a recorded fault. -/
theorem resetMoveClearsEverything : Obligations.ResetMoveClearsEverything := by
  unfold Obligations.ResetMoveClearsEverything
  constructor
  · intro s rest hmoves
    obtain ⟨he, hp, hcsr, hprofile, hrunning, hdmem⟩ := resetState
    exact ⟨_, step_reset hmoves, he, hp, hcsr, hprofile, hrunning, hdmem, rfl, rfl⟩
  · intro s t hs hstep ht
    by_contra hno
    have hsame : SameFaultRegs s t := step_faultRegs (not_exists.mp hno) hstep ht
    rw [running_of_sameFaultRegs hsame ht] at hs
    cases hs

/-! ## Runs (R330) -/

theorem hostMove_moves {m : HostMove} {s t : State} (h : hostMove m s = .next t) : t.moves = s.moves := by
  rcases hostMove_cases h with rfl | ⟨w, c, rfl⟩ | e | ⟨a, b, -, rfl⟩ | ⟨r, rfl⟩
  · rfl
  · rfl
  · exact e.frame.1
  · rfl
  · rfl

/-- A step makes at most the first of the host's moves. -/
theorem step_moves_subset {s t : State} (h : step s = .next t) : t.moves ⊆ s.moves := by
  obtain ⟨-, rfl⟩ | ⟨m, rest, hmoves, hm⟩ := step_cases h
  · exact List.Subset.refl _
  · rw [hmoves, hostMove_moves hm]
    exact List.subset_cons_self m rest

theorem run_succ_next {n : Nat} {s t : State} (h : run (n + 1) s = .next t) : ∃ u, step s = .next u ∧ run n u = .next t := by
  rw [run] at h
  split at h
  · exact ⟨_, ‹_›, h⟩
  · cases h
  · cases h

theorem sameFaultRegs_trans {s t u : State} (h : SameFaultRegs s t) (h' : SameFaultRegs t u) : SameFaultRegs s u := by
  obtain ⟨hs, hl, hh⟩ := h
  obtain ⟨hs', hl', hh'⟩ := h'
  exact ⟨hs'.trans hs, hl'.trans hl, hh'.trans hh⟩

/-- Settles O16, by induction on the number of moves: the rest of the run met no fault, so its first step left none. -/
theorem aFaultIsNeverLostInARun : Obligations.AFaultIsNeverLostInARun := by
  unfold Obligations.AFaultIsNeverLostInARun
  intro n
  induction n with
  | zero =>
    intro s t _ hrun hend
    cases hrun
    exact ⟨hend.2, rfl, rfl, rfl⟩
  | succ n ih =>
    intro s t hmoves hrun hend
    obtain ⟨u, hstep, hrest⟩ := run_succ_next hrun
    obtain ⟨hu, hsame⟩ := ih u t (fun m hm => hmoves m (step_moves_subset hstep hm)) hrest hend
    have hfirst : ∀ rest, s.moves ≠ .reset :: rest := fun rest e => hmoves .reset (e ▸ List.mem_cons_self) rfl
    have hstepSame : SameFaultRegs s u := step_faultRegs hfirst hstep hu
    exact ⟨running_of_sameFaultRegs hstepSame hu, sameFaultRegs_trans hstepSame hsame⟩

end Sys2Proof.Machine
end

section
/-! PROOFS. Reading a control register (O44), and the six commands of format KK on two states that agree on the source (O58). -/

namespace Sys2Proof.Machine

open Sys2Proof.Safety

/-! ## Control registers (R24 to R33, R272) -/

theorem csr?_none {s : State} {n : Nat} (h : 9 < n) : s.csr? n = none := by
  obtain ⟨k, rfl⟩ : ∃ k, n = k + 10 := ⟨n - 10, by omega⟩
  rfl

theorem csr?_some (s : State) {n : Nat} (h : n ≤ 9) : ∃ v, s.csr? n = some v := by
  interval_cases n <;> exact ⟨_, rfl⟩

/-- RDCSR in the shared shape: the number is its one condition. -/
theorem exec_rdcsr_eq_execute (ed : SReg) (csr : Fin 16) (s : State) :
    exec (.rdcsr ed csr) s =
      execute (.rdcsr ed csr) s [(csrOk csr, .illegal)] (s.setE ed ((s.csr? csr).getD 0#16)) := by
  by_cases h : csr.val ≤ 9
  · obtain ⟨v, hv⟩ := csr?_some s h
    simp [exec_rdcsr, hv, execute, firstFault_cons, csrOk, h]
  · simp [exec_rdcsr, csr?_none (not_le.mp h), execute, firstFault_cons, csrOk, h]

theorem faults_rdcsr_reserved (ed : SReg) {csr : Fin 16} {s : State} (hs : Running s) (h : 9 < csr.val) :
    Faults (.rdcsr ed csr) s 1 := by
  have hbad : csrOk csr = false := decide_eq_false (by omega)
  refine faults_of_exec (c := .illegal) ?_
  rw [exec_rdcsr_eq_execute]
  exact execute_fault hs (by rw [firstFault_cons, hbad]; rfl)

theorem exec_rdcsr_value (ed : SReg) {csr : Fin 16} {s : State} {v : Word} (hs : Running s) (h : csr.val ≤ 9)
    (hv : s.csr? csr = some v) : exec (.rdcsr ed csr) s = .next (s.setE ed v) := by
  have hok : csrOk csr = true := decide_eq_true h
  rw [exec_rdcsr_eq_execute, hv]
  exact execute_ok hs (by rw [firstFault_cons, hok]; rfl)

/-- A register that is a function of the profile reads that function of the profile held, when 16 bits hold it. -/
theorem profileWord_toNat {s : State} {pr : Profile} (h : HoldsProfile s pr) {f : Profile → Nat} (hf : f pr < 2 ^ 16) :
    (s.profileWord f).toNat = f pr := by
  rw [State.profileWord, (profile?_eq_some s pr).mpr h]
  exact Nat.mod_eq_of_lt hf

theorem holdsProfile_unique {s : State} {pr pr' : Profile} (h : HoldsProfile s pr) (h' : HoldsProfile s pr') : pr = pr' :=
  Option.some.inj (((profile?_eq_some s pr).mpr h).symm.trans ((profile?_eq_some s pr').mpr h'))

/-- What control registers 2 to 6 read with a profile held: each value fits in 16 bits for each of the six (R27 to R31). -/
theorem csr?_profile {s : State} {pr : Profile} (h : HoldsProfile s pr) {csr : Fin 16} {v : Word} (hv : s.csr? csr = some v) :
    (csr = 2 → v.toNat = pr.id) ∧ (csr = 3 → v.toNat = pr.pkLen) ∧ (csr = 4 → v.toNat = pr.skLen) ∧
    (csr = 5 → v.toNat = pr.ctLen) ∧ (csr = 6 → v.toNat = pr.pkeSkLen) := by
  have hid : pr.id < 2 ^ 16 := by cases pr <;> decide
  have hpk : pr.pkLen < 2 ^ 16 := by cases pr <;> decide
  have hsk : pr.skLen < 2 ^ 16 := by cases pr <;> decide
  have hct : pr.ctLen < 2 ^ 16 := by cases pr <;> decide
  have hpke : pr.pkeSkLen < 2 ^ 16 := by cases pr <;> decide
  refine ⟨?_, ?_, ?_, ?_, ?_⟩
  · rintro rfl; cases hv; exact profileWord_toNat h hid
  · rintro rfl; cases hv; exact profileWord_toNat h hpk
  · rintro rfl; cases hv; exact profileWord_toNat h hsk
  · rintro rfl; cases hv; exact profileWord_toNat h hct
  · rintro rfl; cases hv; exact profileWord_toNat h hpke

/-- With no fault recorded the invariant leaves the fault registers 0: STATUS with a code is odd (R32). -/
theorem faultRegs_zero {s : State} (hinv : StateInv s) (hs : Running s) :
    s.status = 0#16 ∧ s.finfoLo = 0#16 ∧ s.finfoHi = 0#16 := by
  obtain ⟨-, -, hzero | ⟨code, -, -, hstatus⟩⟩ := hinv
  · exact hzero
  · have hodd : s.faulted = true := by
      rw [State.faulted, ← BitVec.testBit_toNat, hstatus, Nat.testBit_zero]
      exact decide_eq_true (by omega)
    rw [hs] at hodd
    cases hodd

/-- A command that needs a profile takes PROFILE when none is held. -/
theorem faults_profile {i : Instr} {s : State} (hs : Running s) (h : exec i s = trap (encode i) .profile s) : Faults i s 2 :=
  faults_of_exec (c := .profile) (h.trans (trap_running _ _ hs))

theorem wordIs_rdcsr (ed : SReg) (csr : Fin 16) : WordIs (.rdcsr ed csr) (0x02 * 2 ^ 24 + ed * 2 ^ 20 + csr * 2 ^ 16) := by
  simp only [WordIs, encode, encCR, BitVec.toNat_ofNat]
  omega

/-- Settles O44: the value read by number, the eight commands by their shared operations. -/
theorem readControlRegister : Obligations.ReadControlRegister := by
  unfold Obligations.ReadControlRegister
  intro ed csr s hs
  refine ⟨fun h => ?_, fun h => ?_, fun _ _ => holdsProfile_unique, fun h pd ea es => ?_, fun hinv => ?_, wordIs_rdcsr ed csr⟩
  · exact faults_rdcsr_reserved ed hs h
  · obtain ⟨v, hv⟩ := csr?_some s h
    have hread {n : Fin 16} {x : Word} (hx : s.csr? n = some x) (hn : csr = n) : v = x :=
      Option.some.inj (hv.symm.trans (hn ▸ hx))
    exact ⟨v, writesScalar_of_exec (exec_rdcsr_value ed hs h hv) rfl, hv, hread rfl, hread rfl, fun _ hp => csr?_profile hp hv,
      fun hno h2 h6 => Option.some.inj (hv.symm.trans (csr?_noProfile hno h2 h6)), hread rfl, hread rfl, hread rfl⟩
  · have hp : s.profile? = none := (profile?_eq_none s).mpr h
    have hbuffer {i : Instr} {nin nout : Profile → Nat} {f : Profile → Bytes → Bytes}
        (hi : exec i s = bufferCommand i ed es nin nout f s) : Faults i s 2 :=
      faults_profile hs (hi.trans (bufferCommand_none _ _ _ _ _ _ hp))
    exact ⟨faults_profile hs (withProfile_none hp), faults_profile hs (withProfile_none hp),
      hbuffer (exec_pkeKeygen _ _ s), hbuffer (exec_pkeEnc _ _ s), hbuffer (exec_pkeDec _ _ s),
      hbuffer (exec_kemKeygen _ _ s), hbuffer (exec_kemEncaps _ _ s), hbuffer (exec_kemDecaps _ _ s)⟩
  · obtain ⟨hstatus, hlo, hhi⟩ := faultRegs_zero hinv hs
    exact ⟨congrArg some hstatus, congrArg some hlo, congrArg some hhi⟩

/-! ## The commands of format KK (R221, R241) -/

/-- Each of the six is `bufferCommand` with the lengths of its buffers and a function that gives a string of the second. -/
theorem exec_of_kkBuffers {i : Instr} {ed es : SReg} {nin nout : Profile → Nat} (h : kkBuffers i = some (ed, es, nin, nout)) :
    ∃ f : Profile → Bytes → Bytes, (∀ s, exec i s = bufferCommand i ed es nin nout f s) ∧
      ∀ pr b, b.length = nin pr → (f pr b).length = nout pr := by
  cases i <;> cases h
  case pkeKeygen => exact ⟨_, exec_pkeKeygen _ _, fun pr b _ => length_pkeKeygenBytes pr b⟩
  case pkeEnc => exact ⟨_, exec_pkeEnc _ _, fun pr b _ => length_pkeEncBytes pr b⟩
  case pkeDec => exact ⟨_, exec_pkeDec _ _, fun pr b _ => length_pkeDecBytes pr b⟩
  case kemKeygen => exact ⟨_, exec_kemKeygen _ _, length_kemKeygenBytes⟩
  case kemEncaps => exact ⟨_, exec_kemEncaps _ _, fun pr b _ => length_kemEncapsBytes pr b⟩
  case kemDecaps => exact ⟨_, exec_kemDecaps _ _, fun pr b _ => length_kemDecapsBytes pr b⟩

/-- Settles O58: both states write the command's function of the one source string at the one address. -/
theorem keyCommandsNeverFaultOnContent : Obligations.KeyCommandsNeverFaultOnContent := by
  unfold Obligations.KeyCommandsNeverFaultOnContent
  intro i ed es nin nout hi s s' pr hs hs' hp hp' hed hes hsrc hdst hbytes
  obtain ⟨f, hexec, hlen⟩ := exec_of_kkBuffers hi
  have haddrS : s'.addr es = s.addr es := congrArg BitVec.toNat hes
  have haddrD : s'.addr ed = s.addr ed := congrArg BitVec.toNat hed
  have hread : s'.memRead (s.addr es) (nin pr) = s.memRead (s.addr es) (nin pr) := by
    refine State.memRead_congr fun x hlo hhi => ?_
    obtain ⟨k, rfl⟩ := Nat.exists_eq_add_of_le hlo
    exact hbytes k (by omega)
  have hrun : exec i s = .next (s.memWrite (s.addr ed) (f pr (s.memRead (s.addr es) (nin pr)))) :=
    (hexec s).trans (bufferCommand_ok hs ((profile?_eq_some s pr).mpr hp) hsrc hdst)
  have hrun' : exec i s' = .next (s'.memWrite (s.addr ed) (f pr (s.memRead (s.addr es) (nin pr)))) := by
    rw [hexec s', bufferCommand_ok hs' ((profile?_eq_some s' pr).mpr hp') (haddrS ▸ hsrc) (haddrD ▸ hdst), haddrS,
      haddrD, hread]
  exact ⟨_, hlen pr _ (State.length_memRead _ _ _), stores_of_exec hrun, stores_of_exec hrun'⟩

end Sys2Proof.Machine
end

section
/-! PROOFS. What each command may change and what it may read (O17), against the lists of R21, R35, R54 and R272. -/

namespace Sys2Proof.Machine

open Sys2Proof.Safety

/-! ## A command changes only what is listed for it -/

/-- What differs between `s` and `t` is listed as written by the command `i`. -/
def ChangesListed (i : Instr) (s t : State) : Prop :=
  (writesScalars i = false → SameScalars s t) ∧ (writesPolys i = false → SamePolys s t) ∧
  (writesDmem i = false → SameDmem s t) ∧ (writesParams i = false → SameParams s t) ∧ SameHost s t

section
variable {i : Instr} {s t : State}

theorem changesListed_recordFault (w : CmdWord) (c : Cause) : ChangesListed i s (s.recordFault w c) :=
  ⟨fun _ _ => rfl, fun _ _ => rfl, fun _ _ => rfl, fun _ => ⟨rfl, rfl⟩, rfl, rfl⟩

theorem changesListed_of_frameScalar {d : SReg} (hi : writesScalars i = true) (h : FrameScalar s t d) :
    ChangesListed i s t := by
  obtain ⟨-, hpolys, hdmem, ⟨hparams, -⟩, hhost⟩ := h
  exact ⟨fun hno => absurd (hi.symm.trans hno) (by decide), fun _ => hpolys, fun _ => hdmem, fun _ => hparams, hhost⟩

theorem changesListed_of_framePolys {b n : Nat} (hi : writesPolys i = true) (h : FramePolys s t b n) :
    ChangesListed i s t := by
  obtain ⟨hscalars, -, hdmem, ⟨hparams, -⟩, hhost⟩ := h
  exact ⟨fun _ => hscalars, fun hno => absurd (hi.symm.trans hno) (by decide), fun _ => hdmem, fun _ => hparams, hhost⟩

theorem changesListed_of_frameDmem {a n : Nat} (hi : writesDmem i = true) (h : FrameDmem s t a n) :
    ChangesListed i s t := by
  obtain ⟨hscalars, hpolys, -, ⟨hparams, -⟩, hhost⟩ := h
  exact ⟨fun _ => hscalars, fun _ => hpolys, fun hno => absurd (hi.symm.trans hno) (by decide), fun _ => hparams, hhost⟩

theorem changesListed_of_frameParams (hi : writesParams i = true) (h : FrameParams s t) : ChangesListed i s t := by
  obtain ⟨hscalars, hpolys, hdmem, -, hhost⟩ := h
  exact ⟨fun _ => hscalars, fun _ => hpolys, fun _ => hdmem, fun hno => absurd (hi.symm.trans hno) (by decide), hhost⟩

theorem changesListed_trap {w : CmdWord} {c : Cause} (h : trap w c s = .next t) : ChangesListed i s t := by
  cases hs : s.faulted
  · rw [trap_running _ _ hs] at h
    cases h
    exact changesListed_recordFault w c
  · rw [trap_faulted _ _ hs] at h
    cases h

theorem changesListed_execute {u : State} {l : List (Bool × Cause)} (hu : ChangesListed i s u)
    (h : execute i s l u = .next t) : ChangesListed i s t := by
  rcases execute_cases i s u l with ⟨-, e⟩ | ⟨-, -, e⟩ | ⟨-, c, -, e⟩ <;> rw [e] at h <;> cases h
  · exact hu
  · exact changesListed_recordFault _ c

theorem changesListed_withProfile {k : Profile → Out} (hk : ∀ pr, k pr = .next t → ChangesListed i s t)
    (h : withProfile i s k = .next t) : ChangesListed i s t := by
  cases hp : s.profile? with
  | none => exact changesListed_trap ((withProfile_none hp).symm.trans h)
  | some pr => exact hk pr ((withProfile_some hp).symm.trans h)

theorem changesListed_bufferCommand {ed es : SReg} {nin nout : Profile → Nat} {f : Profile → Bytes → Bytes}
    (hi : writesDmem i = true) (h : bufferCommand i ed es nin nout f s = .next t) : ChangesListed i s t :=
  changesListed_withProfile (fun _ => changesListed_execute (changesListed_of_frameDmem hi (frameDmem_memWrite _ _ _))) h

end

theorem exec_changesListed {i : Instr} {s t : State} (h : exec i s = .next t) : ChangesListed i s t := by
  cases i with
  | setprof =>
    refine changesListed_execute (changesListed_of_frameParams rfl ?_) h
    exact ⟨fun _ => rfl, fun _ => rfl, fun _ => rfl, ⟨rfl, rfl, rfl⟩, rfl, rfl⟩
  | rdcsr =>
    rw [exec_rdcsr_eq_execute] at h
    exact changesListed_execute (changesListed_of_frameScalar rfl (frameScalar_setE _ _ _)) h
  | eli | eadd | esub | eneg | emul | eshl | eshr | ered | eldb | pgetc =>
    exact changesListed_execute (l := []) (changesListed_of_frameScalar rfl (frameScalar_setE _ _ _)) h
  | eld | cteq => exact changesListed_execute (changesListed_of_frameScalar rfl (frameScalar_setE _ _ _)) h
  | pzero | pmov | padd | pacc | psub | pmul | pshl | pshr | pmod | psetc =>
    exact changesListed_execute (l := []) (changesListed_of_framePolys rfl (framePolys_setP _ _ _)) h
  | pldc | pdec | pcbd | puni | minner =>
    simp only [exec_pldc, exec_pdec, exec_pcbd, exec_puni, exec_minner] at h
    exact changesListed_execute (changesListed_of_framePolys rfl (framePolys_setP _ _ _)) h
  | madd | mshl | mshr | mmod | mtrn | mvmul | mdec =>
    exact changesListed_execute (changesListed_of_framePolys rfl (framePolys_setRun _ _ _)) h
  | genmat | gensec =>
    exact changesListed_withProfile
      (fun _ => changesListed_execute (changesListed_of_framePolys rfl (framePolys_setRun _ _ _))) h
  | estb => exact changesListed_execute (l := []) (changesListed_of_frameDmem rfl (frameDmem_memWrite _ _ _)) h
  | est | pstc | penc | menc =>
    simp only [exec_est, exec_pstc, exec_penc, exec_menc] at h
    exact changesListed_execute (changesListed_of_frameDmem rfl (frameDmem_memWrite _ _ _)) h
  | pkeKeygen | pkeEnc | pkeDec | kemKeygen | kemEncaps | kemDecaps => exact changesListed_bufferCommand rfl h
  | ctsel ed ef ex ey el =>
    refine changesListed_execute ?_ h
    split
    · exact changesListed_of_frameDmem rfl (frameDmem_memWrite _ _ _)
    · exact changesListed_of_frameDmem rfl (frameDmem_memWrite s 0 [])

/-! ## A command that reads no DMEM does not depend on it -/

/-- The states differ in DMEM only. -/
def SameButDmem (s s' : State) : Prop := ∃ m, s' = { s with dmem := m }

theorem SameButDmem.registers {s s' : State} (h : SameButDmem s s') :
    SameScalars s s' ∧ SamePolys s s' ∧ SameControl s s' := by
  obtain ⟨m, rfl⟩ := h
  exact ⟨fun _ => rfl, fun _ => rfl, ⟨rfl, rfl⟩, rfl, rfl, rfl⟩

theorem setRun_withDmem (s : State) (m : Memory) (b : Nat) (qs : List Poly) :
    ({ s with dmem := m } : State).setRun b qs = { s.setRun b qs with dmem := m } := by
  induction qs generalizing s b with
  | nil => rfl
  | cons q qs ih => exact ih (s.setP b q) (b + 1)

/-- The command answers states that differ in DMEM only, from states that differ in DMEM only. -/
def IgnoresDmem (i : Instr) (s : State) : Prop :=
  ∀ t, exec i s = .next t → ∀ m : Memory, ∃ t', exec i { s with dmem := m } = .next t' ∧ SameButDmem t t'

section
variable {i : Instr} {s : State}

/-- Conditions and results that do not depend on DMEM make a command that does not. -/
theorem ignoresDmem_of_execute {l : List (Bool × Cause)} {u : State} {u' : Memory → State} (h : exec i s = execute i s l u)
    (h' : ∀ m, exec i { s with dmem := m } = execute i { s with dmem := m } l (u' m)) (hu : ∀ m, SameButDmem u (u' m)) :
    IgnoresDmem i s := by
  intro t ht m
  rw [h] at ht
  rw [h']
  rcases execute_cases i s u l with ⟨-, e⟩ | ⟨hs, hl, e⟩ | ⟨hs, c, hl, e⟩ <;> rw [e] at ht <;> cases ht
  · exact ⟨u' m, execute_ok hs hl, hu m⟩
  · exact ⟨_, execute_fault hs hl, m, rfl⟩

end

theorem exec_ignoresDmem {i : Instr} (hi : readsDmem i = false) (s : State) : IgnoresDmem i s := by
  cases i with
  | eld | eldb | pldc | pdec | pcbd | puni | mdec | genmat | gensec | pkeKeygen | pkeEnc | pkeDec | kemKeygen | kemEncaps
  | kemDecaps | cteq | ctsel => cases hi
  | rdcsr =>
    exact ignoresDmem_of_execute (exec_rdcsr_eq_execute _ _ _) (fun _ => exec_rdcsr_eq_execute _ _ _) fun m => ⟨m, rfl⟩
  | eli | eadd | esub | eneg | emul | eshl | eshr | ered | pgetc | pzero | pmov | padd | pacc | psub | pmul | pshl | pshr
  | pmod | psetc => exact ignoresDmem_of_execute (l := []) rfl (fun _ => rfl) fun m => ⟨m, rfl⟩
  | setprof | minner => exact ignoresDmem_of_execute rfl (fun _ => rfl) fun m => ⟨m, rfl⟩
  | estb => exact ignoresDmem_of_execute (l := []) rfl (fun _ => rfl) fun m => ⟨_, rfl⟩
  | est | penc | menc => exact ignoresDmem_of_execute rfl (fun _ => rfl) fun m => ⟨_, rfl⟩
  | pstc ps ea => exact ignoresDmem_of_execute (exec_pstc ps ea s) (fun m => exec_pstc ps ea _) fun m => ⟨_, rfl⟩
  | madd | mshl | mshr | mmod | mtrn | mvmul =>
    exact ignoresDmem_of_execute rfl (fun _ => rfl) fun m => ⟨m, setRun_withDmem s m _ _⟩

/-- Settles O17: the changes against the lists, then the commands that read no bytes on another content of DMEM. -/
theorem commandsTouchOnlyWhatTheSpecLists : Obligations.CommandsTouchOnlyWhatTheSpecLists := by
  unfold Obligations.CommandsTouchOnlyWhatTheSpecLists
  intro i s t h
  obtain ⟨hscalars, hpolys, hdmem, hparams, hhost⟩ := exec_changesListed h
  refine ⟨hscalars, hpolys, hdmem, hparams, hhost, fun hi m => ?_⟩
  obtain ⟨t', ht', hsame⟩ := exec_ignoresDmem hi s t h m
  exact ⟨t', ht', hsame.registers⟩

end Sys2Proof.Machine
end

section
/-! PROOFS. The host's moves on DMEM and the control registers, and the idle step (O9). None of these
asks whether a fault is recorded (R314). -/

namespace Sys2Proof.Machine

open Sys2Proof.Safety

section
variable {s : State} {rest : List HostMove} {a n : Nat} {b : Bytes}

/-! ## What a step answers to each move (R330) -/

theorem step_writeDmem_fits (hmoves : s.moves = .writeDmem a b :: rest) (hfits : a + b.length ≤ 65536) :
    step s = .next ((s.afterTaking rest).memWrite a b) :=
  (step_move hmoves).trans (if_pos hfits)

theorem step_writeDmem_pastEnd (hmoves : s.moves = .writeDmem a b :: rest) (hpast : 65536 < a + b.length) :
    step s = .refused .notAHostMove :=
  (step_move hmoves).trans (if_neg (not_le.mpr hpast))

theorem step_readDmem_fits (hmoves : s.moves = .readDmem a n :: rest) (hfits : a + n ≤ 65536) :
    step s = .next { s with moves := rest, reply := some (.bytes (s.memRead a n)) } :=
  (step_move hmoves).trans (if_pos hfits)

theorem step_readDmem_pastEnd (hmoves : s.moves = .readDmem a n :: rest) (hpast : 65536 < a + n) :
    step s = .refused .notAHostMove :=
  (step_move hmoves).trans (if_neg (not_le.mpr hpast))

theorem step_readCsr {n : Fin 10} (hmoves : s.moves = .readCsr n :: rest) :
    step s = .next { s with moves := rest, reply := some (.csr (s.csrPort n)) } := by
  have hport : (s.afterTaking rest).csrPort n = s.csrPort n := by fin_cases n <;> rfl
  rw [step_move hmoves, hostMove, hport, State.afterTaking]

end

/-- The port reads the register of the number: the ten numbers are all there are (R24). -/
theorem csr?_eq_csrPort (s : State) (n : Fin 10) : s.csr? n = some (s.csrPort n) := by
  obtain ⟨v, hv⟩ := csr?_some s (Nat.le_of_lt_succ n.isLt)
  rw [State.csrPort, hv, Option.getD_some]

/-- Settles O9: each clause is what a step answers to its move, with the rules of DMEM for the bytes and the frame. -/
theorem hostReachesDmemAndControlRegistersOnly : Obligations.HostReachesDmemAndControlRegistersOnly := by
  unfold Obligations.HostReachesDmemAndControlRegistersOnly
  refine ⟨fun s rest a b hmoves hfits => ?_, fun s rest a n hmoves hfits => ?_, fun s rest n hmoves => ?_,
    fun _ _ _ _ => step_readDmem_pastEnd, fun _ _ _ _ => step_writeDmem_pastEnd, fun _ => step_idle⟩
  · exact ⟨_, step_writeDmem_fits hmoves hfits, holdsBytes_memWrite _ a b, frameDmem_memWrite _ a b⟩
  · exact ⟨_, step_readDmem_fits hmoves hfits, State.length_memRead s a n, State.byteAt_memRead s a n⟩
  · exact ⟨_, step_readCsr hmoves, csr?_eq_csrPort s n⟩

end Sys2Proof.Machine
end

section
/-! PROOFS. The encoding. The fields of a format tile the word, so a word is the format's word of some operands exactly when
every field reads as its operand. From that one fact about each format: decode and encode are inverse (O2, O3), the match and
mask of a row are what the decoder asks (O4), illegal encodings fault (O5), six SETPROF words are accepted (O6); and the words
the spec prints (O1). -/

namespace Sys2Proof

open Sys2Proof.Machine Sys2Proof.Safety

/-! ## Words tiled by fields (R70, R87) -/

/-- A value in the bit range `[lo+width-1 : lo]`. -/
structure WordField where
  lo : Nat
  width : Nat
  value : Nat

/-- The number with each value in its place. -/
def fieldSum : List WordField → Nat
  | [] => 0
  | f :: fs => f.value * 2 ^ f.lo + fieldSum fs

/-- From bit `hi` down to bit 0 the fields follow one another with no gap, and each value fits its range. -/
def Tiles : Nat → List WordField → Prop
  | hi, [] => hi = 0
  | hi, f :: fs => hi = f.lo + f.width ∧ f.value < 2 ^ f.width ∧ Tiles f.lo fs

theorem fieldSum_lt {hi : Nat} {fs : List WordField} (h : Tiles hi fs) : fieldSum fs < 2 ^ hi := by
  induction fs generalizing hi with
  | nil => exact Nat.two_pow_pos hi
  | cons f fs ih =>
    obtain ⟨rfl, hvalue, hrest⟩ := h
    calc f.value * 2 ^ f.lo + fieldSum fs
        < f.value * 2 ^ f.lo + 2 ^ f.lo := Nat.add_lt_add_left (ih hrest) _
      _ = 2 ^ f.lo * (f.value + 1) := by rw [Nat.mul_succ, Nat.mul_comm]
      _ ≤ 2 ^ (f.lo + f.width) := Nat.pow_add .. ▸ Nat.mul_le_mul_left _ hvalue

theorem mul_add_eq_add_mul_iff {b c d q v : Nat} (hc : c < b) (hd : d < b) : v * b + c = d + b * q ↔ q = v ∧ c = d := by
  have hdiv : (d + b * q) / b = q := by rw [Nat.add_mul_div_left _ _ (by omega), Nat.div_eq_of_lt hd, Nat.zero_add]
  have hmod : (d + b * q) % b = d := by rw [Nat.add_mul_mod_self_left, Nat.mod_eq_of_lt hd]
  have h := Nat.div_mod_unique (a := d + b * q) (c := c) (d := v) (Nat.zero_lt_of_lt hc)
  rw [hdiv, hmod] at h
  rw [Nat.add_comm, Nat.mul_comm v, eq_comm (a := c), h, and_iff_left hc]

/-- The low `hi` bits of a number are the fields' sum exactly when every field reads as its value. -/
theorem fieldSum_eq_mod_iff (x : Nat) {hi : Nat} {fs : List WordField} (h : Tiles hi fs) :
    fieldSum fs = x % 2 ^ hi ↔ ∀ f ∈ fs, x / 2 ^ f.lo % 2 ^ f.width = f.value := by
  induction fs generalizing hi with
  | nil => obtain rfl := h; simp [fieldSum, Nat.mod_one]
  | cons f fs ih =>
    obtain ⟨rfl, -, hrest⟩ := h
    rw [List.forall_mem_cons, ← ih hrest, Nat.pow_add, Nat.mod_mul, fieldSum]
    exact mul_add_eq_add_mul_iff (fieldSum_lt hrest) (Nat.mod_lt _ (Nat.two_pow_pos _))

/-- A word made of fields that tile it is the word in which each of them reads as its value. -/
theorem eq_iff_of_tiles {e w : CmdWord} (fs : List WordField) (he : e = BitVec.ofNat 32 (fieldSum fs)) (h : Tiles 32 fs) :
    e = w ↔ ∀ f ∈ fs, bitsAt w f.lo f.width = f.value := by
  simp only [bitsAt]
  rw [he, ← fieldSum_eq_mod_iff _ h, ← BitVec.toNat_inj, BitVec.toNat_ofNat, Nat.mod_eq_of_lt (fieldSum_lt h),
    Nat.mod_eq_of_lt w.isLt]

/-! ## The rows of the opcode map (R88, R89) -/

/-- The word has the row's opcode byte and no reserved bit set (R89). -/
def OpRow.Matches (r : OpRow) (w : CmdWord) : Prop := opcodeOf w = r.op ∧ r.reservedClear w = true

/-- The word matches the row and its fields make the command `i`. -/
def OpRow.Reads (r : OpRow) (w : CmdWord) (i : Instr) : Prop := r.build w = i ∧ r.Matches w

theorem OpRow.reads_iff {r : OpRow} {w : CmdWord} {i : Instr} :
    r.Reads w i ↔ r.build w = i ∧ opcodeOf w = r.op ∧ bitsAt w r.reservedLo (r.reservedHi + 1 - r.reservedLo) = 0 := by
  rw [Reads, Matches, reservedClear, decide_eq_true_iff]

/-- The row of an opcode byte. -/
def opRow? (op : Nat) : Option OpRow := opcodeTable.find? fun r => decide (r.op = op)

theorem opcodes_nodup : (opcodeTable.map OpRow.op).Nodup := by decide +kernel

/-- No two rows have the same opcode byte. -/
theorem row_ext {r r' : OpRow} (hr : r ∈ opcodeTable) (hr' : r' ∈ opcodeTable) (h : r.op = r'.op) : r = r' :=
  List.inj_on_of_nodup_map opcodes_nodup hr hr' h

theorem opRow?_of_mem {r : OpRow} (hr : r ∈ opcodeTable) : opRow? r.op = some r := by
  obtain ⟨r', hfind⟩ := Option.isSome_iff_exists.mp
    (List.find?_isSome (p := fun x => decide (x.op = r.op)).mpr ⟨r, hr, decide_eq_true rfl⟩)
  have hop : r'.op = r.op := by simpa using List.find?_some hfind
  rw [opRow?, hfind, row_ext (List.mem_of_find?_eq_some hfind) hr hop]

/-- A word with a row's opcode byte is read by that row. -/
theorem decode_of_row {r : OpRow} {w : CmdWord} (hr : r ∈ opcodeTable) (hop : opcodeOf w = r.op) :
    decode w = if r.reservedClear w then .instr (r.build w) else .rejected .reservedBitSet := by
  have hfind := opRow?_of_mem hr
  rw [opRow?, ← hop] at hfind
  rw [decode, hfind]

theorem decode_of_reads {r : OpRow} {w : CmdWord} {i : Instr} (h : r.Reads w i) (hr : opRow? r.op = some r) :
    decode w = .instr i := by
  obtain ⟨rfl, hop, hclear⟩ := h
  rw [decode_of_row (List.mem_of_find?_eq_some hr) hop, if_pos hclear]

/-- A word that decodes is read by a row. -/
theorem exists_row_of_decode {w : CmdWord} {i : Instr} (h : decode w = .instr i) : ∃ r ∈ opcodeTable, r.Reads w i := by
  unfold decode at h
  split at h
  next => cases h
  next r hfind =>
    split at h
    next hclear =>
      cases h
      have hop : r.op = opcodeOf w := by simpa using List.find?_some hfind
      exact ⟨r, List.mem_of_find?_eq_some hfind, rfl, hop.symm, hclear⟩
    next => cases h

/-! ## The formats (R72 to R86)

For each format, when a word is the word of given operands, and from it what a row of the format reads. -/

theorem fld1_eq_iff {w : CmdWord} {lo : Nat} {x : Fin 2} : fld1 w lo = x ↔ bitsAt w lo 1 = x.val := by
  simp [fld1, Fin.ext_iff, bitsAt]

theorem fld3_eq_iff {w : CmdWord} {lo : Nat} {x : Fin 8} : fld3 w lo = x ↔ bitsAt w lo 3 = x.val := by
  simp [fld3, Fin.ext_iff, bitsAt]

theorem fld4_eq_iff {w : CmdWord} {lo : Nat} {x : Fin 16} : fld4 w lo = x ↔ bitsAt w lo 4 = x.val := by
  simp [fld4, Fin.ext_iff, bitsAt]

theorem fld5_eq_iff {w : CmdWord} {lo : Nat} {x : Fin 32} : fld5 w lo = x ↔ bitsAt w lo 5 = x.val := by
  simp [fld5, Fin.ext_iff, bitsAt]

theorem fld8_eq_iff {w : CmdWord} {lo : Nat} {x : Fin 256} : fld8 w lo = x ↔ bitsAt w lo 8 = x.val := by
  simp [fld8, Fin.ext_iff, bitsAt]

theorem fldImm_eq_iff {w : CmdWord} {lo : Nat} {x : Word} : fldImm w lo = x ↔ bitsAt w lo 16 = x.toNat := by
  simp [fldImm, ← BitVec.toNat_inj, bitsAt]

section
variable {op : Nat} {w : CmdWord} {i : Instr}

theorem encSP_eq_iff (h : op < 256) {L : Fin 8} {eq ep : Fin 16} {et : Fin 8} {mu : Fin 16} {u : Fin 2} :
    encSP op L eq ep et mu u = w ↔ opcodeOf w = op ∧ fld3 w 21 = L ∧ fld4 w 17 = eq ∧ fld4 w 13 = ep ∧
      fld3 w 10 = et ∧ fld4 w 6 = mu ∧ fld1 w 5 = u ∧ bitsAt w 0 5 = 0 := by
  rw [eq_iff_of_tiles [⟨24, 8, op⟩, ⟨21, 3, L⟩, ⟨17, 4, eq⟩, ⟨13, 4, ep⟩, ⟨10, 3, et⟩, ⟨6, 4, mu⟩, ⟨5, 1, u⟩, ⟨0, 5, 0⟩]
    (by simp [encSP, fieldSum, Nat.add_assoc]) (by simp [Tiles]; omega)]
  simp [opcodeOf, fld1_eq_iff, fld3_eq_iff, fld4_eq_iff]

theorem reads_fmtSP (h : op < 256) {mk} :
    (fmtSP op mk).Reads w i ↔ ∃ L eq ep et mu u, mk L eq ep et mu u = i ∧ encSP op L eq ep et mu u = w := by
  simp [OpRow.reads_iff, fmtSP, encSP_eq_iff h, -Fin.exists_fin_two]

theorem encSI_eq_iff (h : op < 256) {ed : Fin 16} {imm16 : Word} :
    encSI op ed imm16 = w ↔ opcodeOf w = op ∧ fld4 w 20 = ed ∧ bitsAt w 16 4 = 0 ∧ fldImm w 0 = imm16 := by
  rw [eq_iff_of_tiles [⟨24, 8, op⟩, ⟨20, 4, ed⟩, ⟨16, 4, 0⟩, ⟨0, 16, imm16.toNat⟩]
    (by simp [encSI, fieldSum, Nat.add_assoc]) (by simp [Tiles]; omega)]
  simp [opcodeOf, fld4_eq_iff, fldImm_eq_iff]

theorem reads_fmtSI (h : op < 256) {mk} :
    (fmtSI op mk).Reads w i ↔ ∃ ed imm16, mk ed imm16 = i ∧ encSI op ed imm16 = w := by
  simp [OpRow.reads_iff, fmtSI, encSI_eq_iff h]

theorem encS3_eq_iff (h : op < 256) {ed ea eb : Fin 16} :
    encS3 op ed ea eb = w ↔ opcodeOf w = op ∧ fld4 w 20 = ed ∧ fld4 w 16 = ea ∧
      fld4 w 12 = eb ∧ bitsAt w 0 12 = 0 := by
  rw [eq_iff_of_tiles [⟨24, 8, op⟩, ⟨20, 4, ed⟩, ⟨16, 4, ea⟩, ⟨12, 4, eb⟩, ⟨0, 12, 0⟩]
    (by simp [encS3, fieldSum, Nat.add_assoc]) (by simpa [Tiles] using h)]
  simp [opcodeOf, fld4_eq_iff]

theorem reads_fmtS3 (h : op < 256) {mk} :
    (fmtS3 op mk).Reads w i ↔ ∃ ed ea eb, mk ed ea eb = i ∧ encS3 op ed ea eb = w := by
  simp [OpRow.reads_iff, fmtS3, encS3_eq_iff h]

theorem encS2_eq_iff (h : op < 256) {ed ea : Fin 16} :
    encS2 op ed ea = w ↔ opcodeOf w = op ∧ fld4 w 20 = ed ∧ fld4 w 16 = ea ∧ bitsAt w 0 16 = 0 := by
  rw [eq_iff_of_tiles [⟨24, 8, op⟩, ⟨20, 4, ed⟩, ⟨16, 4, ea⟩, ⟨0, 16, 0⟩]
    (by simp [encS2, fieldSum, Nat.add_assoc]) (by simpa [Tiles] using h)]
  simp [opcodeOf, fld4_eq_iff]

theorem reads_fmtS2 (h : op < 256) {mk} :
    (fmtS2 op mk).Reads w i ↔ ∃ ed ea, mk ed ea = i ∧ encS2 op ed ea = w := by
  simp [OpRow.reads_iff, fmtS2, encS2_eq_iff h]

theorem encPXGet_eq_iff (h : op < 256) {ed : Fin 16} {pa : Fin 32} {idx : Fin 256} :
    encPXGet op ed pa idx = w ↔ opcodeOf w = op ∧ fld4 w 20 = ed ∧ fld5 w 15 = pa ∧
      bitsAt w 8 7 = 0 ∧ fld8 w 0 = idx := by
  rw [eq_iff_of_tiles [⟨24, 8, op⟩, ⟨20, 4, ed⟩, ⟨15, 5, pa⟩, ⟨8, 7, 0⟩, ⟨0, 8, idx⟩]
    (by simp [encPXGet, fieldSum, Nat.add_assoc]) (by simpa [Tiles] using h)]
  simp [opcodeOf, fld4_eq_iff, fld5_eq_iff, fld8_eq_iff]

theorem reads_fmtPXGet (h : op < 256) {mk} :
    (fmtPXGet op mk).Reads w i ↔ ∃ ed pa idx, mk ed pa idx = i ∧ encPXGet op ed pa idx = w := by
  simp [OpRow.reads_iff, fmtPXGet, encPXGet_eq_iff h]

theorem encP3_eq_iff (h : op < 256) {pd pa pb : Fin 32} :
    encP3 op pd pa pb = w ↔ opcodeOf w = op ∧ fld5 w 19 = pd ∧ fld5 w 14 = pa ∧ fld5 w 9 = pb ∧ bitsAt w 0 9 = 0 := by
  rw [eq_iff_of_tiles [⟨24, 8, op⟩, ⟨19, 5, pd⟩, ⟨14, 5, pa⟩, ⟨9, 5, pb⟩, ⟨0, 9, 0⟩]
    (by simp [encP3, fieldSum, Nat.add_assoc]) (by simpa [Tiles] using h)]
  simp [opcodeOf, fld5_eq_iff]

theorem reads_fmtP3 (h : op < 256) {mk} :
    (fmtP3 op mk).Reads w i ↔ ∃ pd pa pb, mk pd pa pb = i ∧ encP3 op pd pa pb = w := by
  simp [OpRow.reads_iff, fmtP3, encP3_eq_iff h]

theorem encP1_eq_iff (h : op < 256) {pd : Fin 32} :
    encP1 op pd = w ↔ opcodeOf w = op ∧ fld5 w 19 = pd ∧ bitsAt w 0 19 = 0 := by
  rw [eq_iff_of_tiles [⟨24, 8, op⟩, ⟨19, 5, pd⟩, ⟨0, 19, 0⟩]
    (by simp [encP1, fieldSum]) (by simpa [Tiles] using h)]
  simp [opcodeOf, fld5_eq_iff]

theorem reads_fmtP1 (h : op < 256) {mk} :
    (fmtP1 op mk).Reads w i ↔ ∃ pd, mk pd = i ∧ encP1 op pd = w := by
  simp [OpRow.reads_iff, fmtP1, encP1_eq_iff h]

theorem encP2_eq_iff (h : op < 256) {pd pa : Fin 32} :
    encP2 op pd pa = w ↔ opcodeOf w = op ∧ fld5 w 19 = pd ∧ fld5 w 14 = pa ∧ bitsAt w 0 14 = 0 := by
  rw [eq_iff_of_tiles [⟨24, 8, op⟩, ⟨19, 5, pd⟩, ⟨14, 5, pa⟩, ⟨0, 14, 0⟩]
    (by simp [encP2, fieldSum, Nat.add_assoc]) (by simpa [Tiles] using h)]
  simp [opcodeOf, fld5_eq_iff]

theorem reads_fmtP2 (h : op < 256) {mk} :
    (fmtP2 op mk).Reads w i ↔ ∃ pd pa, mk pd pa = i ∧ encP2 op pd pa = w := by
  simp [OpRow.reads_iff, fmtP2, encP2_eq_iff h]

theorem encP2Imm_eq_iff (h : op < 256) {pd pa : Fin 32} {imm : Fin 16} :
    encP2Imm op pd pa imm = w ↔ opcodeOf w = op ∧ fld5 w 19 = pd ∧ fld5 w 14 = pa ∧
      fld4 w 10 = imm ∧ bitsAt w 0 10 = 0 := by
  rw [eq_iff_of_tiles [⟨24, 8, op⟩, ⟨19, 5, pd⟩, ⟨14, 5, pa⟩, ⟨10, 4, imm⟩, ⟨0, 10, 0⟩]
    (by simp [encP2Imm, fieldSum, Nat.add_assoc]) (by simpa [Tiles] using h)]
  simp [opcodeOf, fld4_eq_iff, fld5_eq_iff]

theorem reads_fmtP2Imm (h : op < 256) {mk} :
    (fmtP2Imm op mk).Reads w i ↔ ∃ pd pa imm, mk pd pa imm = i ∧ encP2Imm op pd pa imm = w := by
  simp [OpRow.reads_iff, fmtP2Imm, encP2Imm_eq_iff h]

theorem encPM_eq_iff (h : op < 256) {pd : Fin 32} {ea : Fin 16} :
    encPM op pd ea = w ↔ opcodeOf w = op ∧ fld5 w 19 = pd ∧ fld4 w 15 = ea ∧ bitsAt w 0 15 = 0 := by
  rw [eq_iff_of_tiles [⟨24, 8, op⟩, ⟨19, 5, pd⟩, ⟨15, 4, ea⟩, ⟨0, 15, 0⟩]
    (by simp [encPM, fieldSum, Nat.add_assoc]) (by simpa [Tiles] using h)]
  simp [opcodeOf, fld4_eq_iff, fld5_eq_iff]

theorem reads_fmtPM (h : op < 256) {mk} :
    (fmtPM op mk).Reads w i ↔ ∃ pd ea, mk pd ea = i ∧ encPM op pd ea = w := by
  simp [OpRow.reads_iff, fmtPM, encPM_eq_iff h]

theorem encPMW_eq_iff (h : op < 256) {pd : Fin 32} {ea width : Fin 16} :
    encPMW op pd ea width = w ↔ opcodeOf w = op ∧ fld5 w 19 = pd ∧ fld4 w 15 = ea ∧
      fld4 w 11 = width ∧ bitsAt w 0 11 = 0 := by
  rw [eq_iff_of_tiles [⟨24, 8, op⟩, ⟨19, 5, pd⟩, ⟨15, 4, ea⟩, ⟨11, 4, width⟩, ⟨0, 11, 0⟩]
    (by simp [encPMW, fieldSum, Nat.add_assoc]) (by simpa [Tiles] using h)]
  simp [opcodeOf, fld4_eq_iff, fld5_eq_iff]

theorem reads_fmtPMW (h : op < 256) {mk} :
    (fmtPMW op mk).Reads w i ↔ ∃ pd ea width, mk pd ea width = i ∧ encPMW op pd ea width = w := by
  simp [OpRow.reads_iff, fmtPMW, encPMW_eq_iff h]

theorem encM3_eq_iff (h : op < 256) {pd pa pb : Fin 32} {r c : Fin 8} :
    encM3 op pd pa pb r c = w ↔ opcodeOf w = op ∧ fld5 w 19 = pd ∧ fld5 w 14 = pa ∧ fld5 w 9 = pb ∧
      fld3 w 6 = r ∧ fld3 w 3 = c ∧ bitsAt w 0 3 = 0 := by
  rw [eq_iff_of_tiles [⟨24, 8, op⟩, ⟨19, 5, pd⟩, ⟨14, 5, pa⟩, ⟨9, 5, pb⟩, ⟨6, 3, r⟩, ⟨3, 3, c⟩, ⟨0, 3, 0⟩]
    (by simp [encM3, fieldSum, Nat.add_assoc]) (by simpa [Tiles] using h)]
  simp [opcodeOf, fld3_eq_iff, fld5_eq_iff]

theorem reads_fmtM3 (h : op < 256) {mk} :
    (fmtM3 op mk).Reads w i ↔ ∃ pd pa pb r c, mk pd pa pb r c = i ∧ encM3 op pd pa pb r c = w := by
  simp [OpRow.reads_iff, fmtM3, encM3_eq_iff h]

theorem encM2_eq_iff (h : op < 256) {pd pa : Fin 32} {r c : Fin 8} :
    encM2 op pd pa r c = w ↔ opcodeOf w = op ∧ fld5 w 19 = pd ∧ fld5 w 14 = pa ∧
      fld3 w 11 = r ∧ fld3 w 8 = c ∧ bitsAt w 0 8 = 0 := by
  rw [eq_iff_of_tiles [⟨24, 8, op⟩, ⟨19, 5, pd⟩, ⟨14, 5, pa⟩, ⟨11, 3, r⟩, ⟨8, 3, c⟩, ⟨0, 8, 0⟩]
    (by simp [encM2, fieldSum, Nat.add_assoc]) (by simpa [Tiles] using h)]
  simp [opcodeOf, fld3_eq_iff, fld5_eq_iff]

theorem reads_fmtM2 (h : op < 256) {mk} :
    (fmtM2 op mk).Reads w i ↔ ∃ pd pa r c, mk pd pa r c = i ∧ encM2 op pd pa r c = w := by
  simp [OpRow.reads_iff, fmtM2, encM2_eq_iff h]

theorem encM2Imm_eq_iff (h : op < 256) {pd pa : Fin 32} {r c : Fin 8} {imm : Fin 16} :
    encM2Imm op pd pa r c imm = w ↔ opcodeOf w = op ∧ fld5 w 19 = pd ∧ fld5 w 14 = pa ∧ fld3 w 11 = r ∧
      fld3 w 8 = c ∧ fld4 w 4 = imm ∧ bitsAt w 0 4 = 0 := by
  rw [eq_iff_of_tiles [⟨24, 8, op⟩, ⟨19, 5, pd⟩, ⟨14, 5, pa⟩, ⟨11, 3, r⟩, ⟨8, 3, c⟩, ⟨4, 4, imm⟩, ⟨0, 4, 0⟩]
    (by simp [encM2Imm, fieldSum, Nat.add_assoc]) (by simpa [Tiles] using h)]
  simp [opcodeOf, fld3_eq_iff, fld4_eq_iff, fld5_eq_iff]

theorem reads_fmtM2Imm (h : op < 256) {mk} :
    (fmtM2Imm op mk).Reads w i ↔ ∃ pd pa r c imm, mk pd pa r c imm = i ∧ encM2Imm op pd pa r c imm = w := by
  simp [OpRow.reads_iff, fmtM2Imm, encM2Imm_eq_iff h]

theorem encMMW_eq_iff (h : op < 256) {pd : Fin 32} {ea width : Fin 16} {r c : Fin 8} :
    encMMW op pd ea width r c = w ↔ opcodeOf w = op ∧ fld5 w 19 = pd ∧ fld4 w 15 = ea ∧ fld4 w 11 = width ∧
      fld3 w 8 = r ∧ fld3 w 5 = c ∧ bitsAt w 0 5 = 0 := by
  rw [eq_iff_of_tiles [⟨24, 8, op⟩, ⟨19, 5, pd⟩, ⟨15, 4, ea⟩, ⟨11, 4, width⟩, ⟨8, 3, r⟩, ⟨5, 3, c⟩, ⟨0, 5, 0⟩]
    (by simp [encMMW, fieldSum, Nat.add_assoc]) (by simpa [Tiles] using h)]
  simp [opcodeOf, fld3_eq_iff, fld4_eq_iff, fld5_eq_iff]

theorem reads_fmtMMW (h : op < 256) {mk} :
    (fmtMMW op mk).Reads w i ↔ ∃ pd ea width r c, mk pd ea width r c = i ∧ encMMW op pd ea width r c = w := by
  simp [OpRow.reads_iff, fmtMMW, encMMW_eq_iff h]

theorem encCQ_eq_iff (h : op < 256) {ed ea eb el : Fin 16} :
    encCQ op ed ea eb el = w ↔ opcodeOf w = op ∧ fld4 w 20 = ed ∧ fld4 w 16 = ea ∧
      fld4 w 12 = eb ∧ fld4 w 8 = el ∧ bitsAt w 0 8 = 0 := by
  rw [eq_iff_of_tiles [⟨24, 8, op⟩, ⟨20, 4, ed⟩, ⟨16, 4, ea⟩, ⟨12, 4, eb⟩, ⟨8, 4, el⟩, ⟨0, 8, 0⟩]
    (by simp [encCQ, fieldSum, Nat.add_assoc]) (by simpa [Tiles] using h)]
  simp [opcodeOf, fld4_eq_iff]

theorem reads_fmtCQ (h : op < 256) {mk} :
    (fmtCQ op mk).Reads w i ↔ ∃ ed ea eb el, mk ed ea eb el = i ∧ encCQ op ed ea eb el = w := by
  simp [OpRow.reads_iff, fmtCQ, encCQ_eq_iff h]

theorem encCS_eq_iff (h : op < 256) {ed ef ex ey el : Fin 16} :
    encCS op ed ef ex ey el = w ↔ opcodeOf w = op ∧ fld4 w 20 = ed ∧ fld4 w 16 = ef ∧ fld4 w 12 = ex ∧
      fld4 w 8 = ey ∧ fld4 w 4 = el ∧ bitsAt w 0 4 = 0 := by
  rw [eq_iff_of_tiles [⟨24, 8, op⟩, ⟨20, 4, ed⟩, ⟨16, 4, ef⟩, ⟨12, 4, ex⟩, ⟨8, 4, ey⟩, ⟨4, 4, el⟩, ⟨0, 4, 0⟩]
    (by simp [encCS, fieldSum, Nat.add_assoc]) (by simpa [Tiles] using h)]
  simp [opcodeOf, fld4_eq_iff]

theorem reads_fmtCS (h : op < 256) {mk} :
    (fmtCS op mk).Reads w i ↔ ∃ ed ef ex ey el, mk ed ef ex ey el = i ∧ encCS op ed ef ex ey el = w := by
  simp [OpRow.reads_iff, fmtCS, encCS_eq_iff h]

/-! Formats that lay their fields out as another does: CR and KK as S2, S2 with imm4 as S3, MM as PM, PSETC's PX as
PGETC's. -/

theorem reads_fmtCR (h : op < 256) {mk} :
    (fmtCR op mk).Reads w i ↔ ∃ ed csr, mk ed csr = i ∧ encCR op ed csr = w := reads_fmtS2 h

theorem reads_fmtKK (h : op < 256) {mk} :
    (fmtKK op mk).Reads w i ↔ ∃ ed es, mk ed es = i ∧ encKK op ed es = w := reads_fmtS2 h

theorem reads_fmtS2Imm (h : op < 256) {mk} :
    (fmtS2Imm op mk).Reads w i ↔ ∃ ed ea imm, mk ed ea imm = i ∧ encS2Imm op ed ea imm = w := reads_fmtS3 h

theorem reads_fmtMM (h : op < 256) {mk} :
    (fmtMM op mk).Reads w i ↔ ∃ pd ea, mk pd ea = i ∧ encMM op pd ea = w := reads_fmtPM h

/-- PSETC's fields are PGETC's; the constructor takes them in another order. -/
theorem reads_fmtPXSet (h : op < 256) {mk : Fin 32 → Fin 256 → Fin 16 → Instr} :
    (fmtPXSet op mk).Reads w i ↔ ∃ es pd idx, mk pd idx es = i ∧ encPXSet op pd idx es = w :=
  reads_fmtPXGet (mk := fun es pd idx => mk pd idx es) h

end

/-! ## Round trips (O2, O3) -/

/-- Settles O2: each command's word is read by the row of its opcode as that command. -/
theorem decodeOfEncodeIsTheCommand : Obligations.DecodeOfEncodeIsTheCommand := by
  unfold Obligations.DecodeOfEncodeIsTheCommand
  intro i
  cases i with
  | setprof => exact decode_of_reads ((reads_fmtSP (by decide)).mpr ⟨_, _, _, _, _, _, rfl, rfl⟩) rfl
  | rdcsr => exact decode_of_reads ((reads_fmtCR (by decide)).mpr ⟨_, _, rfl, rfl⟩) rfl
  | eli => exact decode_of_reads ((reads_fmtSI (by decide)).mpr ⟨_, _, rfl, rfl⟩) rfl
  | eadd | esub | emul => exact decode_of_reads ((reads_fmtS3 (by decide)).mpr ⟨_, _, _, rfl, rfl⟩) rfl
  | eneg | eld | est | eldb | estb => exact decode_of_reads ((reads_fmtS2 (by decide)).mpr ⟨_, _, rfl, rfl⟩) rfl
  | eshl | eshr | ered => exact decode_of_reads ((reads_fmtS2Imm (by decide)).mpr ⟨_, _, _, rfl, rfl⟩) rfl
  | pgetc => exact decode_of_reads ((reads_fmtPXGet (by decide)).mpr ⟨_, _, _, rfl, rfl⟩) rfl
  | psetc => exact decode_of_reads ((reads_fmtPXSet (by decide)).mpr ⟨_, _, _, rfl, rfl⟩) rfl
  | padd | psub | pmul => exact decode_of_reads ((reads_fmtP3 (by decide)).mpr ⟨_, _, _, rfl, rfl⟩) rfl
  | pzero => exact decode_of_reads ((reads_fmtP1 (by decide)).mpr ⟨_, rfl, rfl⟩) rfl
  | pmov | pacc => exact decode_of_reads ((reads_fmtP2 (by decide)).mpr ⟨_, _, rfl, rfl⟩) rfl
  | pshl | pshr | pmod => exact decode_of_reads ((reads_fmtP2Imm (by decide)).mpr ⟨_, _, _, rfl, rfl⟩) rfl
  | pldc | pstc | puni => exact decode_of_reads ((reads_fmtPM (by decide)).mpr ⟨_, _, rfl, rfl⟩) rfl
  | penc | pdec | pcbd => exact decode_of_reads ((reads_fmtPMW (by decide)).mpr ⟨_, _, _, rfl, rfl⟩) rfl
  | madd | mvmul | minner => exact decode_of_reads ((reads_fmtM3 (by decide)).mpr ⟨_, _, _, _, _, rfl, rfl⟩) rfl
  | mtrn => exact decode_of_reads ((reads_fmtM2 (by decide)).mpr ⟨_, _, _, _, rfl, rfl⟩) rfl
  | mshl | mshr | mmod => exact decode_of_reads ((reads_fmtM2Imm (by decide)).mpr ⟨_, _, _, _, _, rfl, rfl⟩) rfl
  | genmat | gensec => exact decode_of_reads ((reads_fmtMM (by decide)).mpr ⟨_, _, rfl, rfl⟩) rfl
  | menc | mdec => exact decode_of_reads ((reads_fmtMMW (by decide)).mpr ⟨_, _, _, _, _, rfl, rfl⟩) rfl
  | pkeKeygen | pkeEnc | pkeDec | kemKeygen | kemEncaps | kemDecaps =>
    exact decode_of_reads ((reads_fmtKK (by decide)).mpr ⟨_, _, rfl, rfl⟩) rfl
  | cteq => exact decode_of_reads ((reads_fmtCQ (by decide)).mpr ⟨_, _, _, _, rfl, rfl⟩) rfl
  | ctsel => exact decode_of_reads ((reads_fmtCS (by decide)).mpr ⟨_, _, _, _, _, rfl, rfl⟩) rfl

/-- The word a row reads is the word of the command it reads: with what each format reads put in, the claim is for each row
that `encode` takes the row's command to the row's format. -/
theorem encode_of_reads {w : CmdWord} {i : Instr} : ∀ r ∈ opcodeTable, r.Reads w i → encode i = w := by
  simp only [opcodeTable, opRows0, opRows1, opRows2, opRows3, opRows4, opRows5, opRows6, opRows7, opRows8,
    List.forall_mem_append, List.forall_mem_cons, List.not_mem_nil, false_imp_iff, implies_true, and_true, Nat.reduceLT,
    forall_exists_index, and_imp, reads_fmtSP, reads_fmtCR, reads_fmtSI, reads_fmtS3, reads_fmtS2, reads_fmtS2Imm,
    reads_fmtPXGet, reads_fmtPXSet, reads_fmtP3, reads_fmtP1, reads_fmtP2, reads_fmtP2Imm, reads_fmtPM, reads_fmtPMW,
    reads_fmtM3, reads_fmtM2, reads_fmtM2Imm, reads_fmtMM, reads_fmtMMW, reads_fmtKK, reads_fmtCQ, reads_fmtCS]
  and_intros <;> (intros; subst_vars; rfl)

/-- Settles O3: the row that reads the word gives it back. -/
theorem encodeOfDecodeIsTheWord : Obligations.EncodeOfDecodeIsTheWord := by
  unfold Obligations.EncodeOfDecodeIsTheWord
  intro w i h
  obtain ⟨r, hr, hreads⟩ := exists_row_of_decode h
  exact encode_of_reads r hr hreads

/-! ## Match and mask (O4) -/

/-- The match of a row: its opcode byte in place (R89). -/
def OpRow.matchWord (r : OpRow) : CmdWord := BitVec.ofNat 32 (r.op <<< 24)

/-- The mask of a row: the opcode byte and the reserved bits (R89). -/
def OpRow.mask (r : OpRow) : CmdWord :=
  BitVec.ofNat 32 ((2 ^ 8 - 1) <<< 24 ||| (2 ^ (r.reservedHi + 1 - r.reservedLo) - 1) <<< r.reservedLo)

/-- The rows of spec/opcode_table.json are the match and mask of the decoder's rows. -/
theorem matchRows_eq : matchRows = opcodeTable.map fun r => (r.matchWord, r.mask) := by decide +kernel

/-- Each row's opcode byte is neither 0x00 nor 0xFF (R90), and its reserved bits are a range below the opcode byte. -/
theorem opRow_ranges : ∀ r ∈ opcodeTable, 0x00 < r.op ∧ r.op < 0xFF ∧ r.reservedLo ≤ r.reservedHi ∧ r.reservedHi < 24 := by
  decide +kernel

theorem mem_matchRows {row : CmdWord × CmdWord} : row ∈ matchRows ↔ ∃ r ∈ opcodeTable, (r.matchWord, r.mask) = row := by
  rw [matchRows_eq, List.mem_map]

/-- A mask of `n` bits from bit `lo` keeps that slice in place. -/
theorem and_mask_shiftLeft (w : CmdWord) (lo n : Nat) : w.toNat &&& (2 ^ n - 1) <<< lo = bitsAt w lo n <<< lo := by
  refine Nat.eq_of_testBit_eq fun i => ?_
  simp only [bitsAt, Nat.testBit_and, Nat.testBit_shiftLeft, Nat.testBit_two_pow_sub_one, Nat.testBit_mod_two_pow,
    Nat.testBit_div_two_pow]
  by_cases h : lo ≤ i
  · rw [Nat.sub_add_cancel h, Bool.and_comm, Bool.and_assoc]
  · simp [h]

theorem matchWord_toNat {r : OpRow} (hr : r ∈ opcodeTable) : r.matchWord.toNat = r.op * 2 ^ 24 := by
  obtain ⟨-, hop, -⟩ := opRow_ranges r hr
  rw [OpRow.matchWord, BitVec.toNat_ofNat, Nat.shiftLeft_eq]
  omega

theorem opcodeOf_eq (w : CmdWord) : opcodeOf w = w.toNat / 2 ^ 24 := Nat.mod_eq_of_lt (by omega)

theorem reserved_lt {r : OpRow} (hr : r ∈ opcodeTable) (w : CmdWord) :
    bitsAt w r.reservedLo (r.reservedHi + 1 - r.reservedLo) * 2 ^ r.reservedLo < 2 ^ 24 := by
  obtain ⟨-, -, hlo, hhi⟩ := opRow_ranges r hr
  calc bitsAt w r.reservedLo (r.reservedHi + 1 - r.reservedLo) * 2 ^ r.reservedLo
      < 2 ^ (r.reservedHi + 1 - r.reservedLo) * 2 ^ r.reservedLo :=
        Nat.mul_lt_mul_of_pos_right (Nat.mod_lt _ (Nat.two_pow_pos _)) (Nat.two_pow_pos _)
    _ = 2 ^ (r.reservedHi + 1) := by rw [← Nat.pow_add, Nat.sub_add_cancel (by omega)]
    _ ≤ 2 ^ 24 := Nat.pow_le_pow_right (by decide) hhi

/-- What the mask leaves of a word is its opcode byte and its reserved bits, each in place. -/
theorem and_mask_toNat {r : OpRow} (hr : r ∈ opcodeTable) (w : CmdWord) :
    (w &&& r.mask).toNat =
      opcodeOf w * 2 ^ 24 + bitsAt w r.reservedLo (r.reservedHi + 1 - r.reservedLo) * 2 ^ r.reservedLo := by
  have hop : opcodeOf w < 2 ^ 8 := Nat.mod_lt _ (by decide)
  have hres := reserved_lt hr w
  rw [OpRow.mask, BitVec.toNat_and, BitVec.toNat_ofNat, ← Nat.mod_eq_of_lt w.isLt, ← Nat.and_mod_two_pow,
    Nat.and_or_distrib_left, and_mask_shiftLeft, and_mask_shiftLeft, Nat.shiftLeft_eq _ r.reservedLo,
    ← Nat.shiftLeft_add_eq_or_of_lt hres, Nat.shiftLeft_eq, ← opcodeOf, Nat.mod_eq_of_lt (by omega)]

theorem and_mask_eq_iff {r : OpRow} (hr : r ∈ opcodeTable) (w : CmdWord) : w &&& r.mask = r.matchWord ↔ r.Matches w := by
  have hres := reserved_lt hr w
  have hpos := Nat.two_pow_pos r.reservedLo
  rw [← BitVec.toNat_inj, and_mask_toNat hr, matchWord_toNat hr, OpRow.Matches, OpRow.reservedClear, decide_eq_true_iff]
  constructor
  · intro h
    have hzero : bitsAt w r.reservedLo (r.reservedHi + 1 - r.reservedLo) * 2 ^ r.reservedLo = 0 := by omega
    exact ⟨by omega, (Nat.mul_eq_zero.mp hzero).resolve_right hpos.ne'⟩
  · rintro ⟨hop, hclear⟩
    rw [hop, hclear, Nat.zero_mul, Nat.add_zero]

theorem matches_of_decode {w : CmdWord} {i : Instr} (h : decode w = .instr i) : ∃ r ∈ opcodeTable, r.Matches w := by
  obtain ⟨r, hr, -, hmatch⟩ := exists_row_of_decode h
  exact ⟨r, hr, hmatch⟩

/-- A word decodes exactly when it matches a row, and that row is the one of its opcode byte. -/
theorem matches_iff_decode {r : OpRow} (hr : r ∈ opcodeTable) (w : CmdWord) :
    r.Matches w ↔ ∃ i, decode w = .instr i ∧ opcodeOf w = r.op := by
  constructor
  · rintro ⟨hop, hclear⟩
    exact ⟨r.build w, (decode_of_row hr hop).trans (if_pos hclear), hop⟩
  · rintro ⟨i, hi, hop⟩
    obtain ⟨r', hr', hmatch⟩ := matches_of_decode hi
    exact row_ext hr hr' (hop.symm.trans hmatch.1) ▸ hmatch

/-- A word that is no command raises ILLEGAL (R89, R90). -/
theorem issue_illegal {w : CmdWord} {s : State} (hs : Running s) (hw : ∀ r ∈ opcodeTable, ¬r.Matches w) :
    ∃ t, issue w s = .next t ∧ FaultRecorded s t 1 w := by
  cases hdecode : decode w with
  | instr i =>
    obtain ⟨r, hr, hmatch⟩ := matches_of_decode hdecode
    exact absurd hmatch (hw r hr)
  | rejected _ =>
    exact ⟨_, (issue_rejected s hdecode).trans (trap_running _ _ hs), faultRecorded_recordFault s w .illegal⟩

theorem matchWord_opcode {r : OpRow} (hr : r ∈ opcodeTable) : r.matchWord.toNat / 2 ^ 24 = r.op := by
  rw [matchWord_toNat hr, Nat.mul_div_cancel _ (by decide)]

/-- Settles O4: a row of the table is the match and mask of a row of the decoder, and masks to its match exactly the words
that match that row. -/
theorem decodeAgreesWithMatchAndMask : Obligations.DecodeAgreesWithMatchAndMask := by
  unfold Obligations.DecodeAgreesWithMatchAndMask
  simp only [mem_matchRows]
  refine ⟨?_, ?_, fun w s hs hw => issue_illegal hs fun r hr hmatch => ?_⟩
  · rintro w _ ⟨r, hr, rfl⟩
    rw [and_mask_eq_iff hr, matches_iff_decode hr, matchWord_opcode hr, opcodeOf_eq]
    exact exists_congr fun i => and_congr_right fun hi => (and_iff_right (encodeOfDecodeIsTheWord w i hi)).symm
  · rintro w _ ⟨r, hr, rfl⟩ _ ⟨r', hr', rfl⟩ h h'
    obtain ⟨hop, -⟩ := (and_mask_eq_iff hr w).mp h
    obtain ⟨hop', -⟩ := (and_mask_eq_iff hr' w).mp h'
    rw [row_ext hr hr' (hop.symm.trans hop')]
  · exact hw _ ⟨r, hr, rfl⟩ ((and_mask_eq_iff hr w).mpr hmatch)

/-! ## Illegal encodings (O5) -/

/-- In a list in the order of the codes, a condition that fails gives a fault of its code or a lower one (R312). -/
theorem firstFault_le {l : List (Bool × Cause)} (hsorted : l.Pairwise fun x y => x.2.code ≤ y.2.code) {x : Bool × Cause}
    (hx : x ∈ l) (hbad : x.1 = false) : ∃ c, firstFault l = some c ∧ c.code ≤ x.2.code := by
  induction l with
  | nil => cases hx
  | cons y l ih =>
    obtain ⟨hle, htail⟩ := List.pairwise_cons.mp hsorted
    obtain ⟨ok, c⟩ := y
    cases ok with
    | false =>
      rcases List.mem_cons.mp hx with rfl | hx
      · exact ⟨c, rfl, le_rfl⟩
      · exact ⟨c, rfl, hle x hx⟩
    | true =>
      rcases List.mem_cons.mp hx with rfl | hx
      · cases hbad
      · exact ih htail hx

/-- A command that is not well-formed takes a fault of code 1 to 5, when its conditions of these codes make it well-formed. -/
theorem faults_of_operands {i : Instr} {s t : State} {l : List (Bool × Cause)} (hs : Running s) (hi : WellFormed i = false)
    (hexec : exec i s = execute i s l t) (hsorted : l.Pairwise fun x y => x.2.code ≤ y.2.code)
    (hok : (∀ x ∈ l, x.2.code ≤ 5 → x.1 = true) → WellFormed i = true) : ∃ code, 1 ≤ code ∧ code ≤ 5 ∧ Faults i s code := by
  have hbad : ¬∀ x ∈ l, x.2.code ≤ 5 → x.1 = true := fun hall => by simp [hok hall] at hi
  push Not at hbad
  obtain ⟨x, hx, hcode, hfalse⟩ := hbad
  obtain ⟨c, hfault, hle⟩ := firstFault_le hsorted hx (Bool.eq_false_of_not_eq_true hfalse)
  exact ⟨c.code, c.code_range.1, hle.trans hcode, faults_of_exec (hexec.trans (execute_fault hs hfault))⟩

theorem runFits_square {b r c : Nat} (h : squareOk r c = true) : runFits b (r * c) = runFits b (r * r) := by
  obtain ⟨-, rfl⟩ : shapeOk r c = true ∧ r = c := by simpa [squareOk] using h
  rfl

theorem faults_of_not_wellFormed {i : Instr} {s : State} (hs : Running s) (hi : WellFormed i = false) :
    ∃ code, 1 ≤ code ∧ code ≤ 5 ∧ Faults i s code := by
  cases i with
  | eli | eadd | esub | eneg | emul | eshl | eshr | ered | eld | est | eldb | estb | pzero | pmov | padd | pacc | psub | pmul
  | pshl | pshr | pmod | pldc | pstc | pgetc | psetc | genmat | gensec | puni | pkeKeygen | pkeEnc | pkeDec | kemKeygen
  | kemEncaps | kemDecaps | cteq | ctsel => cases hi
  | setprof => exact faults_of_operands hs hi (exec_setprof ..) (by simp) (by simp [WellFormed, Cause.code])
  | rdcsr => exact faults_of_operands hs hi (exec_rdcsr_eq_execute ..) (by simp) (by simp [WellFormed, Cause.code])
  | penc => exact faults_of_operands hs hi (exec_penc ..) (by simp [Cause.code]) (by simp [WellFormed, Cause.code])
  | pdec => exact faults_of_operands hs hi (exec_pdec ..) (by simp [Cause.code]) (by simp [WellFormed, Cause.code])
  | pcbd => exact faults_of_operands hs hi (exec_pcbd ..) (by simp [Cause.code]) (by simp [WellFormed, Cause.code])
  | madd => exact faults_of_operands hs hi (exec_madd ..) (by simp [Cause.code]) (by simp [WellFormed, Cause.code])
  | mshl => exact faults_of_operands hs hi (exec_mshl ..) (by simp [Cause.code]) (by simp [WellFormed, Cause.code])
  | mshr => exact faults_of_operands hs hi (exec_mshr ..) (by simp [Cause.code]) (by simp [WellFormed, Cause.code])
  | mmod => exact faults_of_operands hs hi (exec_mmod ..) (by simp [Cause.code]) (by simp [WellFormed, Cause.code])
  | mtrn =>
    exact faults_of_operands hs hi (exec_mtrn ..) (by simp [Cause.code])
      (by simp +contextual [WellFormed, Cause.code, runFits_square])
  | mvmul =>
    exact faults_of_operands hs hi (exec_mvmul ..) (by simp [Cause.code]) (by simp +contextual [WellFormed, Cause.code])
  | minner => exact faults_of_operands hs hi (exec_minner ..) (by simp [Cause.code]) (by simp [WellFormed, Cause.code])
  | menc => exact faults_of_operands hs hi (exec_menc ..) (by simp [Cause.code]) (by simp [WellFormed, Cause.code])
  | mdec => exact faults_of_operands hs hi (exec_mdec ..) (by simp [Cause.code]) (by simp [WellFormed, Cause.code])

theorem matchRows_opcodes : matchRows.map (fun row => row.1.toNat / 2 ^ 24) = opcodeTable.map OpRow.op := by
  rw [matchRows_eq, List.map_map]
  exact List.map_congr_left fun r hr => matchWord_opcode hr

theorem length_unassigned_opcodes :
    ((List.range 256).filter fun op => (opcodeTable.map OpRow.op).all fun x => decide (x ≠ op)).length = 206 := by
  decide +kernel

/-- Settles O5: words that match no row of the decoder are ILLEGAL, and the operand values are checked when a command runs. -/
theorem illegalEncodingsFault : Obligations.IllegalEncodingsFault := by
  unfold Obligations.IllegalEncodingsFault
  refine ⟨?_, ?_, fun w s hs hop => issue_illegal hs fun r hr hmatch => ?_,
    fun w s hs row hrow hop hmask => issue_illegal hs fun r hr hmatch => ?_, fun i s hs hi => faults_of_not_wellFormed hs hi⟩
  · have h := length_unassigned_opcodes
    rw [← matchRows_opcodes] at h
    simpa only [List.all_map, Function.comp_def] using h
  · intro op hop row hrow
    obtain ⟨r, hr, rfl⟩ := mem_matchRows.mp hrow
    obtain ⟨hpos, hlt, -⟩ := opRow_ranges r hr
    rw [matchWord_opcode hr]
    rcases List.mem_pair.mp hop with rfl | rfl
    · exact hpos.ne'
    · exact hlt.ne
  · apply hop _ (mem_matchRows.mpr ⟨r, hr, rfl⟩)
    rw [matchWord_opcode hr, ← opcodeOf_eq, hmatch.1]
  · obtain ⟨r', hr', rfl⟩ := mem_matchRows.mp hrow
    rw [matchWord_opcode hr', ← opcodeOf_eq] at hop
    obtain rfl := row_ext hr' hr (hop.trans hmatch.1)
    exact hmask ((and_mask_eq_iff hr' w).mpr hmatch)

/-! ## SETPROF and NOP (O6) -/

/-- The SETPROF command of a profile (R93). -/
def setprofOf : Profile → Instr
  | .lightSaber => .setprof 2 13 10 3 10 0
  | .saber => .setprof 3 13 10 4 8 0
  | .fireSaber => .setprof 4 13 10 6 6 0
  | .uLightSaber => .setprof 2 12 10 3 2 1
  | .uSaber => .setprof 3 12 10 4 2 1
  | .uFireSaber => .setprof 4 12 10 6 2 1

theorem setprofWords_eq : [0x015B4E80#32, 0x017B5200#32, 0x019B5980#32, 0x01594CA0#32, 0x017950A0#32, 0x019958A0#32] =
    Profile.all.map fun pr => encode (setprofOf pr) := by decide +kernel

theorem exists_setprofOf (pr : Profile) : ∃ L eq ep et mu u, setprofOf pr = .setprof L eq ep et mu u := by
  cases pr <;> exact ⟨_, _, _, _, _, _, rfl⟩

/-- The operands of a SETPROF command are a profile's tuple only in that profile's command: no operand is dropped. -/
theorem setprofTuple_eq_iff {L : Fin 8} {eq ep : Fin 16} {et : Fin 8} {mu : Fin 16} {u : Fin 2} {pr : Profile} :
    pr.tuple = setprofTuple L eq ep et mu u ↔ setprofOf pr = .setprof L eq ep et mu u := by
  cases pr <;> simp [setprofTuple, Profile.tuple, setprofOf, Fin.ext_iff] <;> omega

/-- A command in the shared shape ends without a fault exactly when all its conditions hold. -/
theorem execute_running_iff {i : Instr} {s u : State} {l : List (Bool × Cause)} (hs : Running s) (hu : Running u) :
    (∃ t, execute i s l u = .next t ∧ Running t) ↔ firstFault l = none := by
  cases hl : firstFault l with
  | none => exact iff_of_true ⟨u, execute_ok hs hl, hu⟩ rfl
  | some c => simp [execute_fault hs hl]

theorem setprof_running_iff {L : Fin 8} {eq ep : Fin 16} {et : Fin 8} {mu : Fin 16} {u : Fin 2} {s : State} (hs : Running s) :
    (∃ t, exec (.setprof L eq ep et mu u) s = .next t ∧ Running t) ↔ ∃ pr, setprofOf pr = .setprof L eq ep et mu u := by
  rw [exec_setprof]
  refine (execute_running_iff hs ?_).trans ?_
  · exact hs
  rw [firstFault_none]
  simp only [List.mem_singleton, forall_eq, tupleOk_iff, setprofTuple_eq_iff]

/-- A word with opcode byte 0x01 that decodes is the word of a SETPROF command. -/
theorem decode_opcode_one {w : CmdWord} {i : Instr} (hw : decode w = .instr i) (hop : opcodeOf w = 0x01) :
    ∃ L eq ep et mu u, .setprof L eq ep et mu u = i := by
  obtain ⟨r, hr, hreads⟩ := exists_row_of_decode hw
  obtain rfl : r = fmtSP 0x01 .setprof := row_ext hr List.mem_cons_self (hreads.2.1.symm.trans hop)
  obtain ⟨L, eq, ep, et, mu, u, hi, -⟩ := (reads_fmtSP (by decide)).mp hreads
  exact ⟨L, eq, ep, et, mu, u, hi⟩

theorem setE_getE (s : State) (i : SReg) : s.setE i (s.getE i) = s := by
  simp [State.setE, State.getE]

theorem ringShl_zero (a : Word) : ringShl a 0 = a := BitVec.shiftLeft_zero a

theorem exec_nop {s : State} (hs : Running s) (r : SReg) : exec (.eshl r r 0) s = .next s := by
  rw [exec_eshl, execute_ok hs rfl]
  exact congrArg _ ((congrArg _ (ringShl_zero _)).trans (setE_getE s r))

/-- Settles O6: a word that ends without a fault decodes to a SETPROF command whose tuple is a profile's. -/
theorem onlySixSetprofWordsAreAccepted : Obligations.OnlySixSetprofWordsAreAccepted := by
  unfold Obligations.OnlySixSetprofWordsAreAccepted
  refine ⟨fun w s hs hop => ?_, fun s hs => ?_⟩
  · rw [← opcodeOf_eq] at hop
    rw [setprofWords_eq, List.mem_map]
    constructor
    · rintro ⟨t, ht, hrun⟩
      cases hw : decode w with
      | rejected _ =>
        rw [issue_rejected s hw, trap_running _ _ hs] at ht
        cases ht
        cases hrun.symm.trans (State.faulted_recordFault s w .illegal)
      | instr i =>
        obtain ⟨L, eq, ep, et, mu, u, rfl⟩ := decode_opcode_one hw hop
        obtain ⟨pr, hpr⟩ := (setprof_running_iff hs).mp ⟨t, (issue_instr s hw).symm.trans ht, hrun⟩
        exact ⟨pr, mem_profileAll pr, hpr ▸ encodeOfDecodeIsTheWord w _ hw⟩
    · rintro ⟨pr, -, rfl⟩
      obtain ⟨L, eq, ep, et, mu, u, hpr⟩ := exists_setprofOf pr
      rw [issue_instr s (decodeOfEncodeIsTheCommand _), hpr]
      exact (setprof_running_iff hs).mpr ⟨pr, hpr⟩
  · exact (issue_instr s (decodeOfEncodeIsTheCommand (.eshl 0 0 0))).trans (exec_nop hs 0)

/-- Settles O1: each word is evaluated. -/
theorem wordsOfTheSpecDecode : Obligations.WordsOfTheSpecDecode := by
  unfold Obligations.WordsOfTheSpecDecode
  decide +kernel

end Sys2Proof
end

section
/-! PROOFS. The RingElement commands (O18 to O21): the words of their formats, the value of each scalar operation as an
integer, and one lemma a shape of command from its equation to the form the statements are in. -/

namespace Sys2Proof.Machine

open Sys2Proof.Safety

/-! ## The word of each format as a number (R74, R75, R76) -/

theorem encSI_toNat {op : Nat} (h : op < 256) (ed : Fin 16) (imm16 : Word) :
    (encSI op ed imm16).toNat = op * 2 ^ 24 + ed * 2 ^ 20 + imm16.toNat := by
  rw [encSI, BitVec.toNat_ofNat]
  omega

theorem encS3_toNat {op : Nat} (h : op < 256) (ed ea eb : Fin 16) :
    (encS3 op ed ea eb).toNat = op * 2 ^ 24 + ed * 2 ^ 20 + ea * 2 ^ 16 + eb * 2 ^ 12 := by
  rw [encS3, BitVec.toNat_ofNat]
  omega

theorem encS2_toNat {op : Nat} (h : op < 256) (ed ea : Fin 16) :
    (encS2 op ed ea).toNat = op * 2 ^ 24 + ed * 2 ^ 20 + ea * 2 ^ 16 := by
  rw [encS2, BitVec.toNat_ofNat]
  omega

theorem encS2Imm_toNat {op : Nat} (h : op < 256) (ed ea imm : Fin 16) :
    (encS2Imm op ed ea imm).toNat = op * 2 ^ 24 + ed * 2 ^ 20 + ea * 2 ^ 16 + imm * 2 ^ 12 := by
  rw [encS2Imm, BitVec.toNat_ofNat]
  omega

/-! ## The scalar operations as integer arithmetic (R100 to R108) -/

theorem intCast_ringAdd (a b : Word) : ((ringAdd a b).toNat : Int) = ((a.toNat : Int) + b.toNat) % 65536 :=
  mod_cast toNat_ringAdd a b

theorem intCast_ringSub (a b : Word) : ((ringSub a b).toNat : Int) = ((a.toNat : Int) - b.toNat) % 65536 := by
  have hb := b.isLt
  rw [toNat_ringSub]
  omega

theorem intCast_ringNeg (a : Word) : ((ringNeg a).toNat : Int) = (0 - (a.toNat : Int)) % 65536 :=
  intCast_ringSub 0#16 a

theorem intCast_ringMul (a b : Word) : ((ringMul a b).toNat : Int) = (a.toNat : Int) * b.toNat % 65536 :=
  mod_cast toNat_ringMul a b

theorem intCast_ringShl (a : Word) (sh : Nat) : ((ringShl a sh).toNat : Int) = (a.toNat : Int) * 2 ^ sh % 65536 :=
  mod_cast toNat_ringShl a sh

theorem intCast_ringShr (a : Word) (sh : Nat) : ((ringShr a sh).toNat : Int) = (a.toNat : Int) / 2 ^ sh :=
  mod_cast toNat_ringShr a sh

theorem intCast_ringRed (a : Word) {k : Nat} (h : k ≤ 16) : ((ringRed a k).toNat : Int) = (a.toNat : Int) % 2 ^ k :=
  mod_cast toNat_ringRed a k h

/-! ## From a command's equation to the form of a statement -/

theorem writesScalar_of_execute {i : Instr} {s : State} {l : List (Bool × Cause)} {d : SReg} {v : Word} {x : Int}
    (hs : Running s) (h : exec i s = execute i s l (s.setE d v)) (hl : firstFault l = none) (hv : (v.toNat : Int) = x) :
    WritesScalar i s d x :=
  writesScalar_of_exec (h.trans (execute_ok hs hl)) hv

theorem stores_of_execute {i : Instr} {s : State} {l : List (Bool × Cause)} {a : Nat} {b : Bytes}
    (hs : Running s) (h : exec i s = execute i s l (s.memWrite a b)) (hl : firstFault l = none) : Stores i s a b :=
  stores_of_exec (h.trans (execute_ok hs hl))

theorem faults_of_execute {i : Instr} {s t : State} {l : List (Bool × Cause)} {c : Cause}
    (hs : Running s) (h : exec i s = execute i s l t) (hl : firstFault l = some c) : Faults i s c.code :=
  faults_of_exec (h.trans (execute_fault hs hl))

/-- A command whose one condition is the range of its access (R53). -/
theorem firstFault_rangeOk (a n : Nat) :
    firstFault [(rangeOk a n, .memRange)] = if a + n ≤ 65536 then none else some .memRange := by
  simp only [firstFault_cons, firstFault_nil, rangeOk_iff]

/-! ## Arithmetic commands -/

/-- Settles O18: none of the four lists a condition, and each writes the value of its operation. -/
theorem scalarAddSubtractNegateMultiply : Obligations.ScalarAddSubtractNegateMultiply := by
  unfold Obligations.ScalarAddSubtractNegateMultiply
  intro ed ea eb s hs
  exact ⟨writesScalar_of_execute hs (exec_eadd ed ea eb s) rfl (intCast_ringAdd _ _),
    writesScalar_of_execute hs (exec_esub ed ea eb s) rfl (intCast_ringSub _ _),
    writesScalar_of_execute hs (exec_eneg ed ea s) rfl (intCast_ringNeg _),
    writesScalar_of_execute hs (exec_emul ed ea eb s) rfl (intCast_ringMul _ _),
    encS3_toNat (by decide) ed ea eb, encS3_toNat (by decide) ed ea eb, encS2_toNat (by decide) ed ea,
    encS3_toNat (by decide) ed ea eb⟩

/-- Settles O19: as O18; every reduce width a field holds is below 16. -/
theorem scalarShiftReduceImmediate : Obligations.ScalarShiftReduceImmediate := by
  unfold Obligations.ScalarShiftReduceImmediate
  intro ed ea n imm s hs
  exact ⟨writesScalar_of_execute hs (exec_eshl ed ea n s) rfl (intCast_ringShl _ _),
    writesScalar_of_execute hs (exec_eshr ed ea n s) rfl (intCast_ringShr _ _),
    writesScalar_of_execute hs (exec_ered ed ea n s) rfl (intCast_ringRed _ n.isLt.le),
    writesScalar_of_execute hs (exec_eli ed imm s) rfl rfl,
    encS2Imm_toNat (by decide) ed ea n, encS2Imm_toNat (by decide) ed ea n, encS2Imm_toNat (by decide) ed ea n,
    encSI_toNat (by decide) ed imm⟩

/-! ## Loads and stores (R51, R111 to R114) -/

/-- The 16-bit value at an address has the byte at the address as its low byte. -/
theorem toNat_wordOfBytes_memRead (s : State) (a : Nat) :
    (wordOfBytes (byteAt (s.memRead a 2) 0) (byteAt (s.memRead a 2) 1)).toNat =
      (s.readByte a).toNat + 256 * (s.readByte (a + 1)).toNat := by
  rw [toNat_wordOfBytes, State.byteAt_memRead s a 2 0 (by decide), State.byteAt_memRead s a 2 1 (by decide), Nat.add_zero]

theorem toNat_byte_memRead (s : State) (a : Nat) :
    ((byteAt (s.memRead a 1) 0).setWidth 16).toNat = (s.readByte a).toNat := by
  rw [State.byteAt_memRead s a 1 0 (by decide), Nat.add_zero, BitVec.toNat_setWidth_of_le (by decide)]

theorem lowByte_eq (v : Word) : lowByte v = BitVec.ofNat 8 (v.toNat % 256) :=
  BitVec.eq_of_toNat_eq (by simp [toNat_lowByte])

theorem highByte_eq (v : Word) : highByte v = BitVec.ofNat 8 (v.toNat / 256) := by
  rw [← toNat_highByte, BitVec.ofNat_toNat, BitVec.setWidth_eq]

theorem bytesOfWord_eq (v : Word) : bytesOfWord v = [BitVec.ofNat 8 (v.toNat % 256), BitVec.ofNat 8 (v.toNat / 256)] := by
  rw [bytesOfWord, lowByte_eq, highByte_eq]

/-- A two-byte access leaves DMEM from address 0xFFFF only. -/
theorem firstFault_twoBytes (s : State) (ea : SReg) : firstFault [(rangeOk (s.addr ea) 2, .memRange)] =
    if (s.getE ea).toNat = 0xFFFF then some .memRange else none := by
  have hlt : (s.getE ea).toNat < 65536 := (s.getE ea).isLt
  have hiff : s.addr ea + 2 ≤ 65536 ↔ ¬(s.getE ea).toNat = 0xFFFF := by
    rw [State.addr]
    omega
  simp only [firstFault_rangeOk, hiff, ite_not]

/-- Settles O20: the range is ELD's one condition, and ELDB has none. -/
theorem scalarLoads : Obligations.ScalarLoads := by
  unfold Obligations.ScalarLoads
  intro ed ea s hs a
  refine ⟨fun ha => ?_, fun ha => ?_, ?_, encS2_toNat (by decide) ed ea, encS2_toNat (by decide) ed ea⟩
  · exact faults_of_execute hs (exec_eld ed ea s) ((firstFault_twoBytes s ea).trans (if_pos ha))
  · exact writesScalar_of_execute hs (exec_eld ed ea s) ((firstFault_twoBytes s ea).trans (if_neg ha))
      (mod_cast toNat_wordOfBytes_memRead s a)
  · exact writesScalar_of_execute hs (exec_eldb ed ea s) rfl (congrArg _ (toNat_byte_memRead s a))

/-- Settles O21: the range is EST's one condition, and the bytes stored are the low byte and the high byte. -/
theorem scalarStores : Obligations.ScalarStores := by
  unfold Obligations.ScalarStores
  intro es ea s hs a v
  refine ⟨fun ha => ?_, fun ha => ?_, ?_, encS2_toNat (by decide) es ea, encS2_toNat (by decide) es ea⟩
  · exact faults_of_execute hs (exec_est es ea s) ((firstFault_twoBytes s ea).trans (if_pos ha))
  · rw [← bytesOfWord_eq]
    exact stores_of_execute hs (exec_est es ea s) ((firstFault_twoBytes s ea).trans (if_neg ha))
  · rw [← lowByte_eq]
    exact stores_of_execute hs (exec_estb es ea s) rfl

end Sys2Proof.Machine
end

section
/-! PROOFS. The product of polynomials (O26): its coefficients are the negacyclic sum of R160 modulo 2^16, and the laws of
R160 and R101 are laws of that sum over the integers. -/

namespace Sys2Proof.Machine

open Sys2Proof.Safety

/-! ## Coefficients as integers -/

theorem val_emod (q : Poly) (j : Nat) : val q j % 65536 = val q j :=
  Int.emod_eq_of_lt (Int.natCast_nonneg _) (Int.ofNat_lt.mpr (coeff q j).isLt)

theorem poly_ext_val {a b : Poly} (h : ∀ j, j < 256 → val a j = val b j) : a = b :=
  poly_ext fun j hj => BitVec.eq_of_toNat_eq (Int.ofNat_inj.mp (h j hj))

theorem val_monomial (n : Nat) {j : Nat} (hj : j < 256) : val (monomial n) j = if j = n then 1 else 0 := by
  rw [val, monomial, coeff_tabulate _ _ hj]
  split <;> rfl

/-! ## Sums of words -/

theorem toNat_listSum_modEq (l : List Word) : (l.sum.toNat : Int) ≡ (l.map fun w => (w.toNat : Int)).sum [ZMOD 65536] := by
  induction l with
  | nil => rfl
  | cons w l ih =>
    rw [List.sum_cons, List.map_cons, List.sum_cons]
    calc ((w + l.sum).toNat : Int)
        = ((w.toNat : Int) + l.sum.toNat) % 65536 := intCast_ringAdd w l.sum
      _ ≡ w.toNat + l.sum.toNat [ZMOD 65536] := Int.mod_modEq _ _
      _ ≡ w.toNat + (l.map fun w => (w.toNat : Int)).sum [ZMOD 65536] := ih.add_left _

/-- A sum of words over `range n` agrees modulo 2^16 with a sum of integers that do so term by term. -/
theorem toNat_rangeSum_modEq {n : Nat} {f : Nat → Word} {g : Nat → Int}
    (h : ∀ i, i < n → ((f i).toNat : Int) ≡ g i [ZMOD 65536]) :
    ((((List.range n).map f).sum.toNat : Nat) : Int) ≡ ∑ i ∈ Finset.range n, g i [ZMOD 65536] := by
  refine (toNat_listSum_modEq _).trans ?_
  rw [List.map_map]
  exact Int.ModEq.sum fun i hi => h i (Finset.mem_range.mp hi)

theorem ringMul_modEq (a b : Word) : ((ringMul a b).toNat : Int) ≡ a.toNat * b.toNat [ZMOD 65536] := by
  rw [intCast_ringMul]
  exact Int.mod_modEq _ _

/-! ## The negacyclic sum (R160) -/

/-- For each `i` one `j` contributes: the one that reaches X^k, or the one that reaches X^(k+256) and wraps. -/
theorem negacyclic_eq_sum (a b : Nat → Int) {k : Nat} (hk : k < 256) :
    negacyclic a b k = ∑ i ∈ Finset.range 256, if i ≤ k then a i * b (k - i) else -(a i * b (k + 256 - i)) := by
  refine Finset.sum_congr rfl fun i hi => ?_
  rw [Finset.mem_range] at hi
  split
  · rw [Finset.sum_eq_single_of_mem (k - i) (Finset.mem_range.mpr (by omega)), if_pos (by omega)]
    intro j hj hne
    rw [Finset.mem_range] at hj
    rw [if_neg (by omega), if_neg (by omega)]
  · rw [Finset.sum_eq_single_of_mem (k + 256 - i) (Finset.mem_range.mpr (by omega)), if_neg (by omega), if_pos (by omega)]
    intro j hj hne
    rw [Finset.mem_range] at hj
    rw [if_neg (by omega), if_neg (by omega)]

theorem negacyclic_comm (a b : Nat → Int) (k : Nat) : negacyclic a b k = negacyclic b a k := by
  rw [negacyclic, Finset.sum_comm]
  refine Finset.sum_congr rfl fun j _ => Finset.sum_congr rfl fun i _ => ?_
  rw [Nat.add_comm, Int.mul_comm]

/-- Operands that agree modulo `m` have negacyclic sums that agree modulo `m` (R101). -/
theorem negacyclic_modEq {m : Int} {a a' b b' : Nat → Int} (ha : ∀ i, a i ≡ a' i [ZMOD m]) (hb : ∀ j, b j ≡ b' j [ZMOD m])
    (k : Nat) : negacyclic a b k ≡ negacyclic a' b' k [ZMOD m] := by
  refine Int.ModEq.sum fun i _ => Int.ModEq.sum fun j _ => ?_
  split
  · exact (ha i).mul (hb j)
  · split
    · exact ((ha i).mul (hb j)).neg
    · rfl

/-- Multiplying by `X^n` moves every coefficient up `n` places and negates those that wrap. -/
theorem negacyclic_monomial (a : Nat → Int) {n k : Nat} (hn : n < 256) (hk : k < 256) :
    negacyclic a (val (monomial n)) k = if n ≤ k then a (k - n) else -a (k + 256 - n) := by
  rw [negacyclic_comm, negacyclic_eq_sum _ _ hk, Finset.sum_eq_single_of_mem n (Finset.mem_range.mpr hn),
    val_monomial n hn, if_pos rfl, Int.one_mul, Int.one_mul]
  intro i hi hne
  rw [val_monomial n (Finset.mem_range.mp hi), if_neg hne, Int.zero_mul, Int.zero_mul, Int.neg_zero, ite_self]

/-! ## The product (R160) -/

theorem convLow_modEq (a b : Poly) (k : Nat) : ((convLow a b k).toNat : Int) ≡
    ∑ i ∈ Finset.range 256, if i ≤ k then val a i * val b (k - i) else 0 [ZMOD 65536] := by
  refine toNat_rangeSum_modEq fun i _ => ?_
  split
  · exact ringMul_modEq _ _
  · rfl

theorem convHigh_modEq (a b : Poly) (k : Nat) : ((convHigh a b k).toNat : Int) ≡
    ∑ i ∈ Finset.range 256, if k < i then val a i * val b (k + 256 - i) else 0 [ZMOD 65536] := by
  refine toNat_rangeSum_modEq fun i _ => ?_
  split
  · exact ringMul_modEq _ _
  · rfl

/-- `negacyclic` is the part that stays minus the part that wraps. -/
theorem negacyclic_eq_sub (a b : Nat → Int) {k : Nat} (hk : k < 256) : negacyclic a b k =
    (∑ i ∈ Finset.range 256, if i ≤ k then a i * b (k - i) else 0) -
      ∑ i ∈ Finset.range 256, if k < i then a i * b (k + 256 - i) else 0 := by
  rw [negacyclic_eq_sum _ _ hk, ← Finset.sum_sub_distrib]
  refine Finset.sum_congr rfl fun i _ => ?_
  by_cases h : i ≤ k
  · rw [if_pos h, if_pos h, if_neg (by omega), sub_zero]
  · rw [if_neg h, if_neg h, if_pos (by omega), zero_sub]

/-- Each coefficient of the product is the negacyclic sum of the operands' coefficients, modulo 2^16. -/
theorem val_polyMul (a b : Poly) {k : Nat} (hk : k < 256) :
    val (polyMul a b) k = negacyclic (val a) (val b) k % 65536 := by
  rw [val, coeff_polyMul _ _ _ hk, negacyclic_eq_sub _ _ hk]
  exact (intCast_ringSub _ _).trans ((convLow_modEq a b k).sub (convHigh_modEq a b k))

theorem val_polyMul_monomial (a : Poly) {n k : Nat} (hn : n < 256) (hk : k < 256) :
    val (polyMul a (monomial n)) k = if n ≤ k then val a (k - n) else -val a (k + 256 - n) % 65536 := by
  rw [val_polyMul _ _ hk, negacyclic_monomial _ hn hk]
  split
  · exact val_emod _ _
  · rfl

theorem polyMul_comm (a b : Poly) : polyMul a b = polyMul b a :=
  poly_ext_val fun k hk => by rw [val_polyMul _ _ hk, val_polyMul _ _ hk, negacyclic_comm]

theorem polyMul_one (a : Poly) : polyMul a (monomial 0) = a :=
  poly_ext_val fun k hk => by rw [val_polyMul_monomial a (by decide) hk, if_pos k.zero_le, Nat.sub_zero]

theorem val_polyMul_X (a : Poly) {k : Nat} (hk : k < 256) :
    val (polyMul a (monomial 1)) k = if k = 0 then (0 - val a 255) % 65536 else val a (k - 1) := by
  rw [val_polyMul_monomial a (by decide) hk]
  cases k with
  | zero => rw [if_neg (by decide), if_pos rfl, zero_sub]
  | succ k => rw [if_pos (by omega), if_neg (by omega)]

/-- `X^255·X = X^256 = -1`. -/
theorem val_polyMul_X255_X {k : Nat} (hk : k < 256) :
    val (polyMul (monomial 255) (monomial 1)) k = if k = 0 then 65535 else 0 := by
  rw [val_polyMul_X _ hk, val_monomial 255 (by decide), val_monomial 255 (by omega), if_neg (by omega : k - 1 ≠ 255)]
  rfl

theorem val_polyMul_mod (a b : Poly) {eps k : Nat} (heps : eps ≤ 16) (hk : k < 256) : val (polyMul a b) k % 2 ^ eps =
    negacyclic (fun i => val a i % 2 ^ eps) (fun j => val b j % 2 ^ eps) k % 2 ^ eps := by
  have hdvd : (2 ^ eps : Int) ∣ 65536 := pow_dvd_pow 2 heps
  rw [val_polyMul _ _ hk, Int.emod_emod_of_dvd _ hdvd]
  exact negacyclic_modEq (fun _ => (Int.mod_modEq _ _).symm) (fun _ => (Int.mod_modEq _ _).symm) k

/-- Settles O26: each law is the law of the negacyclic sum, read through `val_polyMul`. -/
theorem polyMultiplyRingLaws : Obligations.PolyMultiplyRingLaws :=
  ⟨polyMul_comm, polyMul_one, fun a _ => val_polyMul_X a, fun _ => val_polyMul_X255_X,
    fun a b _ _ => val_polyMul_mod a b⟩

end Sys2Proof.Machine
end

section
/-! PROOFS. The Polynomial commands (O22 to O24): the words of their formats, the value of each lane-wise operation as an
integer, and the raw coefficient array in bytes. -/

namespace Sys2Proof.Machine

open Sys2Proof.Safety

/-! ## The word of each format as a number (R77 to R80) -/

theorem encPXGet_toNat {op : Nat} (h : op < 256) (ed : Fin 16) (pa : Fin 32) (idx : Fin 256) :
    (encPXGet op ed pa idx).toNat = op * 2 ^ 24 + ed * 2 ^ 20 + pa * 2 ^ 15 + idx := by
  rw [encPXGet, BitVec.toNat_ofNat]
  omega

theorem encPXSet_toNat {op : Nat} (h : op < 256) (pd : Fin 32) (idx : Fin 256) (es : Fin 16) :
    (encPXSet op pd idx es).toNat = op * 2 ^ 24 + es * 2 ^ 20 + pd * 2 ^ 15 + idx :=
  encPXGet_toNat h es pd idx

theorem encP3_toNat {op : Nat} (h : op < 256) (pd pa pb : Fin 32) :
    (encP3 op pd pa pb).toNat = op * 2 ^ 24 + pd * 2 ^ 19 + pa * 2 ^ 14 + pb * 2 ^ 9 := by
  rw [encP3, BitVec.toNat_ofNat]
  omega

theorem encP2Imm_toNat {op : Nat} (h : op < 256) (pd pa : Fin 32) (imm : Fin 16) :
    (encP2Imm op pd pa imm).toNat = op * 2 ^ 24 + pd * 2 ^ 19 + pa * 2 ^ 14 + imm * 2 ^ 10 := by
  rw [encP2Imm, BitVec.toNat_ofNat]
  omega

theorem encP2_toNat {op : Nat} (h : op < 256) (pd pa : Fin 32) :
    (encP2 op pd pa).toNat = op * 2 ^ 24 + pd * 2 ^ 19 + pa * 2 ^ 14 := by
  rw [encP2, BitVec.toNat_ofNat]
  omega

theorem encP1_toNat {op : Nat} (h : op < 256) (pd : Fin 32) : (encP1 op pd).toNat = op * 2 ^ 24 + pd * 2 ^ 19 := by
  rw [encP1, BitVec.toNat_ofNat]
  omega

theorem encPM_toNat {op : Nat} (h : op < 256) (pd : Fin 32) (ea : Fin 16) :
    (encPM op pd ea).toNat = op * 2 ^ 24 + pd * 2 ^ 19 + ea * 2 ^ 15 := by
  rw [encPM, BitVec.toNat_ofNat]
  omega

/-! ## The lanes of each operation as integers (R143) -/

theorem val_polyZero (j : Nat) : val polyZero j = 0 := by
  rw [val, coeff_polyZero]
  rfl

theorem val_polyAdd (a b : Poly) {j : Nat} (hj : j < 256) : val (polyAdd a b) j = (val a j + val b j) % 65536 := by
  rw [val, coeff_polyAdd _ _ _ hj]
  exact intCast_ringAdd _ _

theorem val_polySub (a b : Poly) {j : Nat} (hj : j < 256) : val (polySub a b) j = (val a j - val b j) % 65536 := by
  rw [val, coeff_polySub _ _ _ hj]
  exact intCast_ringSub _ _

theorem val_polyShl (a : Poly) (sh : Nat) {j : Nat} (hj : j < 256) :
    val (polyShl a sh) j = val a j * 2 ^ sh % 65536 := by
  rw [val, coeff_polyShl _ _ _ hj]
  exact intCast_ringShl _ _

theorem val_polyShr (a : Poly) (sh : Nat) {j : Nat} (hj : j < 256) : val (polyShr a sh) j = val a j / 2 ^ sh := by
  rw [val, coeff_polyShr _ _ _ hj]
  exact intCast_ringShr _ _

theorem val_polyMod (a : Poly) {k j : Nat} (hk : k ≤ 16) (hj : j < 256) : val (polyMod a k) j = val a j % 2 ^ k := by
  rw [val, coeff_polyMod _ _ _ hj]
  exact intCast_ringRed _ hk

theorem val_polySet (a : Poly) (idx : Nat) (v : Word) {j : Nat} (hj : j < 256) :
    val (polySet a idx v) j = if j = idx then (v.toNat : Int) else val a j := by
  rw [val, coeff_polySet _ _ _ _ hj]
  split <;> rfl

/-! ## Element-wise commands -/

theorem writesPoly_of_execute {i : Instr} {s : State} {l : List (Bool × Cause)} {d : PReg} {q : Poly} {f : Nat → Int}
    (hs : Running s) (h : exec i s = execute i s l (s.setP d q)) (hl : firstFault l = none)
    (hv : ∀ j, j < 256 → val q j = f j) : WritesPoly i s d f :=
  writesPoly_of_exec (h.trans (execute_ok hs hl)) hv

/-- Settles O22: none of the eight lists a condition, and lane `j` of what each writes is its operation on lane `j`. -/
theorem polyZeroMoveElementwise : Obligations.PolyZeroMoveElementwise := by
  unfold Obligations.PolyZeroMoveElementwise
  intro pd pa pb n s hs
  exact ⟨writesPoly_of_execute hs (exec_pzero pd s) rfl fun j _ => val_polyZero j,
    writesPoly_of_execute hs (exec_pmov pd pa s) rfl fun _ _ => rfl,
    writesPoly_of_execute hs (exec_padd pd pa pb s) rfl fun _ => val_polyAdd _ _,
    writesPoly_of_execute hs (exec_pacc pd pa s) rfl fun _ => val_polyAdd _ _,
    writesPoly_of_execute hs (exec_psub pd pa pb s) rfl fun _ => val_polySub _ _,
    writesPoly_of_execute hs (exec_pshl pd pa n s) rfl fun _ => val_polyShl _ _,
    writesPoly_of_execute hs (exec_pshr pd pa n s) rfl fun _ => val_polyShr _ _,
    writesPoly_of_execute hs (exec_pmod pd pa n s) rfl fun _ => val_polyMod _ n.isLt.le,
    encP1_toNat (by decide) pd, encP2_toNat (by decide) pd pa, encP3_toNat (by decide) pd pa pb,
    encP2_toNat (by decide) pd pa, encP3_toNat (by decide) pd pa pb, encP2Imm_toNat (by decide) pd pa n,
    encP2Imm_toNat (by decide) pd pa n, encP2Imm_toNat (by decide) pd pa n⟩

/-! ## The raw coefficient array (R139, R140) -/

/-- A coefficient is the little-endian value of its two bytes in DMEM. -/
theorem val_polyOfArray_memRead (s : State) (a : Nat) {j : Nat} (hj : j < 256) :
    val (polyOfArray (s.memRead a 512)) j = (s.readByte (a + 2 * j)).toNat + 256 * (s.readByte (a + (2 * j + 1))).toNat := by
  rw [val, polyOfArray, coeff_tabulate _ _ hj, toNat_wordOfBytes, State.byteAt_memRead _ _ _ _ (by omega),
    State.byteAt_memRead _ _ _ _ (by omega)]
  rfl

/-- The two bytes of a coefficient: its value modulo 256, then the rest. -/
theorem toNat_byteAt_arrayOfPoly (q : Poly) {j : Nat} (hj : j < 256) :
    ((byteAt (arrayOfPoly q) (2 * j)).toNat : Int) = val q j % 256 ∧
    ((byteAt (arrayOfPoly q) (2 * j + 1)).toNat : Int) = val q j / 256 := by
  obtain ⟨hlo, hhi⟩ := byteAt_arrayOfPoly q j hj
  rw [hlo, hhi, toNat_lowByte, toNat_highByte]
  exact ⟨rfl, rfl⟩

/-- Settles O23: the range is the one condition of both, and the array holds each coefficient in two bytes. -/
theorem polyCoefficientArray : Obligations.PolyCoefficientArray := by
  unfold Obligations.PolyCoefficientArray
  intro p ea s hs a
  refine ⟨fun ha => ?_, fun ha => ?_, encPM_toNat (by decide) p ea, encPM_toNat (by decide) p ea⟩
  · have hl := (firstFault_rangeOk a 512).trans (if_neg ha.not_ge)
    exact ⟨faults_of_execute hs (exec_pldc p ea s) hl, faults_of_execute hs (exec_pstc p ea s) hl⟩
  · have hl := (firstFault_rangeOk a 512).trans (if_pos ha)
    exact ⟨writesPoly_of_execute hs (exec_pldc p ea s) hl fun _ => val_polyOfArray_memRead s a,
      arrayOfPoly (s.getP p), length_arrayOfPoly _, stores_of_execute hs (exec_pstc p ea s) hl,
      fun _ => toNat_byteAt_arrayOfPoly _⟩

/-! ## One coefficient (R141, R142) -/

/-- Settles O24: neither lists a condition, and PSETC replaces the one lane. -/
theorem polyCoefficientAccess : Obligations.PolyCoefficientAccess := by
  unfold Obligations.PolyCoefficientAccess
  intro e p idx s hs
  exact ⟨writesScalar_of_execute hs (exec_pgetc e p idx s) rfl rfl,
    writesPoly_of_execute hs (exec_psetc p idx e s) rfl fun _ => val_polySet _ _ _,
    encPXGet_toNat (by decide) e p idx, encPXSet_toNat (by decide) p idx e⟩

end Sys2Proof.Machine
end

section
/-! PROOFS. PMUL (O25) is the product of O26 written to its register. The Karatsuba procedure (O27) is compared with the plain
product as polynomials over Z/2^16: an array is the polynomial of its entries, adding an array in at an offset multiplies it by a
power of X, and the recursion is the one identity of Karatsuba in that ring. -/

namespace Sys2Proof.Machine

open Sys2Proof.Safety

/-! ## PMUL (R160) -/

/-- Settles O25: PMUL lists no condition, and each coefficient of what it writes is the negacyclic sum. -/
theorem polyMultiplyIsTheNegacyclicSum : Obligations.PolyMultiplyIsTheNegacyclicSum := by
  unfold Obligations.PolyMultiplyIsTheNegacyclicSum
  intro pd pa pb s hs
  exact ⟨writesPoly_of_execute hs (exec_pmul pd pa pb s) rfl fun _ => val_polyMul _ _, encP3_toNat (by decide) pd pa pb⟩

/-! ## Words modulo 2^16 -/

/-- A word as a number modulo 2^16 (R101). -/
def residue (w : Word) : ZMod 65536 := w.toNat

/-- A word is an integer reduced modulo 2^16 exactly when both have one residue. -/
theorem intCast_toNat_eq_iff (w : Word) (x : Int) : (w.toNat : Int) = x % 65536 ↔ residue w = (x : ZMod 65536) := by
  have hw : (w.toNat : Int) % 65536 = w.toNat := Int.emod_eq_of_lt (Int.natCast_nonneg _) (Int.ofNat_lt.mpr w.isLt)
  rw [residue, ← Int.cast_natCast (R := ZMod 65536), ZMod.intCast_eq_intCast_iff', Nat.cast_ofNat, hw]

@[simp] theorem residue_zero : residue 0#16 = 0 := Nat.cast_zero

@[simp] theorem residue_ringAdd (a b : Word) : residue (ringAdd a b) = residue a + residue b := by
  rw [(intCast_toNat_eq_iff _ _).mp (intCast_ringAdd a b)]
  simp [residue]

@[simp] theorem residue_ringSub (a b : Word) : residue (ringSub a b) = residue a - residue b := by
  rw [(intCast_toNat_eq_iff _ _).mp (intCast_ringSub a b)]
  simp [residue]

@[simp] theorem residue_ringMul (a b : Word) : residue (ringMul a b) = residue a * residue b := by
  rw [(intCast_toNat_eq_iff _ _).mp (intCast_ringMul a b)]
  simp [residue]

/-! ## Arrays as polynomials over Z/2^16 -/

section Arrays

open Polynomial (C X)

/-- The polynomial whose coefficients are the entries of an array, modulo 2^16. -/
noncomputable def arrPoly : List Word → Polynomial (ZMod 65536)
  | [] => 0
  | w :: l => C (residue w) + X * arrPoly l

@[simp] theorem length_arrAdd (a b : List Word) : (arrAdd a b).length = min a.length b.length := List.length_zipWith
@[simp] theorem length_arrSub (a b : List Word) : (arrSub a b).length = min a.length b.length := List.length_zipWith
@[simp] theorem length_arrZero (n : Nat) : (arrZero n).length = n := List.length_replicate

theorem coeff_arrPoly (l : List Word) (k : Nat) : (arrPoly l).coeff k = residue (l.getD k 0#16) := by
  induction l generalizing k with
  | nil => simp [arrPoly]
  | cons w l ih =>
    cases k with
    | zero => simp [arrPoly]
    | succ k => simp [arrPoly, ih]

theorem arrPoly_append (l m : List Word) : arrPoly (l ++ m) = arrPoly l + X ^ l.length * arrPoly m := by
  induction l with
  | nil => simp [arrPoly]
  | cons w l ih =>
    simp only [List.cons_append, arrPoly, ih, List.length_cons]
    ring

@[simp] theorem arrPoly_arrZero (n : Nat) : arrPoly (arrZero n) = 0 := by
  induction n with
  | zero => rfl
  | succ n ih =>
    rw [arrZero] at ih
    simp [arrZero, List.replicate_succ, arrPoly, ih]

/-- Entry `k` of an entry-wise operation on two arrays of one length, also past their end. -/
theorem getD_zipWith {f : Word → Word → Word} (hf : f 0#16 0#16 = 0#16) {a b : List Word} (h : a.length = b.length) (k : Nat) :
    (List.zipWith f a b).getD k 0#16 = f (a.getD k 0#16) (b.getD k 0#16) := by
  rcases lt_or_ge k a.length with hk | hk
  · simp [List.getD_eq_getElem?_getD, hk, h ▸ hk]
  · simp [List.getD_eq_getElem?_getD, hk, h ▸ hk, hf]

theorem arrPoly_arrAdd {a b : List Word} (h : a.length = b.length) : arrPoly (arrAdd a b) = arrPoly a + arrPoly b := by
  ext k
  rw [Polynomial.coeff_add, coeff_arrPoly, coeff_arrPoly, coeff_arrPoly, arrAdd, getD_zipWith rfl h, residue_ringAdd]

theorem arrPoly_arrSub {a b : List Word} (h : a.length = b.length) : arrPoly (arrSub a b) = arrPoly a - arrPoly b := by
  ext k
  rw [Polynomial.coeff_sub, coeff_arrPoly, coeff_arrPoly, coeff_arrPoly, arrSub, getD_zipWith rfl h, residue_ringSub]

/-! ## The procedure multiplies (R161 to R163) -/

theorem length_halves {d : Nat} {a : List Word} (ha : a.length = 2 ^ (d + 1)) :
    (a.take (2 ^ d)).length = 2 ^ d ∧ (a.drop (2 ^ d)).length = 2 ^ d := by
  rw [List.length_take, List.length_drop]
  omega

theorem length_arrAdd_same {n : Nat} {a b : List Word} (ha : a.length = n) (hb : b.length = n) :
    (arrAdd a b).length = n := by
  rw [length_arrAdd, ha, hb, min_self]

/-- An array is its low half plus its high half moved up. -/
theorem arrPoly_halves {d : Nat} {a : List Word} (ha : a.length = 2 ^ (d + 1)) :
    arrPoly a = arrPoly (a.take (2 ^ d)) + X ^ 2 ^ d * arrPoly (a.drop (2 ^ d)) := by
  conv_lhs => rw [← List.take_append_drop (2 ^ d) a, arrPoly_append, (length_halves ha).1]

/-- The middle value z1, and z0, z1, z2 added into zeros at the offsets 0, `h` and `2h` (R163). -/
theorem arrPoly_combine {h : Nat} {z0 zm z2 : List Word} (h0 : z0.length = 2 * h) (hm : zm.length = 2 * h)
    (h2 : z2.length = 2 * h) :
    arrPoly (arrAdd (arrAdd (z0 ++ arrZero (2 * h)) (arrZero h ++ arrSub (arrSub zm z0) z2 ++ arrZero h))
        (arrZero (2 * h) ++ z2)) =
      arrPoly z0 + X ^ h * (arrPoly zm - arrPoly z0 - arrPoly z2) + X ^ (2 * h) * arrPoly z2 := by
  rw [arrPoly_arrAdd (by simp; omega), arrPoly_arrAdd (by simp; omega)]
  have hsub : (arrSub zm z0).length = z2.length := by rw [length_arrSub]; omega
  simp [arrPoly_append, arrPoly_arrSub hsub, arrPoly_arrSub (hm.trans h0.symm)]

/-- For arrays of length `2^d` the procedure gives `2·2^d` values, the coefficients of the product. -/
theorem kara_spec (d : Nat) {a b : List Word} (ha : a.length = 2 ^ d) (hb : b.length = 2 ^ d) :
    (kara d a b).length = 2 * 2 ^ d ∧ arrPoly (kara d a b) = arrPoly a * arrPoly b := by
  induction d generalizing a b with
  | zero =>
    obtain ⟨x, rfl⟩ := List.length_eq_one_iff.mp ha
    obtain ⟨y, rfl⟩ := List.length_eq_one_iff.mp hb
    simp [kara, arrPoly]
  | succ d ih =>
    obtain ⟨hal, hah⟩ := length_halves ha
    obtain ⟨hbl, hbh⟩ := length_halves hb
    obtain ⟨hlen0, hz0⟩ := ih hal hbl
    obtain ⟨hlen2, hz2⟩ := ih hah hbh
    obtain ⟨hlenm, hzm⟩ := ih (length_arrAdd_same hal hah) (length_arrAdd_same hbl hbh)
    rw [kara]
    constructor
    · simp only [length_arrAdd, length_arrSub, List.length_append, length_arrZero, hlen0, hlen2, hlenm]
      omega
    · rw [arrPoly_combine hlen0 hlenm hlen2, hz0, hz2, hzm, arrPoly_arrAdd (hal.trans hah.symm),
        arrPoly_arrAdd (hbl.trans hbh.symm), arrPoly_halves ha, arrPoly_halves hb]
      ring

end Arrays

/-! ## The plain product and the fold (R160, R164, R165) -/

/-- `Σ_{i+j = k} a[i]·b[j]`, 0 <= i, j < n, an unbounded integer. -/
def convolution (n : Nat) (a b : Nat → Int) (k : Nat) : Int :=
  ∑ i ∈ Finset.range n, ∑ j ∈ Finset.range n, if i + j = k then a i * b j else 0

/-- Entry `i` of an array as an integer, 0 to 65535. -/
def entry (l : List Word) (i : Nat) : Int := (l.getD i 0#16).toNat

theorem arrPoly_eq_sum (l : List Word) :
    arrPoly l = ∑ i ∈ Finset.range l.length, Polynomial.monomial i (entry l i : ZMod 65536) := by
  ext k
  simp only [coeff_arrPoly, Polynomial.finsetSum_coeff, Polynomial.coeff_monomial, Finset.sum_ite_eq', Finset.mem_range]
  split
  · simp [residue, entry]
  · rw [List.getD_eq_default _ _ (by omega), residue_zero]

theorem coeff_arrPoly_mul {n : Nat} {a b : List Word} (ha : a.length = n) (hb : b.length = n) (k : Nat) :
    (arrPoly a * arrPoly b).coeff k = (convolution n (entry a) (entry b) k : ZMod 65536) := by
  rw [arrPoly_eq_sum, arrPoly_eq_sum, ha, hb, Finset.sum_mul_sum]
  simp [convolution, Polynomial.monomial_mul_monomial, Polynomial.coeff_monomial]

theorem entry_kara {d : Nat} {a b : List Word} (ha : a.length = 2 ^ d) (hb : b.length = 2 ^ d) (k : Nat) :
    entry (kara d a b) k = convolution (2 ^ d) (entry a) (entry b) k % 65536 := by
  obtain ⟨-, hprod⟩ := kara_spec d ha hb
  rw [entry, intCast_toNat_eq_iff, ← coeff_arrPoly, hprod, coeff_arrPoly_mul ha hb]

/-- No two indexes below `n` have the sum `2n - 1`. -/
theorem convolution_last {n : Nat} (hn : 0 < n) (a b : Nat → Int) : convolution n a b (2 * n - 1) = 0 := by
  refine Finset.sum_eq_zero fun i hi => Finset.sum_eq_zero fun j hj => if_neg ?_
  rw [Finset.mem_range] at hi hj
  omega

theorem negacyclic_eq_convolution (a b : Nat → Int) (k : Nat) :
    negacyclic a b k = convolution 256 a b k - convolution 256 a b (k + 256) := by
  simp only [negacyclic, convolution, ← Finset.sum_sub_distrib]
  refine Finset.sum_congr rfl fun i _ => Finset.sum_congr rfl fun j _ => ?_
  by_cases h : i + j = k
  · rw [if_pos h, if_pos h, if_neg (by omega), sub_zero]
  · rw [if_neg h, if_neg h, zero_sub, apply_ite Neg.neg, neg_zero]

theorem karaMul_eq_polyMul (a b : Poly) : karaMul a b = polyMul a b := by
  have hkara (k : Nat) : entry (kara 8 a.toList b.toList) k = convolution 256 (val a) (val b) k % 65536 :=
    entry_kara (d := 8) a.length_toList b.length_toList k
  refine poly_ext_val fun k hk => ?_
  rw [val_polyMul _ _ hk, negacyclic_eq_convolution, Int.sub_emod, ← hkara, ← hkara, val, karaMul, coeff_tabulate _ _ hk]
  exact intCast_ringSub _ _

/-- Settles O27: the procedure's entries are the coefficients of the product, and the fold is the negacyclic sum. -/
theorem karatsubaAgreesWithTheSchoolbookSum : Obligations.KaratsubaAgreesWithTheSchoolbookSum := by
  unfold Obligations.KaratsubaAgreesWithTheSchoolbookSum
  refine ⟨fun d a b ha hb => ⟨(kara_spec d ha hb).1, ?_, fun k _ => entry_kara ha hb k⟩, karaMul_eq_polyMul⟩
  have hlast := entry_kara ha hb (2 * 2 ^ d - 1)
  rw [convolution_last (Nat.two_pow_pos d)] at hlast
  exact BitVec.eq_of_toNat_eq (Int.ofNat_inj.mp hlast)

end Sys2Proof.Machine
end

section
/-! PROOFS. The bit-packing codec (O28 to O30). The stream of R171 writes the coefficients as digits to the base 2^ε, so the
lemmas on digits give both round trips, and a bit of a digit is a bit of the stream. A vector is packed and unpacked one
polynomial at a time. -/

namespace Sys2Proof.Machine

open Sys2Proof.Safety

/-! ## The word of format PM with a width (R80) -/

theorem encPMW_toNat {op : Nat} (h : op < 256) (pd : Fin 32) (ea w : Fin 16) :
    (encPMW op pd ea w).toNat = op * 2 ^ 24 + pd * 2 ^ 19 + ea * 2 ^ 15 + w * 2 ^ 11 := by
  rw [encPMW, BitVec.toNat_ofNat]
  omega

/-! ## Widths and the two conditions of a codec command (R170, R173, R174) -/

theorem codecWidthOk_iff (w : Nat) : codecWidthOk w = true ↔ w ∈ widths := List.contains_iff_mem

theorem le_sixteen_of_mem_widths {eps : Nat} (h : eps ∈ widths) : eps ≤ 16 := by
  revert eps
  decide

/-- A command whose conditions are its width and then the range of its access: WIDTH has the lower code (R312). -/
theorem firstFault_widthRange (ok : Bool) (a n : Nat) :
    firstFault [(ok, .width), (rangeOk a n, .memRange)] =
      if ok then if a + n ≤ 65536 then none else some .memRange else some .width := by
  rw [firstFault_cons, firstFault_rangeOk]

section Conditions

variable {w a n : Nat}

theorem firstFault_codec_width (hw : w ∉ widths) :
    firstFault [(codecWidthOk w, .width), (rangeOk a n, .memRange)] = some .width := by
  rw [firstFault_widthRange, if_neg (mt (codecWidthOk_iff w).mp hw)]

theorem firstFault_codec_range (hw : w ∈ widths) (ha : 65536 < a + n) :
    firstFault [(codecWidthOk w, .width), (rangeOk a n, .memRange)] = some .memRange := by
  rw [firstFault_widthRange, if_pos ((codecWidthOk_iff w).mpr hw), if_neg ha.not_ge]

theorem firstFault_codec_none (hw : w ∈ widths) (ha : a + n ≤ 65536) :
    firstFault [(codecWidthOk w, .width), (rangeOk a n, .memRange)] = none := by
  rw [firstFault_widthRange, if_pos ((codecWidthOk_iff w).mpr hw), if_pos ha]

end Conditions

/-! ## The stream as 256 digits to the base 2^ε (R171) -/

/-- The 32·ε bytes of a stream are its 256 digits, with nothing over. -/
theorem base_pow_bytes (eps : Nat) : 256 ^ (32 * eps) = (2 ^ eps) ^ 256 := by
  rw [show 256 = 2 ^ 8 from rfl, ← Nat.pow_mul, ← Nat.pow_mul]
  congr 1
  omega

theorem packedStream_eq_digits (q : Poly) (eps : Nat) :
    packedStream q eps = ((List.range 256).map fun i => (coeff q i).toNat % 2 ^ eps * (2 ^ eps) ^ i).sum := by
  simp only [packedStream, pow_mul']

theorem packedStream_lt (q : Poly) (eps : Nat) : packedStream q eps < (2 ^ eps) ^ 256 := by
  rw [packedStream_eq_digits]
  exact digits_lt _ _ (fun _ => Nat.mod_lt _ (Nat.two_pow_pos eps)) 256

theorem packedStream_digit (q : Poly) (eps : Nat) {i : Nat} (hi : i < 256) :
    packedStream q eps / 2 ^ (i * eps) % 2 ^ eps = (coeff q i).toNat % 2 ^ eps := by
  rw [packedStream_eq_digits, pow_mul']
  exact digits_get _ _ (fun _ => Nat.mod_lt _ (Nat.two_pow_pos eps)) 256 i hi

theorem le_encodePoly (q : Poly) (eps : Nat) : le (encodePoly q eps) = packedStream q eps := by
  rw [encodePoly, le_leBytes, base_pow_bytes, Nat.mod_eq_of_lt (packedStream_lt q eps)]

/-- The value of a packed polynomial as the sum of R171. -/
theorem intCast_le_encodePoly (q : Poly) (eps : Nat) :
    (le (encodePoly q eps) : Int) = ∑ i ∈ Finset.range 256, val q i % 2 ^ eps * 2 ^ (i * eps) := by
  have hsum : packedStream q eps = ∑ i ∈ Finset.range 256, (coeff q i).toNat % 2 ^ eps * 2 ^ (i * eps) := rfl
  rw [le_encodePoly, hsum]
  push_cast
  rfl

/-- Reducing modulo `2 ^ n` keeps the bits below `n`. -/
theorem mod_two_pow_bit (v : Nat) {n j : Nat} (hj : j < n) : v % 2 ^ n / 2 ^ j % 2 = v / 2 ^ j % 2 := by
  rw [← Nat.toNat_testBit, ← Nat.toNat_testBit, Nat.testBit_mod_two_pow, decide_eq_true hj, Bool.true_and]

/-- Stream bit `i·ε + j` is bit `j` of coefficient `i` (R171). -/
theorem streamBit_encodePoly (q : Poly) {eps i j : Nat} (hi : i < 256) (hj : j < eps) :
    streamBit (encodePoly q eps) (i * eps + j) = (coeff q i).toNat / 2 ^ j % 2 := by
  calc streamBit (encodePoly q eps) (i * eps + j)
      = packedStream q eps / 2 ^ (i * eps) / 2 ^ j % 2 := by
        rw [← le_bit, le_encodePoly, Nat.pow_add, Nat.div_div_eq_div_mul]
    _ = packedStream q eps / 2 ^ (i * eps) % 2 ^ eps / 2 ^ j % 2 := (mod_two_pow_bit _ hj).symm
    _ = (coeff q i).toNat / 2 ^ j % 2 := by rw [packedStream_digit q eps hi, mod_two_pow_bit _ hj]

theorem intCast_streamBit_encodePoly (q : Poly) {eps i j : Nat} (hi : i < 256) (hj : j < eps) :
    (streamBit (encodePoly q eps) (i * eps + j) : Int) = val q i / 2 ^ j % 2 := by
  rw [streamBit_encodePoly q hi hj]
  push_cast
  rfl

/-! ## Decoding, and the round trips of one polynomial (R172, R175) -/

/-- A digit to the base 2^ε fits a coefficient. -/
theorem toNat_coeff_decodePoly (b : Bytes) {eps i : Nat} (he : eps ≤ 16) (hi : i < 256) :
    (coeff (decodePoly b eps) i).toNat = le b / 2 ^ (i * eps) % 2 ^ eps := by
  have hlt : le b / 2 ^ (i * eps) % 2 ^ eps < 2 ^ 16 :=
    (Nat.mod_lt _ (Nat.two_pow_pos eps)).trans_le (Nat.pow_le_pow_right (by decide) he)
  rw [decodePoly, coeff_tabulate _ _ hi, BitVec.toNat_ofNat, Nat.mod_eq_of_lt hlt]

theorem val_decodePoly (b : Bytes) {eps i : Nat} (he : eps ≤ 16) (hi : i < 256) :
    val (decodePoly b eps) i = (le b : Int) / 2 ^ (i * eps) % 2 ^ eps := by
  rw [val, toNat_coeff_decodePoly b he hi]
  push_cast
  rfl

theorem val_decodePoly_encodePoly (q : Poly) {eps i : Nat} (he : eps ≤ 16) (hi : i < 256) :
    val (decodePoly (encodePoly q eps) eps) i = val q i % 2 ^ eps := by
  rw [val, toNat_coeff_decodePoly _ he hi, le_encodePoly, packedStream_digit q eps hi]
  push_cast
  rfl

theorem packedStream_decodePoly (b : Bytes) {eps : Nat} (he : eps ≤ 16) :
    packedStream (decodePoly b eps) eps = le b % (2 ^ eps) ^ 256 := by
  rw [packedStream_eq_digits, ← digits_sum]
  refine congrArg List.sum (List.map_congr_left fun i hi => ?_)
  rw [toNat_coeff_decodePoly b he (List.mem_range.mp hi), Nat.mod_mod, pow_mul']

theorem encodePoly_decodePoly {b : Bytes} {eps : Nat} (he : eps ≤ 16) (hb : b.length = 32 * eps) :
    encodePoly (decodePoly b eps) eps = b := by
  have hlt : le b < (2 ^ eps) ^ 256 := by
    rw [← base_pow_bytes, ← hb]
    exact le_lt b
  refine le_injective ((length_encodePoly _ _).trans hb.symm) ?_
  rw [le_encodePoly, packedStream_decodePoly b he, Nat.mod_eq_of_lt hlt]

/-- A remainder is the number itself exactly when the number is below the modulus. -/
theorem val_emod_eq_iff (q : Poly) (i eps : Nat) : val q i % 2 ^ eps = val q i ↔ val q i < 2 ^ eps :=
  ⟨fun h => h ▸ Int.emod_lt_of_pos _ (by positivity), Int.emod_eq_of_lt (Int.natCast_nonneg _)⟩

/-! ## The round trips of a vector (R175, R190, R191) -/

@[simp] theorem vecEncode_cons (q : Poly) (v : List Poly) (eps : Nat) :
    vecEncode (q :: v) eps = encodePoly q eps ++ vecEncode v eps := List.flatMap_cons

theorem slice_append_add (a b : Bytes) (i j : Nat) : slice (a ++ b) (a.length + i) (a.length + j) = slice b i j := by
  rw [slice, slice, List.drop_length_add_append, Nat.add_sub_add_left]

/-- The first row is decoded from the first 32·ε bytes, the others from the rest. -/
theorem vecDecode_append {a : Bytes} (b : Bytes) (r : Nat) {eps : Nat} (ha : a.length = 32 * eps) :
    vecDecode (a ++ b) (r + 1) eps = decodePoly a eps :: vecDecode b r eps := by
  have hrest (i : Nat) : slice (a ++ b) ((i + 1) * (32 * eps)) ((i + 1 + 1) * (32 * eps)) =
      slice b (i * (32 * eps)) ((i + 1) * (32 * eps)) := by
    rw [Nat.succ_mul (i + 1), Nat.succ_mul i, Nat.add_comm _ (32 * eps), Nat.add_comm _ (32 * eps), ← ha, slice_append_add]
  have hfirst : slice (a ++ b) (0 * (32 * eps)) ((0 + 1) * (32 * eps)) = a := by
    rw [← ha, Nat.zero_mul, Nat.zero_add, Nat.one_mul, slice_append_left]
  rw [vecDecode, List.range_succ_eq_map, List.map_cons, List.map_map, hfirst]
  exact congrArg _ (List.map_congr_left fun i _ => congrArg (decodePoly · eps) (hrest i))

theorem vecEncode_vecDecode {eps : Nat} (he : eps ≤ 16) (r : Nat) {b : Bytes} (hb : b.length = r * (32 * eps)) :
    vecEncode (vecDecode b r eps) eps = b := by
  induction r generalizing b with
  | zero =>
    rw [List.length_eq_zero_iff.mp (hb.trans (Nat.zero_mul _))]
    rfl
  | succ r ih =>
    rw [Nat.succ_mul] at hb
    have hfirst : (b.take (32 * eps)).length = 32 * eps := by rw [List.length_take]; omega
    have hrest : (b.drop (32 * eps)).length = r * (32 * eps) := by rw [List.length_drop]; omega
    rw [← List.take_append_drop (32 * eps) b, vecDecode_append _ r hfirst, vecEncode_cons,
      encodePoly_decodePoly he hfirst, ih hrest]

theorem vecDecode_vecEncode (v : List Poly) (eps : Nat) :
    vecDecode (vecEncode v eps) v.length eps = v.map fun q => decodePoly (encodePoly q eps) eps := by
  induction v with
  | nil => rfl
  | cons q v ih =>
    rw [vecEncode_cons, List.length_cons, vecDecode_append _ _ (length_encodePoly q eps), ih, List.map_cons]

theorem elt_map (f : Poly → Poly) (v : List Poly) {k : Nat} (h : k < v.length) : elt (v.map f) k = f (elt v k) := by
  simp [elt, h]

/-! ## The statements -/

/-- Settles O28: the width and the range are PENC's conditions, and what it stores is the stream of R171. -/
theorem packPolynomial : Obligations.PackPolynomial := by
  unfold Obligations.PackPolynomial
  intro ps ea w s hs a b
  refine ⟨fun hw => ?_, fun hw ha => ?_, fun hw ha => ⟨?_, length_encodePoly _ _, intCast_le_encodePoly _ _,
    fun i j => intCast_streamBit_encodePoly _⟩, encPMW_toNat (by decide) ps ea w⟩
  · exact faults_of_execute hs (exec_penc ps ea w s) (firstFault_codec_width hw)
  · exact faults_of_execute hs (exec_penc ps ea w s) (firstFault_codec_range hw ha)
  · exact stores_of_execute hs (exec_penc ps ea w s) (firstFault_codec_none hw ha)

/-- Settles O29: the same two conditions, and each coefficient is a digit of the bytes' value. -/
theorem unpackPolynomial : Obligations.UnpackPolynomial := by
  unfold Obligations.UnpackPolynomial
  intro pd ea w s hs a b
  refine ⟨fun hw => ?_, fun hw ha => ?_, fun hw ha => ?_, encPMW_toNat (by decide) pd ea w⟩
  · exact faults_of_execute hs (exec_pdec pd ea w s) (firstFault_codec_width hw)
  · exact faults_of_execute hs (exec_pdec pd ea w s) (firstFault_codec_range hw ha)
  · have hexec : exec (.pdec pd ea w) s = .next (s.setP pd (decodePoly b w)) :=
      (exec_pdec pd ea w s).trans (execute_ok hs (firstFault_codec_none hw ha))
    exact ⟨writesPoly_of_exec hexec fun _ => val_decodePoly b (le_sixteen_of_mem_widths hw), _, hexec,
      State.getP_setP_same s pd _⟩

/-- Settles O30: both round trips of a polynomial are facts on digits, and those of a vector follow row by row. -/
theorem codecRoundTrips : Obligations.CodecRoundTrips := by
  unfold Obligations.CodecRoundTrips
  intro eps hw
  have he := le_sixteen_of_mem_widths hw
  refine ⟨fun b => encodePoly_decodePoly he, fun q i hi => ?_, fun r b => vecEncode_vecDecode he r, fun v k i hk hi => ?_⟩
  · rw [val_decodePoly_encodePoly q he hi]
    exact ⟨rfl, val_emod_eq_iff q i eps⟩
  · rw [vecDecode_vecEncode, elt_map _ v hk, val_decodePoly_encodePoly _ he hi]

end Sys2Proof.Machine
end

section
/-! PROOFS. The element-wise PolyMatrix commands and MTRN (O33 to O35): the words of the matrix formats, the conditions on shape
and register run, what a run holds after a command wrote it, and the element each of these commands writes. -/

namespace Sys2Proof.Machine

open Sys2Proof.Safety

/-! ## The word of each matrix format as a number (R81 to R83) -/

theorem encM3_toNat {op : Nat} (h : op < 256) (pd pa pb : Fin 32) (r c : Fin 8) :
    (encM3 op pd pa pb r c).toNat =
      op * 2 ^ 24 + pd * 2 ^ 19 + pa * 2 ^ 14 + pb * 2 ^ 9 + r * 2 ^ 6 + c * 2 ^ 3 := by
  rw [encM3, BitVec.toNat_ofNat]
  omega

theorem encM2Imm_toNat {op : Nat} (h : op < 256) (pd pa : Fin 32) (r c : Fin 8) (imm : Fin 16) :
    (encM2Imm op pd pa r c imm).toNat =
      op * 2 ^ 24 + pd * 2 ^ 19 + pa * 2 ^ 14 + r * 2 ^ 11 + c * 2 ^ 8 + imm * 2 ^ 4 := by
  rw [encM2Imm, BitVec.toNat_ofNat]
  omega

theorem encM2_toNat {op : Nat} (h : op < 256) (pd pa : Fin 32) (r c : Fin 8) :
    (encM2 op pd pa r c).toNat = op * 2 ^ 24 + pd * 2 ^ 19 + pa * 2 ^ 14 + r * 2 ^ 11 + c * 2 ^ 8 := by
  rw [encM2, BitVec.toNat_ofNat]
  omega

theorem encMMW_toNat {op : Nat} (h : op < 256) (pd : Fin 32) (ea w : Fin 16) (r c : Fin 8) :
    (encMMW op pd ea w r c).toNat =
      op * 2 ^ 24 + pd * 2 ^ 19 + ea * 2 ^ 15 + w * 2 ^ 11 + r * 2 ^ 8 + c * 2 ^ 5 := by
  rw [encMMW, BitVec.toNat_ofNat]
  omega

/-! ## Shapes, register runs, and the first condition that fails (R180, R181, R312) -/

theorem shapeOk_iff (r c : Nat) : shapeOk r c = true ↔ ¬(BadDim r ∨ BadDim c) := by
  simp only [shapeOk, dimOk, BadDim, Bool.and_eq_true, decide_eq_true_eq]
  omega

theorem squareOk_iff (r c : Fin 8) : squareOk r c = true ↔ ¬(BadDim r ∨ BadDim c ∨ r ≠ c) := by
  rw [squareOk, Bool.and_eq_true, shapeOk_iff, decide_eq_true_iff, ← Fin.ext_iff]
  tauto

theorem columnOk_iff (r c : Fin 8) : columnOk r c = true ↔ ¬(BadDim r ∨ BadDim c ∨ c ≠ 1) := by
  have hone : c.val = 1 ↔ c = 1 := by omega
  rw [columnOk, Bool.and_eq_true, shapeOk_iff, decide_eq_true_iff, hone]
  tauto

theorem square_of_eq {r c : Fin 8} (hr : ¬BadDim r) (h : r = c) : ¬(BadDim r ∨ BadDim c ∨ r ≠ c) := by
  subst h
  tauto

theorem column_of_eq {r c : Fin 8} (hr : ¬BadDim r) (h : c = 1) : ¬(BadDim r ∨ BadDim c ∨ c ≠ 1) := by
  have hone : ¬BadDim (1 : Fin 8) := by unfold BadDim; decide
  subst h
  tauto

theorem runFits_iff (b n : Nat) : runFits b n = true ↔ b + n ≤ 32 := decide_eq_true_iff

theorem two_runFits_iff (a b n : Nat) : (runFits a n && runFits b n) = true ↔ ¬(32 < a + n ∨ 32 < b + n) := by
  simp only [Bool.and_eq_true, runFits_iff]
  omega

theorem three_runFits_iff (a b c m n : Nat) : (runFits a m && runFits b n && runFits c n) = true ↔
    ¬(32 < a + m ∨ 32 < b + n ∨ 32 < c + n) := by
  simp only [Bool.and_eq_true, runFits_iff]
  omega

section Conditions

variable {ok : Bool} {bad : Prop} {c : Cause} {l : List (Bool × Cause)}

/-- A condition that holds leaves the decision to the ones after it. -/
theorem firstFault_holds (hok : ok = true ↔ ¬bad) (h : ¬bad) : firstFault ((ok, c) :: l) = firstFault l := by
  rw [firstFault_cons, if_pos (hok.mpr h)]

/-- A condition that fails decides: the ones after it have higher codes. -/
theorem firstFault_fails (hok : ok = true ↔ ¬bad) (h : bad) : firstFault ((ok, c) :: l) = some c := by
  rw [firstFault_cons, if_neg fun e => hok.mp e h]

/-! The two conditions of a matrix command. -/

variable {runs : Bool} {past : Prop}

theorem firstFault_matrix_runs (hok : ok = true ↔ ¬bad) (hruns : runs = true ↔ ¬past) (h : ¬bad) (hpast : past) :
    firstFault [(ok, .shape), (runs, .pregRange)] = some .pregRange :=
  (firstFault_holds hok h).trans (firstFault_fails hruns hpast)

theorem firstFault_matrix_none (hok : ok = true ↔ ¬bad) (hruns : runs = true ↔ ¬past) (h : ¬bad) (hpast : ¬past) :
    firstFault [(ok, .shape), (runs, .pregRange)] = none :=
  (firstFault_holds hok h).trans (firstFault_holds hruns hpast)

end Conditions

/-! ## Register runs after a command wrote them (R36, R182) -/

/-- A command that completes by writing a run. -/
theorem getP_of_execute {i : Instr} {s : State} {l : List (Bool × Cause)} {b n : Nat} {qs : List Poly} (hs : Running s)
    (h : exec i s = execute i s l (s.setRun b qs)) (hl : firstFault l = none) (hn : qs.length = n) (hb : b + n ≤ 32) :
    ∃ t, exec i s = .next t ∧ (∀ k, k < n → t.getP (b + k) = elt qs k) ∧ FramePolys s t b n := by
  subst hn
  exact ⟨_, h.trans (execute_ok hs hl), fun k hk => State.getP_setRun_inside s b qs k hk hb, framePolys_setRun s b qs⟩

theorem writesRun_of_execute {i : Instr} {s : State} {l : List (Bool × Cause)} {b n : Nat} {qs : List Poly}
    {f : Nat → Nat → Int} (hs : Running s) (h : exec i s = execute i s l (s.setRun b qs)) (hl : firstFault l = none)
    (hn : qs.length = n) (hb : b + n ≤ 32) (hv : ∀ k, k < n → ∀ j, j < 256 → val (elt qs k) j = f k j) :
    WritesRun i s b n f :=
  writesRun_of_exec (h.trans (execute_ok hs hl)) hn hb hv

theorem elt_getRun (s : State) (b : Nat) {n k : Nat} (h : k < n) : elt (s.getRun b n) k = s.getP (b + k) :=
  State.getD_getRun s b n k h

/-- Element `k` of an element-wise combination of two runs. -/
theorem elt_zipWith_getRun (f : Poly → Poly → Poly) (s : State) (a b : Nat) {n k : Nat} (h : k < n) :
    elt (List.zipWith f (s.getRun a n) (s.getRun b n)) k = f (s.getP (a + k)) (s.getP (b + k)) := by
  simp [elt, State.getRun, h]

/-! ## The element-wise commands (R183 to R186) -/

/-- Settles O33: the sources are read before the run is written, so element `k` is the sum of the sources' elements. -/
theorem matrixAdd : Obligations.MatrixAdd := by
  unfold Obligations.MatrixAdd
  intro pd pa pb r c s hs n
  have hexec := exec_madd pd pa pb r c s
  have hshape := shapeOk_iff r c
  have hruns := three_runFits_iff pd pa pb n n
  refine ⟨fun hbad => ?_, fun hr hc hpast => ?_, fun hr hc hd ha hb => ?_, encM3_toNat (by decide) pd pa pb r c⟩
  · exact faults_of_execute hs hexec (firstFault_fails hshape hbad)
  · exact faults_of_execute hs hexec (firstFault_matrix_runs hshape hruns (not_or.mpr ⟨hr, hc⟩) hpast)
  · have hl := firstFault_matrix_none hshape hruns (not_or.mpr ⟨hr, hc⟩) (by omega)
    refine writesRun_of_execute hs hexec hl (by simp [n]) hd fun k hk j hj => ?_
    rw [elt_zipWith_getRun _ _ _ _ hk, val_polyAdd _ _ hj]

/-- A command that applies a lane-wise function to every polynomial of a run. -/
theorem writesRun_of_map {i : Instr} {s : State} {l : List (Bool × Cause)} {d a n : Nat} {f : Poly → Poly} (g : Int → Int)
    (hs : Running s) (h : exec i s = execute i s l (s.setRun d ((s.getRun a n).map f))) (hl : firstFault l = none)
    (hd : d + n ≤ 32) (hf : ∀ q j, j < 256 → val (f q) j = g (val q j)) :
    WritesRun i s d n fun k j => g (val (s.getP (a + k)) j) := by
  refine writesRun_of_execute hs h hl (by simp) hd fun k hk j hj => ?_
  rw [elt_map _ _ (by simpa using hk), elt_getRun s a hk, hf _ _ hj]

/-- Settles O34: the three commands have the same two conditions and differ in the function of a lane. -/
theorem matrixShiftAndMask : Obligations.MatrixShiftAndMask := by
  unfold Obligations.MatrixShiftAndMask
  intro pd pa r c k s hs n
  have hshl := exec_mshl pd pa r c k s
  have hshr := exec_mshr pd pa r c k s
  have hmod := exec_mmod pd pa r c k s
  have hshape := shapeOk_iff r c
  have hruns := two_runFits_iff pd pa n
  refine ⟨fun hbad => ?_, fun hr hc hpast => ?_, fun hr hc hd ha => ?_, encM2Imm_toNat (by decide) pd pa r c k,
    encM2Imm_toNat (by decide) pd pa r c k, encM2Imm_toNat (by decide) pd pa r c k⟩
  · exact ⟨faults_of_execute hs hshl (firstFault_fails hshape hbad),
      faults_of_execute hs hshr (firstFault_fails hshape hbad), faults_of_execute hs hmod (firstFault_fails hshape hbad)⟩
  · have hl := firstFault_matrix_runs hshape hruns (not_or.mpr ⟨hr, hc⟩) hpast
    exact ⟨faults_of_execute hs hshl hl, faults_of_execute hs hshr hl, faults_of_execute hs hmod hl⟩
  · have hl := firstFault_matrix_none hshape hruns (not_or.mpr ⟨hr, hc⟩) (by omega)
    exact ⟨writesRun_of_map (fun x => x * 2 ^ k.val % 65536) hs hshl hl hd fun _ _ => val_polyShl _ _,
      writesRun_of_map (fun x => x / 2 ^ k.val) hs hshr hl hd fun _ _ => val_polyShr _ _,
      writesRun_of_map (fun x => x % 2 ^ k.val) hs hmod hl hd fun _ _ => val_polyMod _ k.isLt.le⟩

/-! ## Transposing (R187) -/

/-- The row-major index of an element of a square matrix. -/
theorem rowMajor_lt {L i j : Nat} (hi : i < L) (hj : j < L) : i * L + j < L * L := by
  calc i * L + j < i * L + L := Nat.add_lt_add_left hj _
    _ = (i + 1) * L := (Nat.succ_mul i L).symm
    _ ≤ L * L := Nat.mul_le_mul_right L hi

/-- Settles O35: the run written is the transpose of the run read, so an overlap of the two does not show. -/
theorem matrixTranspose : Obligations.MatrixTranspose := by
  unfold Obligations.MatrixTranspose
  intro pd pa r c s hs n
  have hexec := exec_mtrn pd pa r c s
  have hsquare := squareOk_iff r c
  have hruns := two_runFits_iff pd pa n
  refine ⟨fun hbad => ?_, fun hr hrc hpast => ?_, fun hr hrc hd ha => ?_, encM2_toNat (by decide) pd pa r c⟩
  · exact faults_of_execute hs hexec (firstFault_fails hsquare hbad)
  · exact faults_of_execute hs hexec (firstFault_matrix_runs hsquare hruns (square_of_eq hr hrc) hpast)
  · have hl := firstFault_matrix_none hsquare hruns (square_of_eq hr hrc) (by omega)
    obtain ⟨t, ht, hval, hframe⟩ := getP_of_execute hs hexec hl (length_transpose _ _) hd
    refine ⟨t, ht, fun i j hi hj => ?_, hframe⟩
    rw [Nat.add_assoc, hval _ (rowMajor_lt hi hj), elt_transpose _ _ _ _ hi hj, elt_getRun s pa (rowMajor_lt hj hi),
      Nat.add_assoc]

end Sys2Proof.Machine
end

section
/-! PROOFS. The products of matrices and vectors (O36, O37): a coefficient of a sum of products is the sum of the negacyclic
sums, all reduced modulo 2^16 once. -/

namespace Sys2Proof.Machine

open Sys2Proof.Safety

/-! ## Sums of polynomials (R188, R189) -/

/-- A coefficient of a sum of polynomials, from integers its terms agree with modulo 2^16. -/
theorem val_polySum_range {n k : Nat} {f : Nat → Poly} {g : Nat → Int} (hk : k < 256)
    (h : ∀ j, j < n → val (f j) k ≡ g j [ZMOD 65536]) :
    val (polySum ((List.range n).map f)) k = (∑ j ∈ Finset.range n, g j) % 65536 := by
  rw [← val_emod, val, coeff_polySum _ _ hk, List.map_map]
  exact toNat_rangeSum_modEq h

theorem val_polyMul_modEq (a b : Poly) {k : Nat} (hk : k < 256) :
    val (polyMul a b) k ≡ negacyclic (val a) (val b) k [ZMOD 65536] := by
  rw [val_polyMul _ _ hk]
  exact Int.mod_modEq _ _

theorem val_matVec (A v : List Poly) {L i k : Nat} (hi : i < L) (hk : k < 256) : val (elt (matVec A v L) i) k =
    (∑ j ∈ Finset.range L, negacyclic (val (elt A (i * L + j))) (val (elt v j)) k) % 65536 := by
  rw [elt_matVec _ _ _ _ hi]
  exact val_polySum_range hk fun _ _ => val_polyMul_modEq _ _ hk

theorem val_inner (a b : List Poly) (L : Nat) {k : Nat} (hk : k < 256) : val (inner a b L) k =
    (∑ i ∈ Finset.range L, negacyclic (val (elt a i)) (val (elt b i)) k) % 65536 :=
  val_polySum_range hk fun _ _ => val_polyMul_modEq _ _ hk

/-! ## The statements -/

/-- Settles O36: row `i` of the matrix is read as it stands, elements `i·L` to `i·L + L - 1` of its run. -/
theorem matrixVectorProduct : Obligations.MatrixVectorProduct := by
  unfold Obligations.MatrixVectorProduct
  intro pd pa pb r c s hs L
  have hexec := exec_mvmul pd pa pb r c s
  have hsquare := squareOk_iff r c
  have hruns := three_runFits_iff pa pb pd (L * L) L
  refine ⟨fun hbad => ?_, fun hr hrc hpast => ?_, fun hr hrc ha hb hd => ?_, encM3_toNat (by decide) pd pa pb r c⟩
  · exact faults_of_execute hs hexec (firstFault_fails hsquare hbad)
  · exact faults_of_execute hs hexec (firstFault_matrix_runs hsquare hruns (square_of_eq hr hrc) hpast)
  · have hl := firstFault_matrix_none hsquare hruns (square_of_eq hr hrc) (by omega)
    refine writesRun_of_execute hs hexec hl (length_matVec _ _ _) hd fun i hi k hk => ?_
    rw [val_matVec _ _ hi hk]
    refine congrArg (· % 65536) (Finset.sum_congr rfl fun j hj => ?_)
    have hj := Finset.mem_range.mp hj
    rw [elt_getRun s pa (rowMajor_lt hi hj), elt_getRun s pb hj, Nat.add_assoc]

/-- Settles O37: the destination is one register, which may lie in a source: both vectors are read before it is written. -/
theorem vectorInnerProduct : Obligations.VectorInnerProduct := by
  unfold Obligations.VectorInnerProduct
  intro pd pa pb r c s hs L
  have hexec := exec_minner pd pa pb r c s
  have hcolumn := columnOk_iff r c
  have hruns := two_runFits_iff pa pb L
  refine ⟨fun hbad => ?_, fun hr hc hpast => ?_, fun hr hc ha hb => ?_, encM3_toNat (by decide) pd pa pb r c⟩
  · exact faults_of_execute hs hexec (firstFault_fails hcolumn hbad)
  · exact faults_of_execute hs hexec (firstFault_matrix_runs hcolumn hruns (column_of_eq hr hc) hpast)
  · have hl := firstFault_matrix_none hcolumn hruns (column_of_eq hr hc) (by omega)
    refine writesPoly_of_execute hs hexec hl fun k hk => ?_
    rw [val_inner _ _ _ hk]
    refine congrArg (· % 65536) (Finset.sum_congr rfl fun i hi => ?_)
    have hi := Finset.mem_range.mp hi
    rw [elt_getRun s pa hi, elt_getRun s pb hi]

end Sys2Proof.Machine
end

section
/-! PROOFS. Packing and unpacking a column vector (O38, O39): row `i` is the `i`-th block of 32·ε bytes, and the bits of a block
are bits of the whole string. -/

namespace Sys2Proof.Machine

open Sys2Proof.Safety

/-! ## Blocks of a byte string (R9) -/

theorem slice_eq_map (b : Bytes) {i n : Nat} (h : i + n ≤ b.length) :
    slice b i (i + n) = (List.range n).map fun x => byteAt b (i + x) := by
  have hlen : (slice b i (i + n)).length = n := (length_slice b i _ h).trans (Nat.add_sub_cancel_left i n)
  refine List.ext_getElem (by simp [hlen]) fun x hx _ => ?_
  rw [hlen] at hx
  simp [slice, byteAt, show i + x < b.length by omega]

/-- Block `k` of `m` bytes, byte by byte. -/
theorem block_eq_map (b : Bytes) {k m n : Nat} (hk : k < n) (h : b.length = n * m) :
    slice b (k * m) ((k + 1) * m) = (List.range m).map fun x => byteAt b (k * m + x) := by
  have hle : (k + 1) * m ≤ b.length := h ▸ Nat.mul_le_mul_right m hk
  rw [Nat.succ_mul] at hle ⊢
  exact slice_eq_map b hle

/-- A block of a range of DMEM is the range that starts at the block. -/
theorem block_memRead (s : State) (a : Nat) {k m n : Nat} (hk : k < n) :
    slice (s.memRead a (n * m)) (k * m) ((k + 1) * m) = s.memRead (a + k * m) m := by
  have hle : (k + 1) * m ≤ n * m := Nat.mul_le_mul_right m hk
  rw [Nat.succ_mul] at hle
  rw [block_eq_map _ hk (State.length_memRead _ _ _)]
  refine List.map_congr_left fun x hx => ?_
  have hx := List.mem_range.mp hx
  rw [State.byteAt_memRead _ _ _ _ (by omega), ← Nat.add_assoc]
  rfl

/-- Stream bit `x` of a block is stream bit `8·k·m + x` of the string. -/
theorem streamBit_block (b : Bytes) (k : Nat) {m x : Nat} (hx : x < 8 * m) :
    streamBit (slice b (k * m) ((k + 1) * m)) x = streamBit b (8 * (k * m) + x) := by
  have hbyte : x / 8 < (k + 1) * m - k * m := by
    rw [Nat.succ_mul]
    omega
  rw [streamBit, byteAt_slice _ _ _ _ hbyte, streamBit, Nat.mul_add_div (by decide), Nat.mul_add_mod]

/-! ## The rows of a packed vector (R190, R191) -/

/-- After a first block is taken off, block `k + 1` is block `k` of the rest. -/
theorem block_append_succ {a : Bytes} (b : Bytes) (k : Nat) {m : Nat} (ha : a.length = m) :
    slice (a ++ b) ((k + 1) * m) ((k + 1 + 1) * m) = slice b (k * m) ((k + 1) * m) := by
  have hplace (x : Nat) : (x + 1) * m = a.length + x * m := by rw [ha, Nat.succ_mul, Nat.add_comm]
  exact (congrArg₂ (slice (a ++ b)) (hplace k) (hplace (k + 1))).trans (slice_append_add a b _ _)

theorem block_vecEncode (v : List Poly) (eps : Nat) {i : Nat} (hi : i < v.length) :
    slice (vecEncode v eps) (i * (32 * eps)) ((i + 1) * (32 * eps)) = encodePoly (elt v i) eps := by
  induction v generalizing i with
  | nil => cases hi
  | cons q v ih =>
    have hlen := length_encodePoly q eps
    rw [vecEncode_cons]
    cases i with
    | zero =>
      rw [← hlen, Nat.zero_mul, Nat.zero_add, Nat.one_mul, slice_append_left]
      rfl
    | succ i => exact (block_append_succ _ i hlen).trans (ih (Nat.lt_of_succ_lt_succ hi))

theorem intCast_streamBit_vecEncode (v : List Poly) {eps i k j : Nat} (hi : i < v.length) (hk : k < 256) (hj : j < eps) :
    (streamBit (vecEncode v eps) ((i * 256 + k) * eps + j) : Int) = val (elt v i) k / 2 ^ j % 2 := by
  have hplace : (i * 256 + k) * eps + j = 8 * (i * (32 * eps)) + (k * eps + j) := by ring
  have hx : k * eps + j < 8 * (32 * eps) := by
    calc k * eps + j < (k + 1) * eps := by rw [Nat.succ_mul]; omega
      _ ≤ 256 * eps := Nat.mul_le_mul_right eps hk
      _ = 8 * (32 * eps) := by ring
  rw [hplace, ← streamBit_block _ _ hx, block_vecEncode v eps hi, intCast_streamBit_encodePoly _ hk hj]

theorem val_vecDecode_memRead (s : State) (a : Nat) {r i eps k : Nat} (he : eps ≤ 16) (hi : i < r) (hk : k < 256) :
    val (elt (vecDecode (s.memRead a (r * (32 * eps))) r eps) i) k =
      (le (s.memRead (a + i * (32 * eps)) (32 * eps)) : Int) / 2 ^ (k * eps) % 2 ^ eps := by
  rw [vecDecode, elt_map_range _ _ _ hi, block_memRead s a hi, val_decodePoly _ he hk]

/-! ## The four conditions (R190, R191) -/

/-- A command whose last conditions are its register run and then the range of its access (R190, R191, R193, R195). -/
theorem firstFault_runRange (b m a n : Nat) : firstFault [(runFits b m, .pregRange), (rangeOk a n, .memRange)] =
    if b + m ≤ 32 then if a + n ≤ 65536 then none else some .memRange else some .pregRange := by
  simp only [firstFault_cons, firstFault_nil, runFits_iff, rangeOk_iff]

theorem codecWidthOk_iff_not (w : Nat) : codecWidthOk w = true ↔ ¬w ∉ widths :=
  (codecWidthOk_iff w).trans not_not.symm

/-- With the width supported and the shape a column, the register run and the range decide. -/
theorem firstFault_vector {w b a n : Nat} {r c : Fin 8} (hw : w ∈ widths) (hr : ¬BadDim r) (hc : c = 1) :
    firstFault [(codecWidthOk w, .width), (columnOk r c, .shape), (runFits b r, .pregRange), (rangeOk a n, .memRange)] =
      if b + r ≤ 32 then if a + n ≤ 65536 then none else some .memRange else some .pregRange :=
  (firstFault_holds (codecWidthOk_iff_not w) (not_not.mpr hw)).trans
    ((firstFault_holds (columnOk_iff r c) (column_of_eq hr hc)).trans (firstFault_runRange b r a n))

/-! ## The statements -/

/-- Settles O38: the four conditions in the order of their codes, then the rows' streams one after the other. -/
theorem packVector : Obligations.PackVector := by
  unfold Obligations.PackVector
  intro ps ea w r c s hs a n b
  have hexec := exec_menc ps ea w r c s
  have hwidth := codecWidthOk_iff_not w
  have hcolumn := columnOk_iff r c
  have hlen : b.length = n := by rw [length_vecEncode, State.length_getRun]
  refine ⟨fun hw => ?_, fun hw hbad => ?_, fun hw hr hc hrun => ?_, fun hw hr hc hrun ha => ?_,
    fun hw hr hc hrun ha => ⟨?_, hlen, fun i k j hi hk hj => ?_⟩, encMMW_toNat (by decide) ps ea w r c⟩
  · exact faults_of_execute hs hexec (firstFault_fails hwidth hw)
  · exact faults_of_execute hs hexec ((firstFault_holds hwidth (not_not.mpr hw)).trans (firstFault_fails hcolumn hbad))
  · exact faults_of_execute hs hexec ((firstFault_vector hw hr hc).trans (if_neg hrun.not_ge))
  · exact faults_of_execute hs hexec ((firstFault_vector hw hr hc).trans ((if_pos hrun).trans (if_neg ha.not_ge)))
  · exact stores_of_execute hs hexec ((firstFault_vector hw hr hc).trans ((if_pos hrun).trans (if_pos ha)))
  · rw [intCast_streamBit_vecEncode _ (by simpa using hi) hk hj, elt_getRun s ps hi]

/-- Settles O39: the same four conditions, and each row is decoded from the bytes where it starts. -/
theorem unpackVector : Obligations.UnpackVector := by
  unfold Obligations.UnpackVector
  intro pd ea w r c s hs a m
  have hexec := exec_mdec pd ea w r c s
  have hwidth := codecWidthOk_iff_not w
  have hcolumn := columnOk_iff r c
  refine ⟨fun hw => ?_, fun hw hbad => ?_, fun hw hr hc hrun => ?_, fun hw hr hc hrun ha => ?_,
    fun hw hr hc hrun ha => ?_, encMMW_toNat (by decide) pd ea w r c⟩
  · exact faults_of_execute hs hexec (firstFault_fails hwidth hw)
  · exact faults_of_execute hs hexec ((firstFault_holds hwidth (not_not.mpr hw)).trans (firstFault_fails hcolumn hbad))
  · exact faults_of_execute hs hexec ((firstFault_vector hw hr hc).trans (if_neg hrun.not_ge))
  · exact faults_of_execute hs hexec ((firstFault_vector hw hr hc).trans ((if_pos hrun).trans (if_neg ha.not_ge)))
  · have hl := (firstFault_vector hw hr hc).trans ((if_pos hrun).trans (if_pos ha))
    obtain ⟨t, ht, hval, -⟩ := getP_of_execute hs hexec hl (length_vecDecode _ _ _) hrun
    exact ⟨writesRun_of_execute hs hexec hl (length_vecDecode _ _ _) hrun fun i hi k hk =>
      val_vecDecode_memRead s a (le_sixteen_of_mem_widths hw) hi hk, t, ht, hval⟩

end Sys2Proof.Machine
end

section
/-! PROOFS. GENMAT and GENSEC (O40, O41). A row of the secret is sampled from its block of the stream: each sampler's coefficient
is the ones of a half-field minus the ones of the next, for the centred binomial and for the uniform distribution alike. -/

namespace Sys2Proof.Machine

open Sys2Proof.Safety

/-! ## The samplers (R211, R213) -/

/-- The ones of the `h` bits of a value from bit `p`, counted by `HW`, are those stream bits of the string. -/
theorem hw_field (b : Bytes) (p : Nat) {h : Nat} (hh : h ≤ 16) : (hw (le b / 2 ^ p % 2 ^ h) : Int) = ones b p h := by
  have hbit (j : Nat) : le b / 2 ^ p % 2 ^ h / 2 ^ j % 2 = if j < h then streamBit b (p + j) else 0 := by
    split
    · rw [mod_two_pow_bit _ ‹_›, Nat.div_div_eq_div_mul, ← Nat.pow_add, le_bit]
    · have hlt : le b / 2 ^ p % 2 ^ h < 2 ^ j :=
        (Nat.mod_lt _ (Nat.two_pow_pos h)).trans_le (Nat.pow_le_pow_right (by decide) (by omega))
      rw [Nat.div_eq_of_lt hlt, Nat.zero_mod]
  have hsum : hw (le b / 2 ^ p % 2 ^ h) = ∑ j ∈ Finset.range 16, le b / 2 ^ p % 2 ^ h / 2 ^ j % 2 := rfl
  have hfilter : (Finset.range 16).filter (· < h) = Finset.range h := by
    ext j
    simp only [Finset.mem_filter, Finset.mem_range]
    omega
  simp only [hsum, hbit, ← Finset.sum_filter, hfilter, ones, Nat.cast_sum]

theorem ones_le (b : Bytes) (k n : Nat) : ones b k n ≤ n := by
  have hbit (j : Nat) : (streamBit b (k + j) : Int) ≤ 1 := Int.ofNat_le.mpr (Nat.le_of_lt_succ (Nat.mod_lt _ (by decide)))
  simpa [ones] using Finset.sum_le_card_nsmul (Finset.range n) _ 1 fun j _ => hbit j

/-- The count fits a coefficient. -/
theorem toNat_hw_field (b : Bytes) (p : Nat) {h : Nat} (hh : h ≤ 16) :
    ((BitVec.ofNat 16 (hw (le b / 2 ^ p % 2 ^ h))).toNat : Int) = ones b p h := by
  have hcount := hw_field b p hh
  have hle := ones_le b p h
  rw [BitVec.toNat_ofNat, Nat.mod_eq_of_lt (by omega), hcount]

/-- The two half-fields of the field of `2h` bits from bit `p`. -/
theorem field_halves (v p h : Nat) :
    v / 2 ^ p % 2 ^ (2 * h) % 2 ^ h = v / 2 ^ p % 2 ^ h ∧
    v / 2 ^ p % 2 ^ (2 * h) / 2 ^ h = v / 2 ^ (p + h) % 2 ^ h := by
  rw [Nat.two_mul, Nat.pow_add 2 h h, Nat.pow_add 2 p h, ← Nat.div_div_eq_div_mul]
  exact ⟨Nat.mod_mul_right_mod _ _ _, Nat.mod_mul_right_div_self _ _ _⟩

/-- A coefficient of the centred binomial sample of fields of `2h` bits (R211). -/
theorem val_cbd (b : Bytes) {h i : Nat} (hh : h ≤ 16) (hi : i < 256) :
    val (cbd b (2 * h)) i = (ones b (i * (2 * h)) h - ones b (i * (2 * h) + h) h) % 65536 := by
  obtain ⟨hlow, hhigh⟩ := field_halves (le b) (i * (2 * h)) h
  rw [val, cbd, coeff_tabulate _ _ hi, centered, intCast_ringSub, Nat.mul_div_cancel_left h (by decide), hlow, hhigh,
    toNat_hw_field b _ hh, toNat_hw_field b _ hh]

/-- A coefficient of the uniform sample: fields of 2 bits (R213). -/
theorem val_uni (b : Bytes) {i : Nat} (hi : i < 256) :
    val (uni b) i = ((streamBit b (2 * i) : Int) - streamBit b (2 * i + 1)) % 65536 := by
  have hbit (k : Nat) : ((BitVec.ofNat 16 (streamBit b k)).toNat : Int) = streamBit b k := by
    have hlt : streamBit b k < 2 := Nat.mod_lt _ (by decide)
    rw [BitVec.toNat_ofNat, Nat.mod_eq_of_lt (by omega)]
  rw [val, uni, coeff_tabulate _ _ hi, intCast_ringSub, hbit, hbit]

/-! ## The rows of a secret (R194) -/

theorem ones_one (b : Bytes) (k : Nat) : ones b k 1 = streamBit b k := by
  rw [ones, Finset.sum_range_one, Nat.add_zero]

/-- The ones of a block are the ones of the string where the block stands. -/
theorem ones_block (b : Bytes) (k : Nat) {m p n : Nat} (h : p + n ≤ 8 * m) :
    ones (slice b (k * m) ((k + 1) * m)) p n = ones b (8 * (k * m) + p) n := by
  refine Finset.sum_congr rfl fun j hj => ?_
  have hj := Finset.mem_range.mp hj
  rw [streamBit_block b k (by omega), Nat.add_assoc]

/-- The parameter of each profile is even, and 2 for the uniform ones; half of it is a count of at most 16 bits (R7). -/
theorem mu_eq (pr : Profile) : ∃ h, pr.mu = 2 * h ∧ h ≤ 16 ∧ (pr.uniform = true → h = 1) := by
  refine ⟨pr.mu / 2, ?_⟩
  cases pr <;> decide

/-- Each profile samples a block by one formula. -/
theorem val_sampled (pr : Profile) (b : Bytes) {i : Nat} (hi : i < 256) :
    val (if pr.uniform = true then uni b else cbd b pr.mu) i =
      (ones b (i * pr.mu) (pr.mu / 2) - ones b (i * pr.mu + pr.mu / 2) (pr.mu / 2)) % 65536 := by
  obtain ⟨h, hmu, hh, huni⟩ := mu_eq pr
  rw [hmu, Nat.mul_div_cancel_left h (by decide)]
  split
  case isTrue hu =>
    obtain rfl := huni hu
    rw [val_uni b hi, ones_one, ones_one, Nat.mul_one, Nat.mul_comm]
  case isFalse => exact val_cbd b hh hi

theorem val_genSecret (pr : Profile) (seed : Bytes) {k i : Nat} (hk : k < pr.L) (hi : i < 256) :
    val (elt (genSecret seed pr.L pr.mu pr.uniform) k) i =
      (ones (shake128 seed (pr.L * (32 * pr.mu))) ((k * 256 + i) * pr.mu) (pr.mu / 2) -
        ones (shake128 seed (pr.L * (32 * pr.mu))) ((k * 256 + i) * pr.mu + pr.mu / 2) (pr.mu / 2)) % 65536 := by
  have hplace : (k * 256 + i) * pr.mu = 8 * (k * (32 * pr.mu)) + i * pr.mu := by ring
  have hfield : i * pr.mu + pr.mu ≤ 8 * (32 * pr.mu) := by
    calc i * pr.mu + pr.mu = (i + 1) * pr.mu := (Nat.succ_mul i pr.mu).symm
      _ ≤ 256 * pr.mu := Nat.mul_le_mul_right pr.mu hi
      _ = 8 * (32 * pr.mu) := by ring
  rw [genSecret, elt_map_range _ _ _ hk, val_sampled pr _ hi, ones_block _ _ (by omega), ones_block _ _ (by omega),
    hplace, Nat.add_assoc]

/-! ## The elements of a generated matrix (R192) -/

theorem epsQ_le_sixteen (pr : Profile) : pr.epsQ ≤ 16 := by cases pr <;> decide

theorem val_genMatrix (seed : Bytes) {L epsQ k i : Nat} (he : epsQ ≤ 16) (hk : k < L * L) (hi : i < 256) :
    val (elt (genMatrix seed L epsQ) k) i =
      (le ((List.range (32 * epsQ)).map fun x =>
        byteAt (shake128 seed (L * L * (32 * epsQ))) (k * (32 * epsQ) + x)) : Int) / 2 ^ (i * epsQ) % 2 ^ epsQ := by
  rw [genMatrix, elt_map_range _ _ _ hk, val_decodePoly _ he hi, block_eq_map _ hk (length_shake128 _ _)]

/-! ## The statements -/

/-- A command whose conditions are its register run and the range of its access, and which then writes the run. -/
theorem faults_or_writesRun {i : Instr} {s : State} {b n a m : Nat} {qs : List Poly} {f : Nat → Nat → Int} (hs : Running s)
    (hexec : exec i s = execute i s [(runFits b n, .pregRange), (rangeOk a m, .memRange)] (s.setRun b qs))
    (hn : qs.length = n) (hv : ∀ k, k < n → ∀ j, j < 256 → val (elt qs k) j = f k j) :
    (32 < b + n → Faults i s 5) ∧ (b + n ≤ 32 → 65536 < a + m → Faults i s 6) ∧
    (b + n ≤ 32 → a + m ≤ 65536 →
      WritesRun i s b n f ∧ ∃ t, exec i s = .next t ∧ ∀ k, k < n → t.getP (b + k) = elt qs k) := by
  have hl := firstFault_runRange b n a m
  refine ⟨fun hrun => ?_, fun hrun ha => ?_, fun hrun ha => ?_⟩
  · exact faults_of_execute hs hexec (hl.trans (if_neg hrun.not_ge))
  · exact faults_of_execute hs hexec (hl.trans ((if_pos hrun).trans (if_neg ha.not_ge)))
  · have hnone := hl.trans ((if_pos hrun).trans (if_pos ha))
    obtain ⟨t, ht, hval, -⟩ := getP_of_execute hs hexec hnone hn hrun
    exact ⟨writesRun_of_execute hs hexec hnone hn hrun hv, t, ht, hval⟩

/-- Settles O40: with a profile held GENMAT has the run's and the range's condition, and writes the decoded blocks. -/
theorem generateMatrix : Obligations.GenerateMatrix := by
  unfold Obligations.GenerateMatrix
  intro pd ea s hs a seed
  refine ⟨fun hno => faults_profile hs (withProfile_none ((profile?_eq_none s).mpr hno)), fun pr hpr => ?_,
    encPM_toNat (by decide) pd ea⟩
  exact faults_or_writesRun hs (exec_genmat_held pd ea ((profile?_eq_some s pr).mpr hpr)) (length_genMatrix _ _ _)
    fun k hk i hi => val_genMatrix seed (epsQ_le_sixteen pr) hk hi

/-- Settles O41: as O40 with one column, and every profile's sampler counts the ones of two half-fields. -/
theorem generateSecret : Obligations.GenerateSecret := by
  unfold Obligations.GenerateSecret
  intro pd ea s hs a seed
  refine ⟨fun hno => faults_profile hs (withProfile_none ((profile?_eq_none s).mpr hno)), fun pr hpr => ?_,
    encPM_toNat (by decide) pd ea⟩
  exact faults_or_writesRun hs (exec_gensec_held pd ea ((profile?_eq_some s pr).mpr hpr)) (length_genSecret _ _ _ _)
    fun k hk i hi => val_genSecret pr seed hk hi

end Sys2Proof.Machine
end

section
/-! PROOFS. The sampling commands PCBD and PUNI (O31, O32). What each coefficient of a sample is stands with the secrets, which
use the same samplers; here are PCBD's parameters and the range of a centred coefficient. -/

namespace Sys2Proof.Machine

open Sys2Proof.Safety

/-! ## The parameters of PCBD (R212) -/

theorem cbdWidthOk_iff (mu : Nat) : cbdWidthOk mu = true ↔ mu ∈ [6, 8, 10] := List.contains_iff_mem

/-- PCBD's parameters are even, and half of one is a count of at most 16 bits. -/
theorem halves_of_cbdWidth {mu : Nat} (h : mu ∈ [6, 8, 10]) : 2 * (mu / 2) = mu ∧ mu / 2 ≤ 16 := by
  revert mu
  decide

theorem val_cbd_of_cbdWidth (b : Bytes) {mu i : Nat} (hmu : mu ∈ [6, 8, 10]) (hi : i < 256) :
    val (cbd b mu) i = (ones b (i * mu) (mu / 2) - ones b (i * mu + mu / 2) (mu / 2)) % 65536 := by
  obtain ⟨heven, hhalf⟩ := halves_of_cbdWidth hmu
  have hval := val_cbd b hhalf hi
  rwa [heven] at hval

/-! ## The range of a centred coefficient (R211) -/

theorem ones_nonneg (b : Bytes) (k n : Nat) : 0 ≤ ones b k n := Finset.sum_nonneg fun _ _ => Int.natCast_nonneg _

/-- The difference of the ones of two runs of `h` bits is a value from `-h` to `h`, as a residue modulo 2^16. -/
theorem ones_sub_ones_range (b : Bytes) (k l : Nat) {h : Nat} (hh : h ≤ 16) :
    (ones b k h - ones b l h) % 65536 ≤ h ∨ 65536 - h ≤ (ones b k h - ones b l h) % 65536 := by
  have hk := ones_nonneg b k h
  have hl := ones_nonneg b l h
  have hk' := ones_le b k h
  have hl' := ones_le b l h
  omega

/-! ## The statements -/

/-- Settles O31: the parameter and the range are PCBD's conditions, and each coefficient counts the ones of two half-fields. -/
theorem sampleCentredBinomial : Obligations.SampleCentredBinomial := by
  unfold Obligations.SampleCentredBinomial
  intro pd ea mu s hs a b h
  have hexec := exec_pcbd pd ea mu s
  have hl := firstFault_widthRange (cbdWidthOk mu) a (32 * mu)
  have hwidth := cbdWidthOk_iff mu
  refine ⟨fun hmu => ?_, fun hmu ha => ?_, fun hmu ha => ?_, encPMW_toNat (by decide) pd ea mu⟩
  · exact faults_of_execute hs hexec (hl.trans (if_neg (mt hwidth.mp hmu)))
  · exact faults_of_execute hs hexec (hl.trans ((if_pos (hwidth.mpr hmu)).trans (if_neg ha.not_ge)))
  · have hnone := hl.trans ((if_pos (hwidth.mpr hmu)).trans (if_pos ha))
    have hnext : exec (.pcbd pd ea mu) s = .next (s.setP pd (cbd b mu)) := hexec.trans (execute_ok hs hnone)
    refine ⟨writesPoly_of_exec hnext fun _ => val_cbd_of_cbdWidth b hmu, _, hnext, fun i hi => ?_⟩
    rw [State.getP_setP_same, val_cbd_of_cbdWidth b hmu hi]
    exact ones_sub_ones_range b _ _ (halves_of_cbdWidth hmu).2

/-- Settles O32: the range is PUNI's one condition; no profile is read. -/
theorem sampleUniform : Obligations.SampleUniform := by
  unfold Obligations.SampleUniform
  intro pd ea s hs a b
  have hexec := exec_puni pd ea s
  have hl := firstFault_rangeOk a 64
  refine ⟨fun ha => ?_, fun ha => ?_, encPM_toNat (by decide) pd ea⟩
  · exact faults_of_execute hs hexec (hl.trans (if_neg ha.not_ge))
  · exact writesPoly_of_execute hs hexec (hl.trans (if_pos ha)) fun _ => val_uni b

end Sys2Proof.Machine
end

section
/-! PROOFS. Public-key encryption (O46 to O52). Its rounding, its compression and its decision are each a right shift that is
then masked, and such a shift reads only the bits below the modulus in use: so an intermediate may be taken reduced or not
(R233). The three commands differ in their buffers and their function only. -/

namespace Sys2Proof.Machine

open Sys2Proof.Safety

/-! ## The moduli of a profile (R7) -/

theorem epsP_eq_ten (pr : Profile) : pr.epsP = 10 := by cases pr <;> rfl

theorem epsP_le_epsQ (pr : Profile) : pr.epsP ≤ pr.epsQ := by cases pr <;> decide

theorem one_le_epsP (pr : Profile) : 1 ≤ pr.epsP := by cases pr <;> decide

theorem epsT_le_epsP (pr : Profile) : pr.epsT ≤ pr.epsP := by cases pr <;> decide

theorem epsP_le_sixteen (pr : Profile) : pr.epsP ≤ 16 := (epsP_le_epsQ pr).trans (epsQ_le_sixteen pr)

theorem epsT_le_sixteen (pr : Profile) : pr.epsT ≤ 16 := (epsT_le_epsP pr).trans (epsP_le_sixteen pr)

theorem two_pow_dvd_carrier {m : Nat} (hm : m ≤ 16) : (2 ^ m : Int) ∣ 65536 := pow_dvd_pow 2 hm

theorem val_h1 (pr : Profile) {k : Nat} (hk : k < 256) : val (h1 pr) k = 2 ^ (pr.epsQ - pr.epsP - 1) := by
  rw [h1, val_polyConst_of_lt (h1Value_lt pr) hk, h1Value, Nat.cast_pow, Nat.cast_ofNat]

theorem val_h2 (pr : Profile) {k : Nat} (hk : k < 256) :
    val (h2 pr) k = 2 ^ (pr.epsP - 2) - 2 ^ (pr.epsP - pr.epsT - 1) + 2 ^ (pr.epsQ - pr.epsP - 1) :=
  (val_polyConst_of_lt (h2Value_lt pr) hk).trans (h2Value_cast pr)

/-! ## Rounding (R223, R227) -/

/-- A rounded coefficient, from any integer the coefficient agrees with modulo 2^16. -/
theorem val_roundToP (pr : Profile) {y : Poly} {k : Nat} {x : Int} (hk : k < 256) (hy : val y k ≡ x [ZMOD 65536]) :
    val (roundToP pr y) k =
      (x + 2 ^ (pr.epsQ - pr.epsP - 1)) % 2 ^ pr.epsQ / 2 ^ (pr.epsQ - pr.epsP) % 2 ^ pr.epsP := by
  have hq := epsQ_le_sixteen pr
  have hsum := (hy.of_dvd (two_pow_dvd_carrier hq)).add_right (2 ^ (pr.epsQ - pr.epsP - 1))
  rw [roundToP, val_polyMod _ (epsP_le_sixteen pr) hk, val_polyShr _ _ hk, val_polyMod _ hq hk, val_polyAdd _ _ hk,
    val_h1 pr hk, Int.emod_emod_of_dvd _ (two_pow_dvd_carrier hq), hsum]

/-- An entry of a rounded product of a matrix and a vector, the sum in unbounded integers. -/
theorem val_roundToP_matVec (pr : Profile) (A v : List Poly) {i k : Nat} (hi : i < pr.L) (hk : k < 256) :
    val (elt ((matVec A v pr.L).map (roundToP pr)) i) k =
      ((∑ j ∈ Finset.range pr.L, negacyclic (val (elt A (i * pr.L + j))) (val (elt v j)) k) +
        2 ^ (pr.epsQ - pr.epsP - 1)) % 2 ^ pr.epsQ / 2 ^ (pr.epsQ - pr.epsP) % 2 ^ pr.epsP := by
  have hlen : i < (matVec A v pr.L).length := by rwa [length_matVec]
  rw [elt_map _ _ hlen]
  refine val_roundToP pr hk ?_
  rw [val_matVec A v hi hk]
  exact Int.mod_modEq _ _

/-! ## Key generation (R223, R224) -/

/-- A vector of the profile packed at εp = 10. -/
theorem length_vecEncode_epsP (pr : Profile) {v : List Poly} (hv : v.length = pr.L) :
    (vecEncode v pr.epsP).length = pr.L * 320 := by
  rw [length_vecEncode, hv, epsP_eq_ten]

/-- Settles O46: element (i, j) of the transpose is element (j, i) of A, and each row is rounded from its unbounded sum. -/
theorem pkeKeygenFunction : Obligations.PkeKeygenFunction := by
  unfold Obligations.PkeKeygenFunction
  intro pr seedA seedS seedA' A s
  have hlen : ((matVec (transpose A pr.L) s pr.L).map (roundToP pr)).length = pr.L := by
    rw [List.length_map, length_matVec]
  refine ⟨_, hlen, fun i k hi hk => ?_, rfl, length_pkeKeygen_pk _ _ _, length_pkeKeygen_sk _ _ _,
    length_vecEncode_epsP pr hlen⟩
  have htranspose (j : Nat) (hj : j ∈ Finset.range pr.L) :
      elt (transpose A pr.L) (i * pr.L + j) = elt A (j * pr.L + i) :=
    elt_transpose A pr.L i j hi (Finset.mem_range.mp hj)
  rw [val_roundToP_matVec pr _ s hi hk, Finset.sum_congr rfl fun j hj => by rw [htranspose j hj]]

/-! ## Encryption (R227, R229) -/

/-- There is no coefficient past 255; reading one gives 0. -/
theorem val_of_ge (q : Poly) {j : Nat} (hj : 256 ≤ j) : val q j = 0 := by
  simp [val, coeff, hj]

theorem val_polyMod_eq (q : Poly) {eps : Nat} (he : eps ≤ 16) : val (polyMod q eps) = fun j => val q j % 2 ^ eps := by
  funext j
  by_cases hj : j < 256
  · exact val_polyMod q he hj
  · rw [val_of_ge _ (not_lt.mp hj), val_of_ge _ (not_lt.mp hj), Int.zero_emod]

/-- The inner product with a reduced vector (R227 step 6, R230). -/
theorem val_inner_map_polyMod (a b : List Poly) {L eps k : Nat} (hb : b.length = L) (he : eps ≤ 16) (hk : k < 256) :
    val (inner a (b.map fun q => polyMod q eps) L) k =
      (∑ i ∈ Finset.range L, negacyclic (val (elt a i)) (fun j => val (elt b i) j % 2 ^ eps) k) % 65536 := by
  rw [val_inner _ _ _ hk]
  refine congrArg (· % 65536) (Finset.sum_congr rfl fun i hi => ?_)
  have hi : i < b.length := hb ▸ Finset.mem_range.mp hi
  rw [elt_map _ _ hi, val_polyMod_eq _ he]

/-- Bit `k` of the message is coefficient `k` of its polynomial (R229). -/
theorem val_decodePoly_one (b : Bytes) {k : Nat} (hk : k < 256) : val (decodePoly b 1) k = streamBit b k := by
  rw [val, toNat_coeff_decodePoly b (by decide) hk, Nat.mul_one, Nat.pow_one, le_bit]

/-- A sub-string that ends where the string does. -/
theorem slice_to_end {b : Bytes} {i j : Nat} (h : b.length = j) : slice b i j = b.drop i := by
  rw [slice, ← h, ← List.length_drop, List.take_length]

theorem pkLen_eq (pr : Profile) : pr.pkLen = pr.L * 320 + 32 := by
  rw [Profile.pkLen, epsP_eq_ten]
  omega

theorem ctLen_eq (pr : Profile) : pr.ctLen = pr.L * 320 + 32 * pr.epsT := by
  rw [Profile.ctLen, epsP_eq_ten]
  omega

/-- Step 8 of R227: the compression of the difference of v' and the lifted message. -/
def compressToT (pr : Profile) (v m : Poly) : Poly :=
  polyMod (polyShr (polyAdd (polySub v m) (h1 pr)) (pr.epsP - pr.epsT)) pr.epsT

theorem val_compressToT (pr : Profile) (v m : Poly) {k : Nat} (hk : k < 256) : val (compressToT pr v m) k =
    (val v k - val m k + 2 ^ (pr.epsQ - pr.epsP - 1)) % 65536 / 2 ^ (pr.epsP - pr.epsT) % 2 ^ pr.epsT := by
  rw [compressToT, val_polyMod _ (epsT_le_sixteen pr) hk, val_polyShr _ _ hk, val_polyAdd _ _ hk, val_polySub _ _ hk,
    val_h1 pr hk, Int.emod_add_emod]

/-- The steps of R227, with step 8 by its name. -/
theorem pkeEncrypt_eq (pr : Profile) (msg seedS pk : Bytes) : pkeEncrypt pr msg seedS pk =
    let A := genMatrix (slice pk (pr.L * 320) (pr.L * 320 + 32)) pr.L pr.epsQ
    let s' := genSecret seedS pr.L pr.mu pr.uniform
    let b := vecDecode (slice pk 0 (pr.L * 320)) pr.L pr.epsP
    vecEncode ((matVec A s' pr.L).map (roundToP pr)) pr.epsP ++
      encodePoly (compressToT pr (polyMod (inner b (s'.map fun q => polyMod q pr.epsP) pr.L) pr.epsP)
        (polyMod (polyShl (decodePoly msg 1) (pr.epsP - 1)) pr.epsP)) pr.epsT := rfl

/-- Settles O47: pk splits into its vector and its seed, and each mask reduces an unbounded sum. -/
theorem pkeEncryptFunction : Obligations.PkeEncryptFunction := by
  unfold Obligations.PkeEncryptFunction
  intro pr msg seedS pk _ _ hpk A s' b c v' mp
  have hp := epsP_le_sixteen pr
  have hdvd := two_pow_dvd_carrier hp
  have hseed : slice pk (pr.L * 320) (pr.L * 320 + 32) = pk.drop (pr.L * 320) := slice_to_end (hpk.trans (pkLen_eq pr))
  have hbytes := pkeEncrypt_eq pr msg seedS pk
  rw [hseed] at hbytes
  have hlen : ((matVec A s' pr.L).map (roundToP pr)).length = pr.L := by rw [List.length_map, length_matVec]
  refine ⟨_, _, hlen, fun i k hi hk => val_roundToP_matVec pr A s' hi hk, fun k hk => ?_, hbytes,
    length_pkeEncrypt _ _ _ _, length_vecEncode_epsP pr hlen⟩
  have hv : val (polyMod (inner b (s'.map fun q => polyMod q pr.epsP) pr.L) pr.epsP) k = v' k := by
    rw [val_polyMod _ hp hk, val_inner_map_polyMod b s' (length_genSecret _ _ _ _) hp hk, Int.emod_emod_of_dvd _ hdvd]
  have hm : val (polyMod (polyShl (decodePoly msg 1) (pr.epsP - 1)) pr.epsP) k = mp k := by
    rw [val_polyMod _ hp hk, val_polyShl _ _ hk, val_decodePoly_one msg hk, Int.emod_emod_of_dvd _ hdvd]
  rw [← hv, ← hm]
  exact val_compressToT pr _ _ hk

/-! ## Decryption (R230) -/

/-- The last step of R230: the message bits of the difference of v and the shifted c_m. -/
def messagePoly (pr : Profile) (v c : Poly) : Poly :=
  polyMod (polyShr (polyAdd (polySub v c) (h2 pr)) (pr.epsP - 1)) 1

theorem val_messagePoly (pr : Profile) (v c : Poly) {k : Nat} (hk : k < 256) : val (messagePoly pr v c) k =
    (val v k - val c k + (2 ^ (pr.epsP - 2) - 2 ^ (pr.epsP - pr.epsT - 1) + 2 ^ (pr.epsQ - pr.epsP - 1))) % 65536 /
      2 ^ (pr.epsP - 1) % 2 := by
  rw [messagePoly, val_polyMod _ (by decide) hk, val_polyShr _ _ hk, val_polyAdd _ _ hk, val_polySub _ _ hk,
    val_h2 pr hk, Int.emod_add_emod, pow_one]

/-- The steps of R230, with the last by its name. -/
theorem pkeDecrypt_eq (pr : Profile) (ct sk : Bytes) : pkeDecrypt pr ct sk =
    let s := vecDecode sk pr.L pr.epsQ
    let c := polyShl (decodePoly (slice ct (pr.L * 320) (pr.L * 320 + 32 * pr.epsT)) pr.epsT) (pr.epsP - pr.epsT)
    let b' := vecDecode (slice ct 0 (pr.L * 320)) pr.L pr.epsP
    encodePoly (messagePoly pr (inner b' (s.map fun q => polyMod q pr.epsP) pr.L) (polyMod c pr.epsP)) 1 := rfl

/-- A coefficient of the message polynomial is one bit of the message. -/
theorem intCast_streamBit_messagePoly (pr : Profile) (v c : Poly) {k : Nat} (hk : k < 256) :
    (streamBit (encodePoly (messagePoly pr v c) 1) k : Int) = val (messagePoly pr v c) k := by
  have hbit := intCast_streamBit_encodePoly (messagePoly pr v c) (eps := 1) (j := 0) hk (by decide)
  rw [Nat.mul_one, Nat.add_zero, pow_zero, Int.ediv_one] at hbit
  rw [hbit, val_messagePoly pr v c hk, Int.emod_emod_of_dvd _ dvd_rfl]

/-- Settles O48: ct splits into its vector and c_m, and each bit of the message is a coefficient's bit εp - 1. -/
theorem pkeDecryptFunction : Obligations.PkeDecryptFunction := by
  unfold Obligations.PkeDecryptFunction
  intro pr ct sk hct _ s b' d cm v c
  have hp := epsP_le_sixteen pr
  have htail : slice ct (pr.L * 320) (pr.L * 320 + 32 * pr.epsT) = ct.drop (pr.L * 320) :=
    slice_to_end (hct.trans (ctLen_eq pr))
  refine ⟨length_pkeDecrypt _ _ _, fun k hk => ?_⟩
  have hv : val (inner b' (s.map fun q => polyMod q pr.epsP) pr.L) k = v k :=
    val_inner_map_polyMod b' s (length_vecDecode _ _ _) hp hk
  have hcm : val (polyMod (polyShl d (pr.epsP - pr.epsT)) pr.epsP) k = cm k % 2 ^ pr.epsP := by
    rw [val_polyMod _ hp hk, val_polyShl _ _ hk]
  rw [pkeDecrypt_eq, htail, intCast_streamBit_messagePoly pr _ _ hk, val_messagePoly pr _ _ hk, ← hv, ← hcm]
  rfl

/-! ## The masks before the right shifts (R233) -/

/-- A value shifted right by `sh` and masked to `e` bits depends on its bits below `sh + e` only. -/
theorem shift_mask_congr {x y : Int} {sh e : Nat} (h : x ≡ y [ZMOD 2 ^ (sh + e)]) :
    x / 2 ^ sh % 2 ^ e = y / 2 ^ sh % 2 ^ e := by
  obtain ⟨c, hc⟩ := h.symm.dvd
  obtain rfl : x = y + 2 ^ sh * (2 ^ e * c) := by rw [← mul_assoc, ← pow_add, ← hc]; ring
  rw [Int.add_mul_ediv_left _ _ (by positivity), Int.add_mul_emod_self_left]

/-- The coefficients of the two polynomials agree modulo `2 ^ m`. -/
def SameMod (m : Nat) (a b : Poly) : Prop := ∀ k, val a k ≡ val b k [ZMOD 2 ^ m]

section SameMod

variable {m : Nat} {a a' b b' : Poly}

theorem sameMod_of_lt (h : ∀ k, k < 256 → val a k ≡ val b k [ZMOD 2 ^ m]) : SameMod m a b := by
  intro k
  by_cases hk : k < 256
  · exact h k hk
  · rw [val_of_ge _ (not_lt.mp hk), val_of_ge _ (not_lt.mp hk)]

theorem sameMod_refl (a : Poly) : SameMod m a a := fun _ => rfl

theorem SameMod.trans {c : Poly} (h : SameMod m a b) (h' : SameMod m b c) : SameMod m a c := fun k => (h k).trans (h' k)

theorem sameMod_polyMod (a : Poly) (hm : m ≤ 16) : SameMod m (polyMod a m) a := fun k => by
  rw [val_polyMod_eq a hm]
  exact Int.mod_modEq _ _

/-- Integers that agree modulo `2 ^ m` still do so once both are reduced to the carrier (R101). -/
theorem carrier_modEq {x y : Int} (hm : m ≤ 16) (h : x ≡ y [ZMOD 2 ^ m]) : x % 65536 ≡ y % 65536 [ZMOD 2 ^ m] := by
  have hdvd := two_pow_dvd_carrier hm
  exact ((Int.mod_modEq x _).of_dvd hdvd).trans (h.trans ((Int.mod_modEq y _).of_dvd hdvd).symm)

theorem SameMod.add (hm : m ≤ 16) (ha : SameMod m a a') (hb : SameMod m b b') :
    SameMod m (polyAdd a b) (polyAdd a' b') := sameMod_of_lt fun k hk => by
  rw [val_polyAdd _ _ hk, val_polyAdd _ _ hk]
  exact carrier_modEq hm ((ha k).add (hb k))

theorem SameMod.sub (hm : m ≤ 16) (ha : SameMod m a a') (hb : SameMod m b b') :
    SameMod m (polySub a b) (polySub a' b') := sameMod_of_lt fun k hk => by
  rw [val_polySub _ _ hk, val_polySub _ _ hk]
  exact carrier_modEq hm ((ha k).sub (hb k))

theorem sameMod_inner (hm : m ≤ 16) (u : List Poly) {v w : List Poly} {L : Nat}
    (h : ∀ i, i < L → SameMod m (elt v i) (elt w i)) : SameMod m (inner u v L) (inner u w L) := sameMod_of_lt fun k hk => by
  rw [val_inner _ _ _ hk, val_inner _ _ _ hk]
  refine carrier_modEq hm (Int.ModEq.sum fun i hi => ?_)
  exact negacyclic_modEq (fun _ => rfl) (h i (Finset.mem_range.mp hi)) k

theorem sameMod_inner_map_polyMod (hm : m ≤ 16) (u : List Poly) {v : List Poly} {L : Nat} (hv : v.length = L) :
    SameMod m (inner u (v.map fun q => polyMod q m) L) (inner u v L) :=
  sameMod_inner hm u fun i hi => by
    rw [elt_map _ _ (hv ▸ hi)]
    exact sameMod_polyMod _ hm

/-- The one fact behind all three right shifts: shifted and masked, polynomials that agree below the modulus are one. -/
theorem SameMod.shift_mask {sh e : Nat} (h : SameMod m a b) (hm : m = sh + e) (he : e ≤ 16) :
    polyMod (polyShr a sh) e = polyMod (polyShr b sh) e := poly_ext_val fun k hk => by
  subst hm
  rw [val_polyMod _ he hk, val_polyMod _ he hk, val_polyShr _ _ hk, val_polyShr _ _ hk, shift_mask_congr (h k)]

end SameMod

/-- The rounding of step 4 without its mod q. -/
theorem roundToP_unmasked (pr : Profile) (y : Poly) :
    roundToP pr y = polyMod (polyShr (polyAdd y (h1 pr)) (pr.epsQ - pr.epsP)) pr.epsP :=
  (sameMod_polyMod _ (epsQ_le_sixteen pr)).shift_mask (Nat.sub_add_cancel (epsP_le_epsQ pr)).symm (epsP_le_sixteen pr)

theorem compressToT_congr {pr : Profile} {v v' m m' : Poly} (hv : SameMod pr.epsP v v') (hm : SameMod pr.epsP m m') :
    compressToT pr v m = compressToT pr v' m' :=
  ((hv.sub (epsP_le_sixteen pr) hm).add (epsP_le_sixteen pr) (sameMod_refl _)).shift_mask
    (Nat.sub_add_cancel (epsT_le_epsP pr)).symm (epsT_le_sixteen pr)

theorem messagePoly_congr {pr : Profile} {v v' c c' : Poly} (hv : SameMod pr.epsP v v') (hc : SameMod pr.epsP c c') :
    messagePoly pr v c = messagePoly pr v' c' :=
  ((hv.sub (epsP_le_sixteen pr) hc).add (epsP_le_sixteen pr) (sameMod_refl _)).shift_mask
    (Nat.sub_add_cancel (one_le_epsP pr)).symm (by decide)

/-- Settles O49: an operand of a right shift with its mask and one without agree modulo the modulus in use. -/
theorem pkeMasksAreRedundant : Obligations.PkeMasksAreRedundant := by
  unfold Obligations.PkeMasksAreRedundant
  refine ⟨roundToP_unmasked, fun pr msg seedS pk => ?_, fun pr ct sk => ?_⟩
  · have hp := epsP_le_sixteen pr
    have hbp (l : List Poly) : l.map (roundToP pr) = l.map _ := List.map_congr_left fun y _ => roundToP_unmasked pr y
    have hv (b : List Poly) := (sameMod_polyMod _ hp).trans
      (sameMod_inner_map_polyMod hp b (length_genSecret seedS pr.L pr.mu pr.uniform))
    exact (pkeEncrypt_eq pr msg seedS pk).trans (congrArg₂ (fun bp cm => vecEncode bp pr.epsP ++ encodePoly cm pr.epsT)
      (hbp _) (compressToT_congr (hv _) (sameMod_polyMod _ hp)))
  · have hp := epsP_le_sixteen pr
    have hv (b : List Poly) := sameMod_inner_map_polyMod hp b (length_vecDecode sk pr.L pr.epsQ)
    exact (pkeDecrypt_eq pr ct sk).trans (congrArg (encodePoly · 1) (messagePoly_congr (hv _) (sameMod_polyMod _ hp)))

/-! ## The commands (R221, R225, R228, R231) -/

/-- The word of format KK (R84), which lays its fields out as S2 does. -/
theorem encKK_toNat {op : Nat} (h : op < 256) (ed es : Fin 16) :
    (encKK op ed es).toNat = op * 2 ^ 24 + ed * 2 ^ 20 + es * 2 ^ 16 := encS2_toNat h ed es

section BufferCommand

variable {i : Instr} {ed es : SReg} {nin nout : Profile → Nat} {f : Profile → Bytes → Bytes} {s : State}

theorem faults_bufferCommand_noProfile (hs : Running s) (hexec : exec i s = bufferCommand i ed es nin nout f s)
    (hno : NoProfile s) : Faults i s 2 :=
  faults_profile hs (hexec.trans (bufferCommand_none _ _ _ _ _ _ ((profile?_eq_none s).mpr hno)))

theorem faults_bufferCommand_range (hs : Running s) (hexec : exec i s = bufferCommand i ed es nin nout f s) {pr : Profile}
    (hpr : HoldsProfile s pr) (hpast : 65536 < s.addr es + nin pr ∨ 65536 < s.addr ed + nout pr) : Faults i s 6 := by
  have hheld := bufferCommand_held i ed es nin nout f ((profile?_eq_some s pr).mpr hpr)
  have hranges : (rangeOk (s.addr es) (nin pr) && rangeOk (s.addr ed) (nout pr)) = true ↔
      ¬(65536 < s.addr es + nin pr ∨ 65536 < s.addr ed + nout pr) := by
    rw [Bool.and_eq_true, rangeOk_iff, rangeOk_iff]
    omega
  exact faults_of_execute hs (hexec.trans hheld) (firstFault_fails hranges hpast)

/-- With both ranges inside DMEM the command stores its function of the source, read before anything is written. -/
theorem stores_bufferCommand (hs : Running s) (hexec : exec i s = bufferCommand i ed es nin nout f s) {pr : Profile}
    (hpr : HoldsProfile s pr) (hsrc : s.addr es + nin pr ≤ 65536) (hdst : s.addr ed + nout pr ≤ 65536) :
    Stores i s (s.addr ed) (f pr (s.memRead (s.addr es) (nin pr))) :=
  stores_of_exec (hexec.trans (bufferCommand_ok hs ((profile?_eq_some s pr).mpr hpr) hsrc hdst))

/-- The three outcomes of a buffer command, its result given as a string `g pr` of the bytes read. -/
theorem bufferCommand_outcomes {g : Profile → Bytes} (hs : Running s)
    (hexec : exec i s = bufferCommand i ed es nin nout f s)
    (hg : ∀ pr, f pr (s.memRead (s.addr es) (nin pr)) = g pr) (hlen : ∀ pr, (g pr).length = nout pr) :
    (NoProfile s → Faults i s 2) ∧ ∀ pr, HoldsProfile s pr →
      (65536 < s.addr es + nin pr ∨ 65536 < s.addr ed + nout pr → Faults i s 6) ∧
      (s.addr es + nin pr ≤ 65536 → s.addr ed + nout pr ≤ 65536 →
        Stores i s (s.addr ed) (g pr) ∧ (g pr).length = nout pr) :=
  ⟨faults_bufferCommand_noProfile hs hexec, fun pr hpr => ⟨faults_bufferCommand_range hs hexec hpr, fun hsrc hdst =>
    ⟨hg pr ▸ stores_bufferCommand hs hexec hpr hsrc hdst, hlen pr⟩⟩⟩

end BufferCommand

/-- A part of a range of DMEM is the range that starts there. -/
theorem slice_memRead (s : State) (a : Nat) {i n m : Nat} (h : i + n ≤ m) :
    slice (s.memRead a m) i (i + n) = s.memRead (a + i) n := by
  rw [slice_eq_map _ (h.trans_eq (State.length_memRead s a m).symm)]
  refine List.map_congr_left fun x hx => ?_
  have hx := List.mem_range.mp hx
  rw [State.byteAt_memRead _ _ _ _ (by omega), ← Nat.add_assoc]
  rfl

/-! What each command writes, as a function of the parts of its source in memory. -/

theorem pkeKeygenBytes_memRead (pr : Profile) (s : State) (a : Nat) :
    pkeKeygenBytes pr (s.memRead a 64) =
      (pkeKeygen pr (s.memRead a 32) (s.memRead (a + 32) 32)).1 ++
        (pkeKeygen pr (s.memRead a 32) (s.memRead (a + 32) 32)).2 := by
  have hA : slice (s.memRead a 64) 0 32 = s.memRead a 32 := slice_memRead s a (i := 0) (n := 32) (by decide)
  have hS : slice (s.memRead a 64) 32 64 = s.memRead (a + 32) 32 := slice_memRead s a (i := 32) (n := 32) (by decide)
  rw [pkeKeygenBytes, hA, hS]

theorem pkeEncBytes_memRead (pr : Profile) (s : State) (a : Nat) :
    pkeEncBytes pr (s.memRead a (64 + pr.pkLen)) =
      pkeEncrypt pr (s.memRead a 32) (s.memRead (a + 32) 32) (s.memRead (a + 64) pr.pkLen) := by
  have hmsg : slice (s.memRead a (64 + pr.pkLen)) 0 32 = s.memRead a 32 := slice_memRead s a (i := 0) (n := 32) (by omega)
  have hseed : slice (s.memRead a (64 + pr.pkLen)) 32 64 = s.memRead (a + 32) 32 :=
    slice_memRead s a (i := 32) (n := 32) (by omega)
  rw [pkeEncBytes, hmsg, hseed, slice_memRead s a (Nat.le_refl _)]

theorem pkeDecBytes_memRead (pr : Profile) (s : State) (a : Nat) :
    pkeDecBytes pr (s.memRead a (pr.ctLen + pr.pkeSkLen)) =
      pkeDecrypt pr (s.memRead a pr.ctLen) (s.memRead (a + pr.ctLen) pr.pkeSkLen) := by
  have hct : slice (s.memRead a (pr.ctLen + pr.pkeSkLen)) 0 pr.ctLen = s.memRead a pr.ctLen := by
    simpa using slice_memRead s a (i := 0) (n := pr.ctLen) (m := pr.ctLen + pr.pkeSkLen) (by omega)
  rw [pkeDecBytes, hct, slice_memRead s a (Nat.le_refl _)]

/-- Settles O50: the buffer command of `pkeKeygen` on the two seeds. -/
theorem pkeKeygenCommand : Obligations.PkeKeygenCommand := by
  unfold Obligations.PkeKeygenCommand
  intro ed es s hs src dst
  have hbytes (pr : Profile) := pkeKeygenBytes_memRead pr s src
  obtain ⟨hno, hheld⟩ := bufferCommand_outcomes hs (exec_pkeKeygen ed es s) hbytes
    fun pr => hbytes pr ▸ length_pkeKeygenBytes pr _
  exact ⟨hno, hheld, encKK_toNat (by decide) ed es⟩

/-- Settles O51: the buffer command of `pkeEncrypt` on the message, the randomness and pk. -/
theorem pkeEncryptCommand : Obligations.PkeEncryptCommand := by
  unfold Obligations.PkeEncryptCommand
  intro ed es s hs src dst
  obtain ⟨hno, hheld⟩ := bufferCommand_outcomes hs (exec_pkeEnc ed es s) (fun pr => pkeEncBytes_memRead pr s src)
    fun pr => length_pkeEncrypt pr _ _ _
  exact ⟨hno, hheld, encKK_toNat (by decide) ed es⟩

/-- Settles O52: the buffer command of `pkeDecrypt` on the cipher text and sk_pke. -/
theorem pkeDecryptCommand : Obligations.PkeDecryptCommand := by
  unfold Obligations.PkeDecryptCommand
  intro ed es s hs src dst
  obtain ⟨hno, hheld⟩ := bufferCommand_outcomes hs (exec_pkeDec ed es s) (fun pr => pkeDecBytes_memRead pr s src)
    fun pr => length_pkeDecrypt pr _ _
  exact ⟨hno, hheld, encKK_toNat (by decide) ed es⟩

end Sys2Proof.Machine
end

section
/-! PROOFS. Key encapsulation (O53 to O57). The secret key is four strings one after the other, so decapsulation reads each of
them back, from a string or from DMEM alike; encapsulation and the round trip are then equations between the same values. -/

namespace Sys2Proof.Machine

open Sys2Proof.Safety

/-! ## Parts of strings and of DMEM (R9, R50) -/

theorem slice_append_middle (a b c : Bytes) : slice (a ++ b ++ c) a.length (a.length + b.length) = b := by
  simp [slice]

/-- A range of DMEM is its first part and then the rest. -/
theorem memRead_add (s : State) (a m n : Nat) : s.memRead a (m + n) = s.memRead a m ++ s.memRead (a + m) n := by
  simp [State.memRead, Memory.readRange, List.range_add, Nat.add_assoc]

/-- The two halves of G: the first 32 bytes and the last 32 (R240). -/
theorem slice_hashG_first (x : Bytes) : slice (hashG x) 0 32 = (hashG x).take 32 := rfl

theorem slice_hashG_last (x : Bytes) : slice (hashG x) 32 64 = (hashG x).drop 32 := slice_to_end (length_hashG x)

/-! ## The functions (R246, R248) -/

/-- The steps of R246 as the pair they give. -/
theorem kemEncaps_eq (pr : Profile) (m pk : Bytes) : kemEncaps pr m pk =
    let kr := hashG (hashH m ++ hashH pk)
    let ct := pkeEncrypt pr (hashH m) (kr.drop 32) pk
    (ct, hashH (kr.take 32 ++ hashH ct)) := by
  simp only [kemEncaps, slice_hashG_first, slice_hashG_last]

/-- Decapsulation with the parts of the secret key: k when the re-encryption of the message decrypted equals ct, else z. -/
theorem kemDecaps_append {pr : Profile} (ct : Bytes) {skPke pk hpk z : Bytes} (hskPke : skPke.length = pr.pkeSkLen)
    (hpkLen : pk.length = pr.pkLen) (hhpk : hpk.length = 32) (hz : z.length = 32) :
    kemDecaps pr ct (skPke ++ pk ++ hpk ++ z) =
      let m := pkeDecrypt pr ct skPke
      let kr := hashG (m ++ hpk)
      hashH ((if ct = pkeEncrypt pr m (kr.drop 32) pk then kr.take 32 else z) ++ hashH ct) := by
  have hsk0 : slice (skPke ++ pk ++ hpk ++ z) 0 pr.pkeSkLen = skPke := by
    simpa [hskPke] using slice_append_left skPke (pk ++ (hpk ++ z))
  have hsk1 : slice (skPke ++ pk ++ hpk ++ z) pr.pkeSkLen (pr.pkeSkLen + pr.pkLen) = pk := by
    simpa [hskPke, hpkLen] using slice_append_middle skPke pk (hpk ++ z)
  have hsk2 : slice (skPke ++ pk ++ hpk ++ z) (pr.pkeSkLen + pr.pkLen) (pr.pkeSkLen + pr.pkLen + 32) = hpk := by
    simpa [hskPke, hpkLen, hhpk] using slice_append_middle (skPke ++ pk) hpk z
  have hsk3 : slice (skPke ++ pk ++ hpk ++ z) (pr.pkeSkLen + pr.pkLen + 32) (pr.pkeSkLen + pr.pkLen + 64) = z := by
    simpa [hskPke, hpkLen, hhpk, Nat.add_assoc] using slice_append_right (skPke ++ pk ++ hpk) z 32 hz.symm
  have hlen (x : Bytes) : ((hashG x).take 32).length = z.length := by simp [hz]
  simp only [kemDecaps, hsk0, hsk1, hsk2, hsk3, slice_hashG_first, slice_hashG_last, ctSel_eqFlag _ _ (hlen _)]

/-! ## What each command writes, as a function of the parts of its source in memory -/

theorem kemKeygenBytes_memRead (pr : Profile) (s : State) (a : Nat) :
    kemKeygenBytes pr (s.memRead a 96) =
      let k := pkeKeygen pr (s.memRead a 32) (s.memRead (a + 32) 32)
      k.1 ++ (k.2 ++ k.1 ++ hashH k.1 ++ s.memRead (a + 64) 32) := by
  have hA : slice (s.memRead a 96) 0 32 = s.memRead a 32 := slice_memRead s a (i := 0) (n := 32) (by decide)
  have hS : slice (s.memRead a 96) 32 64 = s.memRead (a + 32) 32 := slice_memRead s a (i := 32) (n := 32) (by decide)
  have hz : slice (s.memRead a 96) 64 96 = s.memRead (a + 64) 32 := slice_memRead s a (i := 64) (n := 32) (by decide)
  simp only [kemKeygenBytes, kemKeygen, hA, hS, hz]

theorem kemEncapsBytes_memRead (pr : Profile) (s : State) (a : Nat) :
    kemEncapsBytes pr (s.memRead a (32 + pr.pkLen)) =
      let kr := hashG (hashH (s.memRead a 32) ++ hashH (s.memRead (a + 32) pr.pkLen))
      let ct := pkeEncrypt pr (hashH (s.memRead a 32)) (kr.drop 32) (s.memRead (a + 32) pr.pkLen)
      ct ++ hashH (kr.take 32 ++ hashH ct) := by
  have hm : slice (s.memRead a (32 + pr.pkLen)) 0 32 = s.memRead a 32 := slice_memRead s a (i := 0) (n := 32) (by omega)
  have hpk : slice (s.memRead a (32 + pr.pkLen)) 32 (32 + pr.pkLen) = s.memRead (a + 32) pr.pkLen :=
    slice_memRead s a (Nat.le_refl _)
  simp only [kemEncapsBytes, hm, hpk, kemEncaps_eq]

/-- The secret key in DMEM is its four parts (R243). -/
theorem memRead_skLen (pr : Profile) (s : State) (a : Nat) : s.memRead a pr.skLen =
    s.memRead a pr.pkeSkLen ++ s.memRead (a + pr.pkeSkLen) pr.pkLen ++ s.memRead (a + pr.pkeSkLen + pr.pkLen) 32 ++
      s.memRead (a + pr.pkeSkLen + pr.pkLen + 32) 32 := by
  simp only [Profile.skLen, memRead_add, ← Nat.add_assoc]

theorem kemDecapsBytes_memRead (pr : Profile) (s : State) (a : Nat) :
    kemDecapsBytes pr (s.memRead a (pr.ctLen + pr.skLen)) =
      let ct := s.memRead a pr.ctLen
      let sk := a + pr.ctLen
      let m := pkeDecrypt pr ct (s.memRead sk pr.pkeSkLen)
      let kr := hashG (m ++ s.memRead (sk + pr.pkeSkLen + pr.pkLen) 32)
      let ct' := pkeEncrypt pr m (kr.drop 32) (s.memRead (sk + pr.pkeSkLen) pr.pkLen)
      hashH ((if ct = ct' then kr.take 32 else s.memRead (sk + pr.pkeSkLen + pr.pkLen + 32) 32) ++ hashH ct) := by
  have hct : slice (s.memRead a (pr.ctLen + pr.skLen)) 0 pr.ctLen = s.memRead a pr.ctLen := by
    simpa using slice_memRead s a (i := 0) (n := pr.ctLen) (m := pr.ctLen + pr.skLen) (by omega)
  rw [kemDecapsBytes, hct, slice_memRead s a (Nat.le_refl _), memRead_skLen]
  exact kemDecaps_append _ (State.length_memRead _ _ _) (State.length_memRead _ _ _) (State.length_memRead _ _ _)
    (State.length_memRead _ _ _)

/-! ## The commands (R245, R247, R249) -/

/-- Settles O53: the buffer command of `kemKeygen` on the two seeds and z. -/
theorem kemKeygenCommand : Obligations.KemKeygenCommand := by
  unfold Obligations.KemKeygenCommand
  intro ed es s hs src dst
  have hbytes (pr : Profile) := kemKeygenBytes_memRead pr s src
  obtain ⟨hno, hheld⟩ := bufferCommand_outcomes hs (exec_kemKeygen ed es s) hbytes
    fun pr => hbytes pr ▸ length_kemKeygenBytes pr _ (State.length_memRead s src 96)
  refine ⟨hno, fun pr hpr => ?_, encKK_toNat (by decide) ed es⟩
  obtain ⟨hrange, hstores⟩ := hheld pr hpr
  refine ⟨hrange, fun hsrc hdst => ?_⟩
  obtain ⟨hstore, hlen⟩ := hstores hsrc hdst
  exact ⟨hstore, hlen, length_kemKeygen_sk pr _ _ _ (State.length_memRead s (src + 64) 32)⟩

/-- Settles O54: the buffer command of `kemEncaps` on m and pk. -/
theorem kemEncapsCommand : Obligations.KemEncapsCommand := by
  unfold Obligations.KemEncapsCommand
  intro ed es s hs src dst
  have hbytes (pr : Profile) := kemEncapsBytes_memRead pr s src
  obtain ⟨hno, hheld⟩ := bufferCommand_outcomes hs (exec_kemEncaps ed es s) hbytes
    fun pr => hbytes pr ▸ length_kemEncapsBytes pr _
  exact ⟨hno, hheld, encKK_toNat (by decide) ed es⟩

/-- Settles O55: the buffer command of `kemDecaps` on ct and sk, which has one outcome for every content of both. -/
theorem kemDecapsCommand : Obligations.KemDecapsCommand := by
  unfold Obligations.KemDecapsCommand
  intro ed es s hs src dst
  obtain ⟨hno, hheld⟩ := bufferCommand_outcomes hs (exec_kemDecaps ed es s) (fun pr => kemDecapsBytes_memRead pr s src)
    fun pr => length_hashH _
  exact ⟨hno, hheld, encKK_toNat (by decide) ed es⟩

/-! ## Implicit rejection and the round trip (R250, R251) -/

/-- Settles O56: the select is on data, so z shows in the value of a rejected ct only, and in no register. -/
theorem implicitRejection : Obligations.ImplicitRejection := by
  unfold Obligations.ImplicitRejection
  constructor
  · intro pr ct skPke pk hpk z _ hskPke hpkLen hhpk hz m kr ct'
    have hdecaps {y : Bytes} (hy : y.length = 32) : kemDecaps pr ct (skPke ++ pk ++ hpk ++ y) =
        hashH ((if ct = ct' then kr.take 32 else y) ++ hashH ct) := kemDecaps_append ct hskPke hpkLen hhpk hy
    refine ⟨fun hreject => ?_, fun haccept => ?_, fun haccept y hy => ?_⟩
    · rw [hdecaps hz, if_neg hreject.symm]
    · rw [hdecaps hz, if_pos haccept.symm]
    · rw [hdecaps hz, hdecaps hy, if_pos haccept.symm, if_pos haccept.symm]
  · intro ed es s pr hs hpr hsrc hdst
    obtain ⟨t, ht, -, hscalars, hpolys, -, hcontrol, -⟩ :=
      stores_bufferCommand hs (exec_kemDecaps ed es s) hpr hsrc hdst
    exact ⟨t, ht, (State.faulted_congr hcontrol.2.1).trans hs, hcontrol, hscalars, hpolys⟩

/-- Settles O57: once H(m) is decrypted, decapsulation computes k and r as encapsulation did, and its re-encryption is ct. -/
theorem kemRoundTripReducesToPke : Obligations.KemRoundTripReducesToPke := by
  unfold Obligations.KemRoundTripReducesToPke
  intro pr seedA seedS z m hz k c d kr
  have hdecaps : kemDecaps pr c.1 k.2 =
      hashH ((if c.1 = pkeEncrypt pr d (kr.drop 32) k.1 then kr.take 32 else z) ++ hashH c.1) :=
    kemDecaps_append c.1 (length_pkeKeygen_sk pr seedA seedS) (length_pkeKeygen_pk pr seedA seedS) (length_hashH k.1) hz
  have hkr (hd : d = hashH m) : kr = hashG (hashH m ++ hashH k.1) := congrArg (fun x => hashG (x ++ hashH k.1)) hd
  have hencaps : c = _ := kemEncaps_eq pr m k.1
  clear_value kr d c k
  rw [hdecaps]
  by_cases hd : d = hashH m
  · rw [if_pos hd, hencaps, hd, hkr hd, if_pos rfl]
  · rw [if_neg hd]

end Sys2Proof.Machine
end

section
/-! PROOFS. The constant-time commands (O59, O60) and SETPROF (O43): the words of their formats, their conditions, and what a
comparison, a selection and a packed tuple give. -/

namespace Sys2Proof.Machine

open Sys2Proof.Safety

/-! ## The word of each format as a number (R72, R85, R86) -/

theorem encSP_toNat {op : Nat} (h : op < 256) (L : Fin 8) (eq ep : Fin 16) (et : Fin 8) (mu : Fin 16) (u : Fin 2) :
    (encSP op L eq ep et mu u).toNat =
      op * 2 ^ 24 + L * 2 ^ 21 + eq * 2 ^ 17 + ep * 2 ^ 13 + et * 2 ^ 10 + mu * 2 ^ 6 + u * 2 ^ 5 := by
  rw [encSP, BitVec.toNat_ofNat]
  omega

theorem encCQ_toNat {op : Nat} (h : op < 256) (ed ea eb el : Fin 16) :
    (encCQ op ed ea eb el).toNat = op * 2 ^ 24 + ed * 2 ^ 20 + ea * 2 ^ 16 + eb * 2 ^ 12 + el * 2 ^ 8 := by
  rw [encCQ, BitVec.toNat_ofNat]
  omega

theorem encCS_toNat {op : Nat} (h : op < 256) (ed ef ex ey el : Fin 16) :
    (encCS op ed ef ex ey el).toNat =
      op * 2 ^ 24 + ed * 2 ^ 20 + ef * 2 ^ 16 + ex * 2 ^ 12 + ey * 2 ^ 8 + el * 2 ^ 4 := by
  rw [encCS, BitVec.toNat_ofNat]
  omega

/-! ## Comparing and selecting (R260 to R263) -/

theorem two_rangeOk_iff (a b m n : Nat) :
    (rangeOk a m && rangeOk b n) = true ↔ ¬(65536 < a + m ∨ 65536 < b + n) := by
  rw [Bool.and_eq_true, rangeOk_iff, rangeOk_iff]
  omega

theorem three_rangeOk_iff (a b c n : Nat) :
    (rangeOk a n && rangeOk b n && rangeOk c n) = true ↔ ¬(65536 < a + n ∨ 65536 < b + n ∨ 65536 < c + n) := by
  rw [Bool.and_eq_true, two_rangeOk_iff, rangeOk_iff]
  omega

theorem flagOk_iff_not (w : Word) : flagOk w = true ↔ ¬(w ≠ 0xFFFF#16 ∧ w ≠ 0x0000#16) := by
  rw [flagOk_iff]
  tauto

/-- Two ranges of one length hold the same string exactly when they agree byte by byte. -/
theorem memRead_eq_iff (s : State) (a b n : Nat) :
    s.memRead a n = s.memRead b n ↔ ∀ k, k < n → s.readByte (a + k) = s.readByte (b + k) := by
  simp only [State.memRead, Memory.readRange, List.map_inj_left, List.mem_range, State.readByte]

theorem ctEq_of_eq {x y : Bytes} (h : x = y) : ctEq x y = 0xFFFF#16 := by
  rw [ctEq, eqFlag, if_pos h]
  rfl

theorem ctEq_of_ne {x y : Bytes} (h : x ≠ y) : ctEq x y = 0x0000#16 := by
  rw [ctEq, eqFlag, if_neg h]
  rfl

/-- Settles O59: the two ranges are CTEQ's one condition, and the strings read from them decide the mask. -/
theorem compareRanges : Obligations.CompareRanges := by
  unfold Obligations.CompareRanges
  intro ed ea eb el s hs a b n
  have hexec := exec_cteq ed ea eb el s
  have hranges := two_rangeOk_iff a b n n
  refine ⟨fun hpast => ?_, fun ha hb => ?_, encCQ_toNat (by decide) ed ea eb el⟩
  · exact faults_of_execute hs hexec (firstFault_fails hranges hpast)
  · have hnone := firstFault_holds (c := .memRange) (l := []) hranges (by omega)
    have hbytes := memRead_eq_iff s a b n
    refine ⟨fun hsame => ?_, fun hdiff => ?_⟩
    · exact writesScalar_of_execute hs hexec hnone (congrArg _ (congrArg _ (ctEq_of_eq (hbytes.mpr hsame))))
    · have hne : s.memRead a n ≠ s.memRead b n := fun h => by
        obtain ⟨k, hk, hbyte⟩ := hdiff
        exact hbyte (hbytes.mp h k hk)
      exact writesScalar_of_execute hs hexec hnone (congrArg _ (congrArg _ (ctEq_of_ne hne)))

/-- Settles O60: MEM_RANGE is CTSEL's first condition and FLAG its second; with a flag the selection is one of the strings. -/
theorem selectRange : Obligations.SelectRange := by
  unfold Obligations.SelectRange
  intro ed ef ex ey el s hs d x y n
  have hranges := three_rangeOk_iff d x y n
  refine ⟨fun hpast => ?_, fun hd hx hy => ?_, encCS_toNat (by decide) ed ef ex ey el⟩
  · exact faults_of_execute hs (exec_ctsel ed ef ex ey el s) (firstFault_fails hranges hpast)
  · have hfit : ¬(65536 < d + n ∨ 65536 < x + n ∨ 65536 < y + n) := by omega
    have hlen : (s.memRead x n).length = (s.memRead y n).length := by simp
    have hselect (f : SelectFlag) {b : Bytes} (hf : s.getE ef = f.word)
        (hb : ctSel f (s.memRead x n) (s.memRead y n) = b) : Stores (.ctsel ed ef ex ey el) s d b :=
      hb ▸ stores_of_execute hs (exec_ctsel_flag ed ex ey el hf) (firstFault_holds hranges hfit)
    refine ⟨fun h1 h0 => ?_, fun h1 => ?_, fun h0 => ?_⟩
    · exact faults_of_execute hs (exec_ctsel ed ef ex ey el s)
        ((firstFault_holds hranges hfit).trans (firstFault_fails (flagOk_iff_not _) ⟨h1, h0⟩))
    · exact hselect .allOnes h1 (ctSel_eq _ hlen)
    · exact hselect .allZeros h0 (ctSel_eq _ hlen)

/-! ## SETPROF (R25, R26, R271) -/

theorem packParams0_toNat (pr : Profile) :
    (packParams0 pr.tuple).toNat = pr.L + 16 * pr.epsQ + 256 * pr.epsP + 4096 * pr.epsT := by cases pr <;> decide

theorem packParams1_toNat (pr : Profile) : (packParams1 pr.tuple).toNat = pr.mu + 16 * pr.uniform.toNat := by
  cases pr <;> decide

theorem toNat_decide_eq_one (u : Fin 2) : (decide (u = 1)).toNat = u.val := by fin_cases u <;> rfl

theorem setprofTuple_eq (L : Fin 8) (eq ep : Fin 16) (et : Fin 8) (mu : Fin 16) (u : Fin 2) :
    setprofTuple L eq ep et mu u = ⟨L, eq, ep, et, mu, decide (u = 1)⟩ := by
  simp only [setprofTuple, Fin.ext_iff, Fin.val_one]

/-- SETPROF's one condition, with the tuple as R271 writes it. -/
theorem tupleOk_iff_not (t : ParamTuple) : tupleOk t = true ↔ ¬∀ pr : Profile, pr.tuple ≠ t := by
  rw [tupleOk_iff]
  push Not
  rfl

/-- Settles O43: the tuple of a profile packs to what holds that profile, and being one is SETPROF's one condition. -/
theorem selectProfile : Obligations.SelectProfile := by
  unfold Obligations.SelectProfile
  intro L eq ep et mu u s hs
  have hexec := exec_setprof L eq ep et mu u s
  rw [setprofTuple_eq] at hexec
  have htuple := tupleOk_iff_not ⟨L, eq, ep, et, mu, decide (u = 1)⟩
  refine ⟨fun pr hpr => ?_, fun hno => ?_, encSP_toNat (by decide) L eq ep et mu u⟩
  · have hnext := hexec.trans (execute_ok hs (firstFault_holds htuple fun hno => hno pr hpr))
    rw [← hpr] at hnext
    have hholds : HoldsProfile { s with params0 := packParams0 pr.tuple, params1 := packParams1 pr.tuple } pr :=
      ⟨packParams0_toNat pr, packParams1_toNat pr⟩
    refine ⟨_, hnext, ?_, ?_, hholds, fun _ => rfl, fun _ => rfl, fun _ => rfl, ⟨rfl, rfl, rfl⟩, rfl, rfl⟩
    · refine hholds.1.trans ?_
      simp only [Profile.L, Profile.epsQ, Profile.epsP, Profile.epsT, hpr]
    · refine hholds.2.trans ?_
      simp only [Profile.mu, Profile.uniform, hpr, toNat_decide_eq_one]
  · exact faults_of_execute hs hexec (firstFault_fails htuple hno)

end Sys2Proof.Machine
end

section
/-! PROOFS. Faults: a recorded fault and the refusal it brings (O13, O14), and the table of R311 with the priority of R312
(O15). A command's list of conditions is compared with the rows of the table one condition at a time. -/

namespace Sys2Proof.Machine

open Sys2Proof.Safety

/-! ## What issuing a word can do (R313, R314) -/

/-- A word that is answered was issued with no fault recorded; it recorded its own fault or took effect. -/
theorem issue_cases {w : CmdWord} {s t : State} (h : issue w s = .next t) :
    Running s ∧ ((∃ c, t = s.recordFault w c) ∨ Effect s t) := by
  cases hw : decode w with
  | instr i =>
    have ha := answer_exec i s
    rw [(issue_instr s hw).symm.trans h] at ha
    cases ha with
    | faulted hs c => exact ⟨hs, .inl ⟨c, congrArg (s.recordFault · c) (encodeOfDecodeIsTheWord w i hw)⟩⟩
    | done hs e => exact ⟨hs, .inr e⟩
  | rejected r =>
    rw [issue_rejected s hw] at h
    cases hs : s.faulted
    · rw [trap_running _ _ hs] at h
      exact ⟨hs, .inl ⟨.illegal, (Host.Outcome.next.inj h).symm⟩⟩
    · rw [trap_faulted _ _ hs] at h
      cases h

/-- Settles O13: what a word does is the record of its own fault, or an effect, which leaves the fault registers. -/
theorem faultsArePreciseAndRecorded : Obligations.FaultsArePreciseAndRecorded := by
  unfold Obligations.FaultsArePreciseAndRecorded
  intro w s t hs h
  obtain ⟨-, ⟨c, rfl⟩ | e⟩ := issue_cases h
  · refine ⟨fun _ => ?_, fun ht => ?_⟩
    · exact ⟨c.code, c.code_range.1, c.code_range.2, faultRecorded_recordFault s w c⟩
    · cases ht.symm.trans (State.faulted_recordFault s w c)
  · obtain ⟨-, -, hsame⟩ := e.frame
    refine ⟨fun ht => ?_, fun _ => hsame⟩
    cases hs.symm.trans ((State.faulted_congr hsame.1).symm.trans ht)

theorem exec_faulted (i : Instr) {s : State} (hs : s.faulted = true) : exec i s = .refused .faultLatched := by
  have ha := answer_exec i s
  generalize exec i s = o at ha
  cases ha with
  | refused => rfl
  | faulted h => cases h.symm.trans hs
  | done h => cases h.symm.trans hs

theorem issue_faulted (w : CmdWord) {s : State} (hs : s.faulted = true) : issue w s = .refused .faultLatched := by
  cases hw : decode w with
  | instr i => exact (issue_instr s hw).trans (exec_faulted i hs)
  | rejected r => exact (issue_rejected s hw).trans (trap_faulted _ _ hs)

/-- While a fault is recorded the moves that are answered, reset apart, change DMEM and the reply only. -/
theorem hostMove_faulted {m : HostMove} {s t : State} (hs : s.faulted = true) (hm : m ≠ .reset)
    (h : hostMove m s = .next t) : SameFaultRegs s t ∧ SameScalars s t ∧ SamePolys s t ∧ SameParams s t := by
  cases m with
  | reset => exact absurd rfl hm
  | issue w => cases (issue_faulted w hs).symm.trans h
  | writeDmem a b =>
    simp only [hostMove] at h
    split at h <;> cases h
    exact ⟨⟨rfl, rfl, rfl⟩, fun _ => rfl, fun _ => rfl, rfl, rfl⟩
  | readDmem a n =>
    simp only [hostMove] at h
    split at h <;> cases h
    exact ⟨⟨rfl, rfl, rfl⟩, fun _ => rfl, fun _ => rfl, rfl, rfl⟩
  | readCsr n =>
    cases h
    exact ⟨⟨rfl, rfl, rfl⟩, fun _ => rfl, fun _ => rfl, rfl, rfl⟩

theorem step_faulted {s t : State} (hs : s.faulted = true) (h : step s = .next t) :
    (∃ rest, s.moves = .reset :: rest) ∨
      (t.faulted = true ∧ SameFaultRegs s t ∧ SameScalars s t ∧ SamePolys s t ∧ SameParams s t) := by
  obtain ⟨-, rfl⟩ | ⟨m, rest, hmoves, hmove⟩ := step_cases h
  · exact .inr ⟨hs, ⟨rfl, rfl, rfl⟩, fun _ => rfl, fun _ => rfl, rfl, rfl⟩
  · by_cases hm : m = .reset
    · exact .inl ⟨rest, hm ▸ hmoves⟩
    · have hsame := hostMove_faulted (s := s.afterTaking rest) hs hm hmove
      exact .inr ⟨(State.faulted_congr hsame.1.1).trans hs, hsame⟩

/-- Settles O14: the refusal is the answer to every command, and the host's other moves do not ask for the fault. -/
theorem recordedFaultRefusesCommands : Obligations.RecordedFaultRefusesCommands := by
  unfold Obligations.RecordedFaultRefusesCommands
  intro s hs
  refine ⟨fun w => issue_faulted w hs, fun i => exec_faulted i hs, fun t => step_faulted hs,
    fun rest a n hmoves hfits => ?_, fun rest n hmoves => ?_⟩
  · exact ⟨_, step_readDmem_fits hmoves hfits, rfl⟩
  · exact ⟨_, _, step_readCsr hmoves, rfl, csr?_eq_csrPort s n⟩

/-! ## Rows of the fault table (R311, R312) -/

/-- Some row of the code has a condition that is met. -/
def RowMet (rows : List (Nat × Prop)) (code : Nat) : Prop := ∃ bad, (code, bad) ∈ rows ∧ bad

/-- The fault raised, if any, is the one of the lowest code whose condition is met (R312). -/
def RaisesLowest (raised : Option Cause) (rows : List (Nat × Prop)) : Prop :=
  ∀ code, raised.map Cause.code = some code ↔ RowMet rows code ∧ ∀ lower, lower < code → ¬RowMet rows lower

section Rows

variable {c : Cause} {bad : Prop} {rows : List (Nat × Prop)}

theorem rowMet_cons (code : Nat) : RowMet ((c.code, bad) :: rows) code ↔ code = c.code ∧ bad ∨ RowMet rows code := by
  simp [RowMet, or_and_right, exists_or, and_assoc, -eq_iff_iff]

theorem raisesLowest_nil : RaisesLowest none [] := fun code => by simp [RowMet]

theorem raisesLowest_skip {raised : Option Cause} (hbad : ¬bad) (h : RaisesLowest raised rows) :
    RaisesLowest raised ((c.code, bad) :: rows) := fun code => by
  simp only [rowMet_cons, hbad, and_false, false_or]
  exact h code

/-- A row that is met comes before the rows after it, whose codes are higher. -/
theorem raisesLowest_here (hbad : bad) (hhigher : ∀ row ∈ rows, c.code < row.1) :
    RaisesLowest (some c) ((c.code, bad) :: rows) := fun code => by
  have hmet {code : Nat} : RowMet rows code → c.code < code := fun ⟨p, hp, _⟩ => hhigher (code, p) hp
  simp only [rowMet_cons, hbad, and_true, Option.map_some, Option.some.injEq]
  constructor
  · rintro rfl
    exact ⟨.inl rfl, fun lower hlower => not_or.mpr ⟨hlower.ne, fun hm => (hmet hm).not_gt hlower⟩⟩
  · rintro ⟨rfl | hm, hlower⟩
    · rfl
    · exact absurd (.inl rfl) (hlower _ (hmet hm))

/-- A command's condition beside its row: the rest of the list beside the rest of the rows. -/
theorem raisesLowest_cons {ok : Bool} {l : List (Bool × Cause)} (hok : ok = true ↔ ¬bad)
    (hhigher : ∀ row ∈ rows, c.code < row.1) (h : RaisesLowest (firstFault l) rows) :
    RaisesLowest (firstFault ((ok, c) :: l)) ((c.code, bad) :: rows) := by
  by_cases hbad : bad
  · rw [firstFault_fails hok hbad]
    exact raisesLowest_here hbad hhigher
  · rw [firstFault_holds hok hbad]
    exact raisesLowest_skip hbad h

theorem raisesLowest_last {ok : Bool} (hok : ok = true ↔ ¬bad) :
    RaisesLowest (firstFault [(ok, c)]) [(c.code, bad)] :=
  raisesLowest_cons hok (fun _ h => nomatch h) raisesLowest_nil

end Rows

/-! ## Every command follows its rows -/

/-- The command is `execute` with conditions that raise what the rows say; completing, it leaves STATUS as it was. -/
def FollowsRows (i : Instr) (s : State) (rows : List (Nat × Prop)) : Prop :=
  ∃ l t, exec i s = execute i s l t ∧ t.status = s.status ∧ RaisesLowest (firstFault l) rows

section Follows

variable {i : Instr} {s t : State}

theorem rangeOk_iff_not (ea : SReg) (n : Nat) : rangeOk (s.addr ea) n = true ↔ ¬PastEnd s ea n :=
  (rangeOk_iff _ _).trans not_lt.symm

theorem cbdWidthOk_iff_not (mu : Nat) : cbdWidthOk mu = true ↔ ¬mu ∉ [6, 8, 10] :=
  (cbdWidthOk_iff mu).trans not_not.symm

theorem runFits_iff_not (b n : Nat) : runFits b n = true ↔ ¬32 < b + n := (runFits_iff b n).trans not_lt.symm

theorem csrOk_iff_not (n : Nat) : csrOk n = true ↔ ¬9 < n := decide_eq_true_iff.trans not_lt.symm

theorem followsRows_plain (h : exec i s = execute i s [] t) (ht : t.status = s.status) : FollowsRows i s [] :=
  ⟨[], t, h, ht, raisesLowest_nil⟩

theorem followsRows_one {ok : Bool} {c : Cause} {bad : Prop} (h : exec i s = execute i s [(ok, c)] t)
    (ht : t.status = s.status) (hok : ok = true ↔ ¬bad) : FollowsRows i s [(c.code, bad)] :=
  ⟨_, t, h, ht, raisesLowest_last hok⟩

theorem followsRows_two {ok ok' : Bool} {c d : Cause} {bad bad' : Prop}
    (h : exec i s = execute i s [(ok, c), (ok', d)] t) (ht : t.status = s.status) (hcd : c.code < d.code)
    (hok : ok = true ↔ ¬bad) (hok' : ok' = true ↔ ¬bad') : FollowsRows i s [(c.code, bad), (d.code, bad')] :=
  ⟨_, t, h, ht, raisesLowest_cons hok (by simpa using hcd) (raisesLowest_last hok')⟩

/-- PENC, PDEC and PCBD: a width and then the range. -/
theorem followsRows_width {ok : Bool} {bad : Prop} {ea : SReg} {n : Nat}
    (h : exec i s = execute i s [(ok, .width), (rangeOk (s.addr ea) n, .memRange)] t) (ht : t.status = s.status)
    (hok : ok = true ↔ ¬bad) : FollowsRows i s [(3, bad), (6, PastEnd s ea n)] :=
  followsRows_two h ht (by decide) hok (rangeOk_iff_not ea n)

/-- The matrix commands: a shape and then the register runs. -/
theorem followsRows_matrix {ok runs : Bool} {bad past : Prop} {b : Nat} {qs : List Poly}
    (h : exec i s = execute i s [(ok, .shape), (runs, .pregRange)] (s.setRun b qs)) (hok : ok = true ↔ ¬bad)
    (hruns : runs = true ↔ ¬past) : FollowsRows i s [(4, bad), (5, past)] :=
  followsRows_two h (State.setRun_status s b qs) (by decide) hok hruns

/-- MENC and MDEC: the width, the column, its register run and the range, in the order of their codes. -/
theorem followsRows_vector {p : PReg} {ea : SReg} {w : Fin 16} {r c : Fin 8}
    (h : exec i s = execute i s [(codecWidthOk w, .width), (columnOk r c, .shape), (runFits p r, .pregRange),
      (rangeOk (s.addr ea) (packedLen r w), .memRange)] t) (ht : t.status = s.status) :
    FollowsRows i s [(3, w.val ∉ widths), (4, BadDim r ∨ BadDim c ∨ c ≠ 1), (5, 32 < p.val + r),
      (6, PastEnd s ea (r * (32 * w)))] :=
  ⟨_, t, h, ht, raisesLowest_cons (c := .width) (codecWidthOk_iff_not _) (by simp [Cause.code])
    (raisesLowest_cons (c := .shape) (columnOk_iff r c) (by simp [Cause.code])
      (raisesLowest_cons (c := .pregRange) (runFits_iff_not _ _) (by simp [Cause.code])
        (raisesLowest_last (c := .memRange) (rangeOk_iff_not _ _))))⟩

/-- A command that needs a profile has the row of PROFILE first. -/
theorem followsRows_withProfile {k : Profile → Out} {rows : List (Nat × Prop)} (h : exec i s = withProfile i s k)
    (hhigher : ∀ row ∈ rows, Cause.profile.code < row.1)
    (hheld : ∀ pr, HoldsProfile s pr →
      ∃ l t, k pr = execute i s l t ∧ t.status = s.status ∧ RaisesLowest (firstFault l) rows) :
    FollowsRows i s ((Cause.profile.code, NoProfile s) :: rows) := by
  cases hp : s.profile? with
  | none =>
    have hno : NoProfile s := (profile?_eq_none s).mp hp
    exact ⟨[(false, .profile)], s, h.trans (withProfile_none hp), rfl, raisesLowest_here hno hhigher⟩
  | some pr =>
    have hpr : HoldsProfile s pr := (profile?_eq_some s pr).mp hp
    obtain ⟨l, t, hk, ht, hl⟩ := hheld pr hpr
    exact ⟨l, t, h.trans ((withProfile_some hp).trans hk), ht, raisesLowest_skip (fun hno => hno pr hpr) hl⟩

/-- The profile held is the only one, so a condition on it may be stated of any profile held. -/
theorem exists_held_iff {pr : Profile} (hpr : HoldsProfile s pr) (P : Profile → Prop) :
    (∃ pr', HoldsProfile s pr' ∧ P pr') ↔ P pr :=
  ⟨fun ⟨_, hpr', h⟩ => holdsProfile_unique hpr' hpr ▸ h, fun h => ⟨pr, hpr, h⟩⟩

theorem followsRows_bufferCommand {ed es : SReg} {nin nout : Profile → Nat} (hi : kkBuffers i = some (ed, es, nin, nout)) :
    FollowsRows i s [(2, NoProfile s), (6, ∃ pr, HoldsProfile s pr ∧ (PastEnd s es (nin pr) ∨ PastEnd s ed (nout pr)))] := by
  obtain ⟨f, hexec, -⟩ := exec_of_kkBuffers hi
  refine followsRows_withProfile (hexec s) (by simp [Cause.code]) fun pr hpr => ⟨_, _, rfl, rfl, ?_⟩
  rw [exists_held_iff hpr fun pr => PastEnd s es (nin pr) ∨ PastEnd s ed (nout pr)]
  exact raisesLowest_last (c := .memRange) (two_rangeOk_iff _ _ _ _)

/-- GENMAT and GENSEC: a register run whose length the profile gives, and a range of 32 bytes. -/
theorem followsRows_generate {pd : PReg} {ea : SReg} {n : Profile → Nat} {qs : Profile → List Poly}
    (h : exec i s = withProfile i s fun pr =>
      execute i s [(runFits pd (n pr), .pregRange), (rangeOk (s.addr ea) 32, .memRange)] (s.setRun pd (qs pr))) :
    FollowsRows i s
      [(2, NoProfile s), (5, ∃ pr, HoldsProfile s pr ∧ 32 < pd.val + n pr), (6, PastEnd s ea 32)] := by
  refine followsRows_withProfile h (by simp [Cause.code]) fun pr hpr => ⟨_, _, rfl, State.setRun_status _ _ _, ?_⟩
  rw [exists_held_iff hpr fun pr => 32 < pd.val + n pr]
  exact raisesLowest_cons (c := .pregRange) (runFits_iff_not _ _) (by simp [Cause.code])
    (raisesLowest_last (c := .memRange) (rangeOk_iff_not _ _))

end Follows

theorem exec_followsRows (i : Instr) (s : State) : FollowsRows i s (faultConditions i s) := by
  cases i with
  | setprof L eq ep et mu u =>
    exact followsRows_one (exec_setprof ..) rfl (setprofTuple_eq L eq ep et mu u ▸ tupleOk_iff_not _)
  | rdcsr => exact followsRows_one (exec_rdcsr_eq_execute ..) rfl (csrOk_iff_not _)
  | eli | eadd | esub | eneg | emul | eshl | eshr | ered | eldb | estb | pzero | pmov | padd | pacc | psub | pmul
  | pshl | pshr | pmod | pgetc | psetc => exact followsRows_plain rfl rfl
  | eld => exact followsRows_one (exec_eld ..) rfl (rangeOk_iff_not _ _)
  | est => exact followsRows_one (exec_est ..) rfl (rangeOk_iff_not _ _)
  | pldc => exact followsRows_one (exec_pldc ..) rfl (rangeOk_iff_not _ _)
  | pstc => exact followsRows_one (exec_pstc ..) rfl (rangeOk_iff_not _ _)
  | puni => exact followsRows_one (exec_puni ..) rfl (rangeOk_iff_not _ _)
  | penc => exact followsRows_width (exec_penc ..) rfl (codecWidthOk_iff_not _)
  | pdec => exact followsRows_width (exec_pdec ..) rfl (codecWidthOk_iff_not _)
  | pcbd => exact followsRows_width (exec_pcbd ..) rfl (cbdWidthOk_iff_not _)
  | madd => exact followsRows_matrix (exec_madd ..) (shapeOk_iff _ _) (three_runFits_iff _ _ _ _ _)
  | mshl => exact followsRows_matrix (exec_mshl ..) (shapeOk_iff _ _) (two_runFits_iff _ _ _)
  | mshr => exact followsRows_matrix (exec_mshr ..) (shapeOk_iff _ _) (two_runFits_iff _ _ _)
  | mmod => exact followsRows_matrix (exec_mmod ..) (shapeOk_iff _ _) (two_runFits_iff _ _ _)
  | mtrn => exact followsRows_matrix (exec_mtrn ..) (squareOk_iff _ _) (two_runFits_iff _ _ _)
  | mvmul => exact followsRows_matrix (exec_mvmul ..) (squareOk_iff _ _) (three_runFits_iff _ _ _ _ _)
  | minner =>
    exact followsRows_two (exec_minner ..) rfl (by decide) (columnOk_iff _ _) (two_runFits_iff _ _ _)
  | menc => exact followsRows_vector (exec_menc ..) rfl
  | mdec => exact followsRows_vector (exec_mdec ..) (State.setRun_status _ _ _)
  | genmat => exact followsRows_generate (n := fun pr => pr.L * pr.L) (exec_genmat ..)
  | gensec => exact followsRows_generate (n := fun pr => pr.L) (exec_gensec ..)
  | pkeKeygen | pkeEnc | pkeDec | kemKeygen | kemEncaps | kemDecaps => exact followsRows_bufferCommand rfl
  | cteq => exact followsRows_one (exec_cteq ..) rfl (two_rangeOk_iff _ _ _ _)
  | ctsel =>
    refine followsRows_two (exec_ctsel ..) ?_ (by decide) (three_rangeOk_iff _ _ _ _) (flagOk_iff_not _)
    split <;> rfl

/-! ## The statement -/

/-- A command takes the fault of a code exactly when the first of its conditions that fails has that code. -/
theorem faults_iff_firstFault {i : Instr} {s t : State} {l : List (Bool × Cause)} (hs : Running s) (ht : Running t)
    (h : exec i s = execute i s l t) (code : Nat) : Faults i s code ↔ (firstFault l).map Cause.code = some code := by
  cases hl : firstFault l with
  | none => exact iff_of_false (not_faults_of_running (h.trans (execute_ok hs hl)) ht) (by simp)
  | some c =>
    have hfaults := faults_of_execute hs h hl
    rw [Option.map_some, Option.some.injEq]
    exact ⟨faults_unique hfaults, fun hcode => hcode ▸ hfaults⟩

/-- Settles O15: each command's conditions stand beside its rows of the table, in the order of their codes. -/
theorem faultTableAndPriority : Obligations.FaultTableAndPriority := by
  unfold Obligations.FaultTableAndPriority
  refine ⟨fun i s hs => ?_, fun w r s hs hw => ?_⟩
  · obtain ⟨l, t, hexec, hstatus, hl⟩ := exec_followsRows i s
    have ht : Running t := (State.faulted_congr hstatus).trans hs
    refine ⟨fun code => (faults_iff_firstFault hs ht hexec code).trans (hl code), fun hnone => ?_⟩
    cases hfault : firstFault l with
    | none => exact ⟨t, hexec.trans (execute_ok hs hfault), ht⟩
    | some c =>
      obtain ⟨hmet, -⟩ := (hl c.code).mp (by rw [hfault]; rfl)
      exact absurd hmet (hnone c.code)
  · exact ⟨_, (issue_rejected s hw).trans (trap_running _ _ hs), faultRecorded_recordFault s w .illegal⟩

end Sys2Proof.Machine
end
